-- ==== Sys2Proof/Word.lean ====
section
/-! DEFINITION. The widths of 00_scope.md rule R5 as types, and zero extension (rule R7). -/

namespace Sys2Proof

/-- A node entry, a host register as the host reads it, and `hwdata`/`hrdata`: WORD_W = 32 bits (R5). -/
abbrev Word := BitVec 32

/-- An index of node memory: IDX_W = 10 bits (R5). -/
abbrev Index := BitVec 10

/-- A symbol id: SYM_W = 9 bits (R5). -/
abbrev SymId := BitVec 9

/-- A word address of the host port: HADDR_W = 11 bits (R5). -/
abbrev HostAddr := BitVec 11

/-- `zext_32(v)` of rule R7: every register is read zero-extended. -/
abbrev zext32 {n : Nat} (v : BitVec n) : Word := v.setWidth 32

end Sys2Proof
end

