-- ==== Sys2Proof/Syntax.lean ====
section
/-! DEFINITION. The instructions: every mnemonic of spec/opcode_table.json, in the table's order. Rows that share a
mnemonic are ranges of one operand (log 13). Operands keep every bit the spec ignores, so that no word is lost. -/

namespace Sys2Proof

/-- The kind of a node entry, `w[31:30]` (30_encoding.md rule R54). -/
inductive NodeKind where
  | empty | internal | leaf | reserved
  deriving DecidableEq, Repr

/-- One sample of the bit input, `{bit_eof, bit_valid, bit_data}` (30_encoding.md rule R63). -/
structure BeatPins where
  eof   : Bool
  valid : Bool
  data  : Bool
  deriving DecidableEq, Repr

/-- What `TakeBit()` makes of a sample (00_scope.md R8, 30_encoding.md R63). -/
inductive Beat where
  | bit (b : Bool) | eof | stall
  deriving DecidableEq, Repr

/-- How a leaf's symbol stands to EOS: the condition that tells the three LEAF rows of the STEP format apart
(41_decode_steps.md R108 to R110). -/
inductive SymRel where
  | isEos | isData | isBad
  deriving DecidableEq, Repr

/-- The six formats of spec/opcode_table.json. -/
inductive Format where
  | bus | cmd | node | beat | step | sink
  deriving DecidableEq, Repr

/-- The instructions. `d` is `hwdata`, `i` a node index, `rsv` the bits a rule calls reserved. -/
inductive Instr where
  -- BUS: host accesses (30_encoding.md R67)
  | rdCmd
  | wrCmd (d : Word)
  | rdStatus
  | wrStatus (d : Word)
  | rdRoot
  | wrRoot (d : Word)
  | rdEos
  | wrEos (d : Word)
  | rdCur
  | wrCur (d : Word)
  | rdBitcnt
  | wrBitcnt (d : Word)
  | rdSymcnt
  | wrSymcnt (d : Word)
  | rdNode (i : Index)
  | wrNode (i : Index) (d : Word)
  | rdUnmapped (a : HostAddr)
  | wrUnmapped (a : HostAddr) (d : Word)
  -- CMD: command words (R59, R60), `rsv` = d[31:4]
  | nop (rsv : BitVec 28)
  | start (rsv : BitVec 28)
  | abort (rsv : BitVec 28)
  | clrf (rsv : BitVec 28)
  | cmdReserved (rsv : BitVec 28) (op : BitVec 4)
  -- NODE: entries (R54 to R57)
  | empty (rsv : BitVec 30)
  | internal (rsv : BitVec 10) (right left : Index)
  | leaf (rsv : BitVec 21) (sym : SymId)
  | reserved (rsv : BitVec 30)
  -- BEAT: samples of the bit input (R63); the argument is the pin the row does not fix
  | bit0 (eof : Bool)
  | bit1 (eof : Bool)
  | eof (data : Bool)
  | stall (data : Bool)
  -- STEP: decoder steps in AT_ROOT or DESCENDING (41_decode_steps.md R102)
  | stepBit0 (eof : Bool)
  | stepBit1 (eof : Bool)
  | stepExhaust (data : Bool)
  | stepStall (data : Bool)
  | stepLeafEos (pins : BeatPins)
  | stepLeafData (pins : BeatPins)
  | stepLeafBadsym (pins : BeatPins)
  | stepBadnode (kind : NodeKind) (pins : BeatPins)
  -- SINK: decoder steps in EMITTED (R112, R113)
  | stepEmit
  | stepEmitHold
  deriving DecidableEq, Repr

end Sys2Proof
end

