-- ==== Sys2Proof/Machine/Operands.lean ====
section
/-! DEFINITION. Every operand the block takes from a word (30_encoding.md rule R61): unsigned fields, never
sign-extended, scaled or shifted. -/

namespace Sys2Proof.Machine

/-- `kind(w) = w[31:30]` (R54). -/
def kindOf (w : Word) : NodeKind :=
  match (w.extractLsb' 30 2).toNat with
  | 0 => .empty
  | 1 => .internal
  | 2 => .leaf
  | _ => .reserved

/-- `left(w) = w[9:0]` (R55). -/
def leftOf (w : Word) : Index := w.extractLsb' 0 10

/-- `right(w) = w[19:10]` (R55). -/
def rightOf (w : Word) : Index := w.extractLsb' 10 10

/-- `sym(w) = w[8:0]` (R56). -/
def symOf (w : Word) : SymId := w.extractLsb' 0 9

/-- The child a bit selects: left on 0, right on 1 (R55). -/
def childOf (b : Bool) (w : Word) : Index := if b then rightOf w else leftOf w

/-- The ROOT value of a ROOT write, `hwdata[9:0]` (R61). -/
def rootOperand (d : Word) : Index := d.extractLsb' 0 10

/-- The EOS value of an EOS write, `hwdata[8:0]` (R61). -/
def eosOperand (d : Word) : SymId := d.extractLsb' 0 9

/-- The opcode of a command word, `d[3:0]` (R59). -/
def opOf (d : Word) : BitVec 4 := d.extractLsb' 0 4

/-- The reserved bits of a command word, `d[31:4]` (R59). -/
def cmdRsvOf (d : Word) : BitVec 28 := d.extractLsb' 4 28

/-- The entry index of a NODE access, `haddr[9:0]` (R61). -/
def nodeIndexOf (a : HostAddr) : Index := a.extractLsb' 0 10

/-- How a symbol stands to EOS, both 9 bits and unsigned (41_decode_steps.md R108 to R110); equality is tested first
(60_exceptions.md R144). -/
def symRel (sym eos : SymId) : SymRel :=
  if sym = eos then .isEos else if sym.toNat < eos.toNat then .isData else .isBad

/-- The beat a sample stands for (R63): with `bit_valid = 1` it is a bit, whatever `bit_eof` says (R64). -/
def beatOf (p : BeatPins) : Beat :=
  if p.valid then .bit p.data else if p.eof then .eof else .stall

end Sys2Proof.Machine
end

