-- ==== Sys2Proof/WellFormed.lean ====
section
/-! DEFINITION. The operand ranges that the types of Syntax.lean do not already give. -/

namespace Sys2Proof

/-- A reserved or unmapped word address: 0x007 or 0x008 to 0x3FF (20_memory.md rule R42). -/
def unmappedAddr (a : HostAddr) : Bool := decide (7 ≤ a.toNat) && decide (a.toNat < 0x400)

/-- A reserved command opcode: 0x4 to 0xF (30_encoding.md rule R60). -/
def reservedOp (op : BitVec 4) : Bool := decide (4 ≤ op.toNat)

/-- The kinds whose entries are no node: EMPTY and RESERVED (30_encoding.md rule R54). -/
def missingKind : NodeKind → Bool
  | .empty | .reserved => true
  | .internal | .leaf => false

/-- An instruction some word of the spec's encodings stands for. -/
def WellFormed : Instr → Bool
  | .rdUnmapped a | .wrUnmapped a _ => unmappedAddr a
  | .cmdReserved _ op => reservedOp op
  | .stepBadnode kind _ => missingKind kind
  | .rdCmd | .wrCmd _ | .rdStatus | .wrStatus _ | .rdRoot | .wrRoot _ | .rdEos | .wrEos _ | .rdCur | .wrCur _
  | .rdBitcnt | .wrBitcnt _ | .rdSymcnt | .wrSymcnt _ | .rdNode _ | .wrNode _ _ => true
  | .nop _ | .start _ | .abort _ | .clrf _ => true
  | .empty _ | .internal _ _ _ | .leaf _ _ | .reserved _ => true
  | .bit0 _ | .bit1 _ | .eof _ | .stall _ => true
  | .stepBit0 _ | .stepBit1 _ | .stepExhaust _ | .stepStall _ => true
  | .stepLeafEos _ | .stepLeafData _ | .stepLeafBadsym _ | .stepEmit | .stepEmitHold => true

end Sys2Proof
end

