-- ==== Sys2Proof/Decode.lean ====
section
/-! DEFINITION. The decoders of 30_encoding.md and spec/opcode_table.json, one for each format, total on every bit
pattern of the format; `decode`, total on every number, which rejects by name a number too wide for its format; and
after it the encoder. -/

namespace Sys2Proof

open Sys2Proof.Machine

/-- What a host word address names (10_state.md rule R18). -/
inductive HostTarget where
  | cmd | status | root | eos | cur | bitcnt | symcnt
  | unmapped (a : HostAddr)
  | node (i : Index)
  deriving DecidableEq, Repr

/-- The address map of rules R18 and R67. -/
def targetOf (a : HostAddr) : HostTarget :=
  if a = 0x000#11 then .cmd
  else if a = 0x001#11 then .status
  else if a = 0x002#11 then .root
  else if a = 0x003#11 then .eos
  else if a = 0x004#11 then .cur
  else if a = 0x005#11 then .bitcnt
  else if a = 0x006#11 then .symcnt
  else if a.toNat < 0x400 then .unmapped a
  else .node (nodeIndexOf a)

/-- Host access decode (R67): every `{hwe, haddr}` has an operation. `d` is `hwdata`, which a read ignores. -/
def decodeBus (hwe : Bool) (a : HostAddr) (d : Word) : Instr :=
  match hwe, targetOf a with
  | false, .cmd => .rdCmd
  | true, .cmd => .wrCmd d
  | false, .status => .rdStatus
  | true, .status => .wrStatus d
  | false, .root => .rdRoot
  | true, .root => .wrRoot d
  | false, .eos => .rdEos
  | true, .eos => .wrEos d
  | false, .cur => .rdCur
  | true, .cur => .wrCur d
  | false, .bitcnt => .rdBitcnt
  | true, .bitcnt => .wrBitcnt d
  | false, .symcnt => .rdSymcnt
  | true, .symcnt => .wrSymcnt d
  | false, .unmapped a => .rdUnmapped a
  | true, .unmapped a => .wrUnmapped a d
  | false, .node i => .rdNode i
  | true, .node i => .wrNode i d

/-- Command decode (R59, R60): OP = `d[3:0]`, and `d[31:4]` is kept beside it only so that no bit is lost. -/
def decodeCmd (d : Word) : Instr :=
  match (opOf d).toNat with
  | 0 => .nop (cmdRsvOf d)
  | 1 => .start (cmdRsvOf d)
  | 2 => .abort (cmdRsvOf d)
  | 3 => .clrf (cmdRsvOf d)
  | _ => .cmdReserved (cmdRsvOf d) (opOf d)

/-- Node entry decode (R54 to R57). -/
def decodeNode (w : Word) : Instr :=
  match kindOf w with
  | .empty => .empty (w.extractLsb' 0 30)
  | .internal => .internal (w.extractLsb' 20 10) (rightOf w) (leftOf w)
  | .leaf => .leaf (w.extractLsb' 9 21) (symOf w)
  | .reserved => .reserved (w.extractLsb' 0 30)

/-- Beat decode (R63, R64). -/
def decodeBeat (p : BeatPins) : Instr :=
  match beatOf p with
  | .bit false => .bit0 p.eof
  | .bit true => .bit1 p.eof
  | .eof => .eof p.data
  | .stall => .stall p.data

/-- Decoder step decode (41_decode_steps.md R102, the STEP rows): the kind of NODE[CUR], the sample offered, and for a
LEAF how its symbol stands to EOS. -/
def decodeStep (k : NodeKind) (p : BeatPins) (r : SymRel) : Instr :=
  match k with
  | .internal =>
    match beatOf p with
    | .bit false => .stepBit0 p.eof
    | .bit true => .stepBit1 p.eof
    | .eof => .stepExhaust p.data
    | .stall => .stepStall p.data
  | .leaf =>
    match r with
    | .isEos => .stepLeafEos p
    | .isData => .stepLeafData p
    | .isBad => .stepLeafBadsym p
  | .empty => .stepBadnode .empty p
  | .reserved => .stepBadnode .reserved p

/-- Sink decode (the SINK rows): `sym_ready` in a step in EMITTED (R112, R113). -/
def decodeSink (symReady : Bool) : Instr := if symReady then .stepEmit else .stepEmitHold

/-- The bits of each format (spec/opcode_table.json; a command is a whole 32-bit word, R59). -/
def Format.width : Format → Nat
  | .bus => 12
  | .cmd => 32
  | .node => 32
  | .beat => 3
  | .step => 5
  | .sink => 1

/-- Why a number is no word of a format. -/
inductive DecodeError where
  | widerThan (f : Format)
  deriving DecidableEq, Repr

/-- A decoding, or the name of what is wrong. -/
inductive Decoded where
  | instr (i : Instr)
  | rejected (e : DecodeError)
  deriving DecidableEq, Repr

/-- The three pins of a beat from a number, `{bit_eof, bit_valid, bit_data}` with `bit_data` lowest (R63). -/
def beatPinsOf (w : Nat) : BeatPins :=
  { eof := w.testBit 2, valid := w.testBit 1, data := w.testBit 0 }

/-- The kind two bits encode (R54). -/
def kindOfBits (n : Nat) : NodeKind :=
  match n with
  | 0 => .empty
  | 1 => .internal
  | 2 => .leaf
  | _ => .reserved

/-- The decoder of one format's bits: word `w`, the operand word `d` of a host write, and for the LEAF rows of STEP
the relation `r` of the leaf's symbol to EOS, which is not in the row's bits. -/
def decodeBits (f : Format) (w : Nat) (d : Word) (r : SymRel) : Instr :=
  match f with
  | .bus => decodeBus (w.testBit 11) (BitVec.ofNat 11 w) d
  | .cmd => decodeCmd (BitVec.ofNat 32 w)
  | .node => decodeNode (BitVec.ofNat 32 w)
  | .beat => decodeBeat (beatPinsOf w)
  | .step => decodeStep (kindOfBits (w / 8)) (beatPinsOf w) r
  | .sink => decodeSink (w.testBit 0)

/-- Decoding, total on every number. -/
def decode (f : Format) (w : Nat) (d : Word) (r : SymRel) : Decoded :=
  if w < 2 ^ f.width then .instr (decodeBits f w d r) else .rejected (.widerThan f)

/-! The encoder, from the same tables. -/

/-- An instruction as the hardware is given it: its format, its word, the operand word of a host write, and for the
LEAF rows of STEP the relation of the leaf's symbol to EOS. -/
structure Encoded where
  fmt  : Format
  word : Nat
  data : Word := 0#32
  rel  : SymRel := .isEos
  deriving DecidableEq, Repr

/-- `{hwe, haddr[10:0]}` (R66). -/
def busWord (hwe : Bool) (a : HostAddr) : BitVec 12 := BitVec.ofBool hwe ++ a

/-- The word address of entry `i`: `0x400 + i` (20_memory.md R39). -/
def nodeAddr (i : Index) : HostAddr := 1#1 ++ i

/-- `{bit_eof, bit_valid, bit_data}` (R63). -/
def beatWord (p : BeatPins) : BitVec 3 := BitVec.ofBool p.eof ++ BitVec.ofBool p.valid ++ BitVec.ofBool p.data

/-- The two bits of a kind (R54). -/
def kindBits : NodeKind → BitVec 2
  | .empty => 0b00#2
  | .internal => 0b01#2
  | .leaf => 0b10#2
  | .reserved => 0b11#2

/-- `{kind(NODE[CUR]), bit_eof, bit_valid, bit_data}` (the STEP rows). -/
def stepWord (k : NodeKind) (p : BeatPins) : BitVec 5 := kindBits k ++ beatWord p

def Encoded.ofBus (hwe : Bool) (a : HostAddr) (d : Word) : Encoded :=
  { fmt := .bus, word := (busWord hwe a).toNat, data := d }

def Encoded.ofCmd (rsv : BitVec 28) (op : BitVec 4) : Encoded := { fmt := .cmd, word := (rsv ++ op).toNat }

def Encoded.ofNode (w : Word) : Encoded := { fmt := .node, word := w.toNat }

def Encoded.ofBeat (p : BeatPins) : Encoded := { fmt := .beat, word := (beatWord p).toNat }

def Encoded.ofStep (k : NodeKind) (p : BeatPins) (r : SymRel) : Encoded :=
  { fmt := .step, word := (stepWord k p).toNat, rel := r }

/-- The word of an EMPTY entry (R57). -/
def emptyWord (rsv : BitVec 30) : Word := 0b00#2 ++ rsv

/-- The word of an INTERNAL entry (R55). -/
def internalWord (rsv : BitVec 10) (right left : Index) : Word := 0b01#2 ++ rsv ++ right ++ left

/-- The word of a LEAF entry (R56). -/
def leafWord (rsv : BitVec 21) (sym : SymId) : Word := 0b10#2 ++ rsv ++ sym

/-- The word of a RESERVED entry (R57). -/
def reservedWord (rsv : BitVec 30) : Word := 0b11#2 ++ rsv

/-- The words of an instruction. -/
def encode : Instr → Encoded
  | .rdCmd => .ofBus false 0x000#11 0#32
  | .wrCmd d => .ofBus true 0x000#11 d
  | .rdStatus => .ofBus false 0x001#11 0#32
  | .wrStatus d => .ofBus true 0x001#11 d
  | .rdRoot => .ofBus false 0x002#11 0#32
  | .wrRoot d => .ofBus true 0x002#11 d
  | .rdEos => .ofBus false 0x003#11 0#32
  | .wrEos d => .ofBus true 0x003#11 d
  | .rdCur => .ofBus false 0x004#11 0#32
  | .wrCur d => .ofBus true 0x004#11 d
  | .rdBitcnt => .ofBus false 0x005#11 0#32
  | .wrBitcnt d => .ofBus true 0x005#11 d
  | .rdSymcnt => .ofBus false 0x006#11 0#32
  | .wrSymcnt d => .ofBus true 0x006#11 d
  | .rdNode i => .ofBus false (nodeAddr i) 0#32
  | .wrNode i d => .ofBus true (nodeAddr i) d
  | .rdUnmapped a => .ofBus false a 0#32
  | .wrUnmapped a d => .ofBus true a d
  | .nop rsv => .ofCmd rsv 0x0#4
  | .start rsv => .ofCmd rsv 0x1#4
  | .abort rsv => .ofCmd rsv 0x2#4
  | .clrf rsv => .ofCmd rsv 0x3#4
  | .cmdReserved rsv op => .ofCmd rsv op
  | .empty rsv => .ofNode (emptyWord rsv)
  | .internal rsv right left => .ofNode (internalWord rsv right left)
  | .leaf rsv sym => .ofNode (leafWord rsv sym)
  | .reserved rsv => .ofNode (reservedWord rsv)
  | .bit0 e => .ofBeat { eof := e, valid := true, data := false }
  | .bit1 e => .ofBeat { eof := e, valid := true, data := true }
  | .eof b => .ofBeat { eof := true, valid := false, data := b }
  | .stall b => .ofBeat { eof := false, valid := false, data := b }
  | .stepBit0 e => .ofStep .internal { eof := e, valid := true, data := false } .isEos
  | .stepBit1 e => .ofStep .internal { eof := e, valid := true, data := true } .isEos
  | .stepExhaust b => .ofStep .internal { eof := true, valid := false, data := b } .isEos
  | .stepStall b => .ofStep .internal { eof := false, valid := false, data := b } .isEos
  | .stepLeafEos p => .ofStep .leaf p .isEos
  | .stepLeafData p => .ofStep .leaf p .isData
  | .stepLeafBadsym p => .ofStep .leaf p .isBad
  | .stepBadnode k p => .ofStep k p .isEos
  | .stepEmit => { fmt := .sink, word := 1 }
  | .stepEmitHold => { fmt := .sink, word := 0 }

/-- Decoding what the encoder made. -/
def decodeEncoded (e : Encoded) : Decoded := decode e.fmt e.word e.data e.rel

/-! The host's question about a row of spec/opcode_table.json. -/

/-- Which format a table word of `nbits` bits is read in (log 11). 8 bits can be a CMD, BEAT, STEP or SINK row: 0 to 7
is read as a command, 8 and above as a decoder step. -/
def tableFormat (nbits w : Nat) : Option Format :=
  match nbits with
  | 1 => some .sink
  | 3 => some .beat
  | 4 => some .cmd
  | 5 => some .step
  | 8 => if w < 8 then some .cmd else some .step
  | 12 => some .bus
  | 16 => some .bus
  | 32 => some .node
  | _ => none

/-- The instruction the decoder reads from a table row's word; the operand word is zero, and a LEAF's symbol is taken
to be EOS (the first test, 60_exceptions.md R144). -/
def decodeTableWord (nbits w : Nat) : Option Instr :=
  match tableFormat nbits w with
  | none => none
  | some f =>
    if w < 2 ^ nbits then
      match decode f w 0#32 .isEos with
      | .instr i => some i
      | .rejected _ => none
    else none

end Sys2Proof
end

