-- ==== Sys2Proof/Config.lean ====
section
/-! DEFINITION. What is fixed for the block (00_scope.md rule R5), and the values the spec leaves free. -/

namespace Sys2Proof.Config

/-- NODE_DEPTH of rule R5: the entries of node memory, indexed 0..1023. -/
abbrev nodeDepth : Nat := 1024

/-- FREE VALUE (log 5): what the n-th host read of an unwritten node entry returns, any 32-bit value, a fresh draw
for each read (10_state.md R32, 40_host_ops.md R88, 93_implementation_defined.md U2). The first argument is the block's
stream of draws, so that the draws of two blocks are two free values (log 15), the second its draw counter. -/
opaque freeWord : Nat → Nat → BitVec 32

/-- FREE VALUE (log 6): `bit_ready` in DESCENDING while NODE[CUR] is unwritten (10_state.md R33,
93_implementation_defined.md U3), for each stream of draws and each value of the draw counter. -/
opaque freeBitReady : Nat → Nat → Bool

end Sys2Proof.Config
end

