-- ==== Sys2Proof/Machine/State.lean ====
section
/-! DEFINITION. The state: the block's registers and node memory (10_state.md rule R15), the agents around it as plain
data (log 1), and what a claim observes (00_scope.md rule R13). -/

namespace Sys2Proof.Machine

/-- `STATUS.STATE` (10_state.md R20). The values 6 and 7 never occur. -/
inductive SessState where
  | idle | atRoot | descending | emitted | done | error
  deriving DecidableEq, Repr

/-- `STATUS.ERR` (10_state.md R21). The values 5 to 7 never occur. -/
inductive ErrCode where
  | none | exhausted | badNode | badSym | badRoot
  deriving DecidableEq, Repr

/-- The host's request pins (10_state.md R34, 30_encoding.md R66). -/
structure HostPins where
  hsel   : Bool
  hwe    : Bool
  haddr  : HostAddr
  hwdata : Word
  deriving DecidableEq, Repr

/-- One move of one agent (00_scope.md R9; log 1): a host access, the decoder's turn, or a level on the reset pin. -/
inductive Turn where
  | host (p : HostPins)
  | decoder
  | rst (level : Bool)
  deriving DecidableEq, Repr

/-- Node memory (20_memory.md R39): pairs of an index and its whole 32-bit entry, indices strictly rising. An index
that is not listed has not been written since reset, so the model-only bit `written[i]` (10_state.md R32) is "i is
listed" (log 4). -/
abbrev Memory := List (Nat × Word)

/-- The state. Named as in 10_state.md R15; the fields after `nodes` are the model's own (INVENTORY.md). -/
@[ext]
structure State where
  /-- STATE (R20). -/
  state  : SessState
  /-- ERR (R21). -/
  err    : ErrCode
  /-- WRBUSY (R27). -/
  wrbusy : Bool
  /-- CMDIGN (R28). -/
  cmdign : Bool
  /-- BADCMD (R29). -/
  badcmd : Bool
  /-- ROOT (R23). -/
  root   : Index
  /-- EOS (R22). -/
  eos    : SymId
  /-- CUR (R17). -/
  cur    : Index
  /-- BITCNT (R24). -/
  bitcnt : Word
  /-- SYMCNT (R25). -/
  symcnt : Word
  /-- OUTSYM (R31). -/
  outsym : SymId
  /-- NODE with `written` (R32). -/
  nodes  : Memory
  /-- The reset pin's level (70_reset_and_hazards.md R155). -/
  rst    : Bool
  /-- The agents' moves to come, oldest first; with none, the decoder has its turn (logs 1, 2). -/
  turns  : List Turn
  /-- The bit source's samples to come, oldest first; with none, it shows Stall (log 3). -/
  beats  : List BeatPins
  /-- The sink's `sym_ready` samples to come, oldest first; with none, it is not ready (log 3). -/
  ready  : List Bool
  /-- The bits taken so far, oldest first (R13; log 7). -/
  taken  : List Bool
  /-- The symbols the sink has accepted so far, oldest first (R13; log 7). -/
  out    : List SymId
  /-- The words host reads have returned so far, oldest first (R13; log 7). -/
  reads  : List Word
  /-- How many free values host reads of unwritten entries have drawn (log 5). -/
  draws  : Nat
  /-- Which stream of free values this block draws from; read only where one is drawn, changed by nothing (logs 5, 15). -/
  stream : Nat
  deriving DecidableEq, Repr

/-- Why the machine stops. -/
inductive Fault where
  /-- UNINIT_NODE (60_exceptions.md R143): START or a decoder step read a node entry not written since reset. Raised
  by `nodeRead`'s users `execStart`, the decoder's fetch and `onNode`. SAFE: the hardware goes on with whatever the
  memory holds; no claim about such a run can be proved. -/
  | uninitNode
  deriving DecidableEq, Repr

/-- Why an instruction has no meaning. -/
inductive Refusal where
  /-- An arm of `exec` that has no meaning yet. Raised by no arm of this model. SAFE. -/
  | notModelled (mnemonic : String)
  deriving DecidableEq, Repr

/-- What an instruction or a step answers. -/
abbrev Result := Host.Outcome State Fault Refusal

/-- The machine right after reset (10_state.md R36, 70_reset_and_hazards.md R155), with no move pending, nothing
offered by the bit source or the sink, and nothing observed yet (logs 1, 3, 5, 7, 8, 15). -/
def State.reset : State where
  state := .idle
  err := .none
  wrbusy := false
  cmdign := false
  badcmd := false
  root := 0#10
  eos := 256#9
  cur := 0#10
  bitcnt := 0#32
  symcnt := 0#32
  outsym := 0#9
  nodes := []
  rst := false
  turns := []
  beats := []
  ready := []
  taken := []
  out := []
  reads := []
  draws := 0
  stream := 0

end Sys2Proof.Machine
end

