-- ==== Sys2Proof/Machine/Ops.lean ====
section
/-! DEFINITION. The named operations over node memory and registers that the instructions' meanings are made of. -/

namespace Sys2Proof.Machine

/-! Node memory (10_state.md R32, 20_memory.md R39). -/

/-- The entry at an index, none when it has not been written since reset. -/
def Memory.read : Memory → Nat → Option Word
  | [], _ => none
  | (k, v) :: m, i => if k = i then some v else Memory.read m i

/-- Writing an entry: all 32 bits replaced at once (20_memory.md R43), the canonical form kept. -/
def Memory.write : Memory → Nat → Word → Memory
  | [], i, v => [(i, v)]
  | (k, u) :: m, i, v =>
    if i < k then (i, v) :: (k, u) :: m
    else if i = k then (i, v) :: m
    else (k, u) :: Memory.write m i v

/-- Every index listed is below `NODE_DEPTH` and above `b`, and they rise strictly. -/
def Memory.risesFrom : Nat → Memory → Bool
  | _, [] => true
  | b, (k, _) :: m => decide (b ≤ k) && decide (k < Config.nodeDepth) && Memory.risesFrom (k + 1) m

/-- The canonical form: indices strictly rising, each one of the 1024. -/
def Memory.wf (m : Memory) : Bool := Memory.risesFrom 0 m

/-- `NodeRead(i)` of 00_scope.md R8; none where the model faults. -/
def State.nodeRead (s : State) (i : Index) : Option Word := Memory.read s.nodes i.toNat

/-- `written[i]` (R32). -/
def State.written (s : State) (i : Index) : Bool := (s.nodeRead i).isSome

/-- `NodeWrite(i, v)` of 00_scope.md R8, which sets `written[i]`. -/
def State.nodeWrite (i : Index) (v : Word) (s : State) : State :=
  { s with nodes := Memory.write s.nodes i.toNat v }

/-! The session (00_scope.md R11). -/

/-- Active: STATE is AT_ROOT, DESCENDING or EMITTED. -/
def State.active (s : State) : Bool :=
  match s.state with
  | .atRoot | .descending | .emitted => true
  | .idle | .done | .error => false

/-- STATE is AT_ROOT or DESCENDING: the decoder is about to examine NODE[CUR] (41_decode_steps.md R104). -/
def State.walking (s : State) : Bool :=
  match s.state with
  | .atRoot | .descending => true
  | .idle | .emitted | .done | .error => false

/-- Terminal: STATE is DONE or ERROR. -/
def State.terminal (s : State) : Bool :=
  match s.state with
  | .done | .error => true
  | .idle | .atRoot | .descending | .emitted => false

/-- No step: nothing changes. -/
def hold (s : State) : Result := .next s

/-- `raise Error(code)` (60_exceptions.md R139): the one way into ERROR. -/
def raiseError (code : ErrCode) (s : State) : State :=
  { s with state := .error, err := code }

/-- Leaving the session, ERROR included, for IDLE (40_host_ops.md R96, 60_exceptions.md R141). -/
def leaveSession (s : State) : State :=
  { s with state := .idle, err := .none }

/-- The values START gives the registers before it looks at the root (40_host_ops.md R94). -/
def beginSession (s : State) : State :=
  { s with err := .none, bitcnt := 0#32, symcnt := 0#32, cur := s.root }

/-- Every register at its reset value and every entry unwritten (10_state.md R36, 70_reset_and_hazards.md R155). The
agents and what was observed are not the block's, and stay (R156). -/
def resetBlock (s : State) : State :=
  { s with
    state := .idle, err := .none, wrbusy := false, cmdign := false, badcmd := false,
    root := 0#10, eos := 256#9, cur := 0#10, bitcnt := 0#32, symcnt := 0#32, outsym := 0#9, nodes := [] }

/-- A level on the reset pin (R155): while it is 1, and on its release, the block takes its reset values. A 0 on a pin
that is already 0 is no reset (log 8). -/
def setRst (level : Bool) (s : State) : State :=
  if level || s.rst then { resetBlock s with rst := level } else s

/-! Host reads and writes (40_host_ops.md). -/

/-- `hrdata <- v`: the read returns `v` and changes nothing else (20_memory.md R43). -/
def returnRead (v : Word) (s : State) : State := { s with reads := s.reads ++ [v] }

/-- `hrdata <- any 32-bit value`, a fresh draw (40_host_ops.md R88; log 5). -/
def returnDraw (s : State) : State :=
  { s with reads := s.reads ++ [Config.freeWord s.stream s.draws], draws := s.draws + 1 }

/-- A write of ROOT, EOS or an entry (40_host_ops.md R81): dropped, with WRBUSY set, while the block is active. -/
def lockedWrite (write : State → State) (s : State) : State :=
  if s.active then { s with wrbusy := true } else write s

/-! The bit input and the symbol output. -/

/-- The sample the bit source shows: the oldest to come, Stall when there is none (log 3). -/
def State.offered (s : State) : BeatPins := s.beats.headD { eof := false, valid := false, data := false }

/-- The sample has been seen by a step that needed a bit (log 3). -/
def useBeat (s : State) : State := { s with beats := s.beats.tail }

/-- The sink's answer: the oldest to come, not ready when there is none (log 3). -/
def State.symReady (s : State) : Bool := s.ready.headD false

/-- The sink's answer has been seen by a step in EMITTED (log 3). -/
def useReady (s : State) : State := { s with ready := s.ready.tail }

/-- A bit step (41_decode_steps.md R106): the bit `b` is taken and CUR moves to the child it selects. -/
def descendTo (b : Bool) (child : Index) (s : State) : State :=
  { s with
    cur := child, bitcnt := s.bitcnt + 1#32, state := .descending,
    beats := s.beats.tail, taken := s.taken ++ [b] }

/-- End of stream (41_decode_steps.md R108). -/
def endOfStream (s : State) : State := { s with state := .done }

/-- A data symbol is offered (41_decode_steps.md R109). -/
def offerSymbol (sym : SymId) (s : State) : State := { s with outsym := sym, state := .emitted }

/-- The sink accepts OUTSYM (41_decode_steps.md R112): counted, and the walk restarts at the root. -/
def acceptSymbol (s : State) : State :=
  { s with
    symcnt := s.symcnt + 1#32, cur := s.root, state := .atRoot,
    ready := s.ready.tail, out := s.out ++ [s.outsym] }

/-- What a leaf of symbol `sym` does (41_decode_steps.md R108 to R110). -/
def resolveLeaf (sym : SymId) (s : State) : State :=
  match symRel sym s.eos with
  | .isEos => endOfStream s
  | .isData => offerSymbol sym s
  | .isBad => raiseError .badSym s

/-- A decoder step in AT_ROOT or DESCENDING at an entry of kind `k` (41_decode_steps.md R104): the entry is read, with
the fault UNINIT_NODE if it is unwritten. In the other states, and at an entry of another kind, nothing changes (log 9). -/
def onNode (k : NodeKind) (effect : Word → State → Result) (s : State) : Result :=
  if s.walking then
    match s.nodeRead s.cur with
    | none => .fault .uninitNode
    | some w => if kindOf w = k then effect w s else hold s
  else hold s

/-- A decoder step at a leaf whose symbol stands to EOS as `r`. At a leaf of another relation nothing changes (log 9). -/
def onLeaf (r : SymRel) (effect : Word → State → Result) (s : State) : Result :=
  onNode .leaf (fun w s => if symRel (symOf w) s.eos = r then effect w s else hold s) s

/-- A decoder step in EMITTED. In the other states nothing changes (log 9). -/
def onEmitted (effect : State → Result) (s : State) : Result :=
  if s.state = .emitted then effect s else hold s

end Sys2Proof.Machine
end

