-- ==== Sys2Proof/Machine/Beats.lean ====
section
/-! DEFINITION. The BEAT format: what a decoder step that needs a bit does with each beat (30_encoding.md rules R63,
R64). Outside AT_ROOT and DESCENDING, and at an entry that is not INTERNAL, no bit is needed and nothing changes
(41_decode_steps.md R103, R112; log 9). The instruction is its own beat, whatever sample is offered (log 9). -/

namespace Sys2Proof.Machine

/-- BIT0: a 0 bit; descend left (R106). -/
def execBit0 (_eof : Bool) (s : State) : Result :=
  onNode .internal (fun w s => .next (descendTo false (leftOf w) s)) s

/-- BIT1: a 1 bit; descend right (R106). -/
def execBit1 (_eof : Bool) (s : State) : Result :=
  onNode .internal (fun w s => .next (descendTo true (rightOf w) s)) s

/-- EOF: the source is exhausted; no bit will come (R107). -/
def execEof (_data : Bool) (s : State) : Result :=
  onNode .internal (fun _ s => .next (raiseError .exhausted (useBeat s))) s

/-- STALL: no bit yet; the decoder holds (R105). -/
def execStall (_data : Bool) (s : State) : Result :=
  onNode .internal (fun _ s => .next (useBeat s)) s

end Sys2Proof.Machine
end

