-- ==== Sys2Proof/Machine/Entries.lean ====
section
/-! DEFINITION. The NODE format: what the walk does on reaching an entry (30_encoding.md rule R54, 41_decode_steps.md
rule R102), the entry's own fields as operands. Outside AT_ROOT and DESCENDING no entry is examined (R103; log 9). -/

namespace Sys2Proof.Machine

/-- A decoder step that examines an entry. -/
def onWalk (effect : State → State) (s : State) : Result :=
  if s.walking then .next (effect s) else hold s

/-- EMPTY (R57): reaching it raises BADNODE (R111). -/
def execEmpty (_rsv : BitVec 30) (s : State) : Result := onWalk (raiseError .badNode) s

/-- INTERNAL (R55): `TakeBit()` decides between rules R105, R106 and R107. -/
def execInternal (_rsv : BitVec 10) (right left : Index) (s : State) : Result :=
  onWalk (fun s =>
    match beatOf s.offered with
    | .bit b => descendTo b (if b then right else left) s
    | .eof => raiseError .exhausted (useBeat s)
    | .stall => useBeat s) s

/-- LEAF (R56): the symbol is resolved against EOS (R108 to R110). -/
def execLeaf (_rsv : BitVec 21) (sym : SymId) (s : State) : Result := onWalk (resolveLeaf sym) s

/-- RESERVED (R57): treated as EMPTY. -/
def execReserved (_rsv : BitVec 30) (s : State) : Result := onWalk (raiseError .badNode) s

end Sys2Proof.Machine
end

