-- ==== Sys2Proof/Machine/Flags.lean ====
section
/-! DEFINITION. STATUS and the sticky flags (10_state.md rules R19 to R21, R27 to R30). The block has no arithmetic
flags. -/

namespace Sys2Proof.Machine

/-- The value of STATE (R20). -/
def stateBits : SessState → BitVec 3
  | .idle => 0#3
  | .atRoot => 1#3
  | .descending => 2#3
  | .emitted => 3#3
  | .done => 4#3
  | .error => 5#3

/-- The value of ERR (R21). -/
def errBits : ErrCode → BitVec 3
  | .none => 0#3
  | .exhausted => 1#3
  | .badNode => 2#3
  | .badSym => 3#3
  | .badRoot => 4#3

/-- STATUS as it reads: `zext_32({BADCMD, CMDIGN, WRBUSY, 0b0, ERR, 0b0, STATE})` (R19). -/
def State.statusWord (s : State) : Word :=
  zext32 (BitVec.ofBool s.badcmd ++ BitVec.ofBool s.cmdign ++ BitVec.ofBool s.wrbusy ++ 0#1 ++ errBits s.err
    ++ 0#1 ++ stateBits s.state)

/-- CMDIGN is set when START is ignored (R28). -/
def setCmdign (s : State) : State := { s with cmdign := true }

/-- BADCMD is set by a reserved opcode (R29). -/
def setBadcmd (s : State) : State := { s with badcmd := true }

/-- All three sticky flags cleared (40_host_ops.md R97). -/
def clearFlags (s : State) : State := { s with wrbusy := false, cmdign := false, badcmd := false }

end Sys2Proof.Machine
end

