-- ==== Sys2Proof/Machine/HostReads.lean ====
section
/-! DEFINITION. The host reads: 40_host_ops.md rules R74 to R80, R88 and R90. -/

namespace Sys2Proof.Machine

/-- RD_CMD (R74): CMD has no storage and reads 0. -/
def execRdCmd (s : State) : Result := .next (returnRead 0#32 s)

/-- RD_STATUS (R75): the sticky flags are not cleared. -/
def execRdStatus (s : State) : Result := .next (returnRead s.statusWord s)

/-- RD_ROOT (R76). -/
def execRdRoot (s : State) : Result := .next (returnRead (zext32 s.root) s)

/-- RD_EOS (R77). -/
def execRdEos (s : State) : Result := .next (returnRead (zext32 s.eos) s)

/-- RD_CUR (R78). -/
def execRdCur (s : State) : Result := .next (returnRead (zext32 s.cur) s)

/-- RD_BITCNT (R79). -/
def execRdBitcnt (s : State) : Result := .next (returnRead s.bitcnt s)

/-- RD_SYMCNT (R80). -/
def execRdSymcnt (s : State) : Result := .next (returnRead s.symcnt s)

/-- RD_NODE (R88): the whole entry, or a fresh free value where it is unwritten; never a fault. -/
def execRdNode (i : Index) (s : State) : Result :=
  match s.nodeRead i with
  | some w => .next (returnRead w s)
  | none => .next (returnDraw s)

/-- RD_UNMAPPED (R90): reads 0. -/
def execRdUnmapped (_a : HostAddr) (s : State) : Result := .next (returnRead 0#32 s)

end Sys2Proof.Machine
end

