-- ==== Sys2Proof/Machine/Commands.lean ====
section
/-! DEFINITION. The commands: 40_host_ops.md rules R93 to R98. The bits `d[31:4]` are ignored (30_encoding.md R59). -/

namespace Sys2Proof.Machine

/-- NOP (R93): no effect. -/
def execNop (_rsv : BitVec 28) (s : State) : Result := hold s

/-- START (R94 when not active, R95 when active). -/
def execStart (_rsv : BitVec 28) (s : State) : Result :=
  if s.active then .next (setCmdign s)
  else
    match s.nodeRead s.root with
    | none => .fault .uninitNode
    | some w =>
      if kindOf w = .internal then .next { beginSession s with state := .atRoot }
      else .next (raiseError .badRoot (beginSession s))

/-- ABORT (R96): the session is discarded, and so is an offered symbol; nothing else changes. -/
def execAbort (_rsv : BitVec 28) (s : State) : Result := .next (leaveSession s)

/-- CLRF (R97). -/
def execClrf (_rsv : BitVec 28) (s : State) : Result := .next (clearFlags s)

/-- A reserved command (R98): BADCMD, and nothing else. -/
def execCmdReserved (_rsv : BitVec 28) (_op : BitVec 4) (s : State) : Result := .next (setBadcmd s)

end Sys2Proof.Machine
end

