-- ==== Sys2Proof/Machine/HostWrites.lean ====
section
/-! DEFINITION. The host writes: 40_host_ops.md rules R81 to R87, R89, R91 and R92. -/

namespace Sys2Proof.Machine

/-- WR_CMD (R92): the command `d[3:0]` takes effect at once, in this step. -/
def execWrCmd (d : Word) (s : State) : Result :=
  match (opOf d).toNat with
  | 0 => execNop (cmdRsvOf d) s
  | 1 => execStart (cmdRsvOf d) s
  | 2 => execAbort (cmdRsvOf d) s
  | 3 => execClrf (cmdRsvOf d) s
  | _ => execCmdReserved (cmdRsvOf d) (opOf d) s

/-- WR_STATUS (R84): no effect. -/
def execWrStatus (_d : Word) (s : State) : Result := hold s

/-- WR_ROOT (R82), dropped while active (R81). -/
def execWrRoot (d : Word) (s : State) : Result :=
  .next (lockedWrite (fun s => { s with root := rootOperand d }) s)

/-- WR_EOS (R83), dropped while active (R81). -/
def execWrEos (d : Word) (s : State) : Result :=
  .next (lockedWrite (fun s => { s with eos := eosOperand d }) s)

/-- WR_CUR (R85): no effect. -/
def execWrCur (_d : Word) (s : State) : Result := hold s

/-- WR_BITCNT (R86): no effect. -/
def execWrBitcnt (_d : Word) (s : State) : Result := hold s

/-- WR_SYMCNT (R87): no effect. -/
def execWrSymcnt (_d : Word) (s : State) : Result := hold s

/-- WR_NODE (R89), dropped while active (R81). -/
def execWrNode (i : Index) (d : Word) (s : State) : Result :=
  .next (lockedWrite (State.nodeWrite i d) s)

/-- WR_UNMAPPED (R91): no effect, and WRBUSY is not set. -/
def execWrUnmapped (_a : HostAddr) (_d : Word) (s : State) : Result := hold s

end Sys2Proof.Machine
end

