-- ==== Sys2Proof/Machine/Walk.lean ====
section
/-! DEFINITION. The decoder's steps: the STEP and SINK formats, 41_decode_steps.md rules R104 to R113. -/

namespace Sys2Proof.Machine

/-- STEP_BIT0 (R106): a 0 bit is taken, CUR goes left. -/
def execStepBit0 (_eof : Bool) (s : State) : Result :=
  onNode .internal (fun w s => .next (descendTo false (childOf false w) s)) s

/-- STEP_BIT1 (R106): a 1 bit is taken, CUR goes right. -/
def execStepBit1 (_eof : Bool) (s : State) : Result :=
  onNode .internal (fun w s => .next (descendTo true (childOf true w) s)) s

/-- STEP_EXHAUST (R107): a bit was needed and the source is exhausted. -/
def execStepExhaust (_data : Bool) (s : State) : Result :=
  onNode .internal (fun _ s => .next (raiseError .exhausted (useBeat s))) s

/-- STEP_STALL (R105): the block holds; only the source's sample is gone. -/
def execStepStall (_data : Bool) (s : State) : Result :=
  onNode .internal (fun _ s => .next (useBeat s)) s

/-- STEP_LEAF_EOS (R108): no beat is taken, whatever is offered. -/
def execStepLeafEos (_pins : BeatPins) (s : State) : Result :=
  onLeaf .isEos (fun _ s => .next (endOfStream s)) s

/-- STEP_LEAF_DATA (R109). -/
def execStepLeafData (_pins : BeatPins) (s : State) : Result :=
  onLeaf .isData (fun w s => .next (offerSymbol (symOf w) s)) s

/-- STEP_LEAF_BADSYM (R110). -/
def execStepLeafBadsym (_pins : BeatPins) (s : State) : Result :=
  onLeaf .isBad (fun _ s => .next (raiseError .badSym s)) s

/-- STEP_BADNODE (R111): an EMPTY or RESERVED entry. -/
def execStepBadnode (kind : NodeKind) (_pins : BeatPins) (s : State) : Result :=
  onNode kind (fun _ s => .next (raiseError .badNode s)) s

/-- STEP_EMIT (R112): `sym_ready = 1` in EMITTED. -/
def execStepEmit (s : State) : Result := onEmitted (fun s => .next (acceptSymbol s)) s

/-- STEP_EMIT_HOLD (R113): `sym_ready = 0` in EMITTED; only the sink's sample is gone. -/
def execStepEmitHold (s : State) : Result := onEmitted (fun s => .next (useReady s)) s

end Sys2Proof.Machine
end

