-- ==== Sys2Proof/Machine/Dispatch.lean ====
section
/-! DEFINITION. One arm per instruction. -/

namespace Sys2Proof.Machine

def exec (i : Instr) (s : State) : Host.Outcome State Fault Refusal :=
  match i with
  | .rdCmd => Sys2Proof.Machine.execRdCmd s
  | .wrCmd d => Sys2Proof.Machine.execWrCmd d s
  | .rdStatus => Sys2Proof.Machine.execRdStatus s
  | .wrStatus d => Sys2Proof.Machine.execWrStatus d s
  | .rdRoot => Sys2Proof.Machine.execRdRoot s
  | .wrRoot d => Sys2Proof.Machine.execWrRoot d s
  | .rdEos => Sys2Proof.Machine.execRdEos s
  | .wrEos d => Sys2Proof.Machine.execWrEos d s
  | .rdCur => Sys2Proof.Machine.execRdCur s
  | .wrCur d => Sys2Proof.Machine.execWrCur d s
  | .rdBitcnt => Sys2Proof.Machine.execRdBitcnt s
  | .wrBitcnt d => Sys2Proof.Machine.execWrBitcnt d s
  | .rdSymcnt => Sys2Proof.Machine.execRdSymcnt s
  | .wrSymcnt d => Sys2Proof.Machine.execWrSymcnt d s
  | .rdNode n => Sys2Proof.Machine.execRdNode n s
  | .wrNode n d => Sys2Proof.Machine.execWrNode n d s
  | .rdUnmapped a => Sys2Proof.Machine.execRdUnmapped a s
  | .wrUnmapped a d => Sys2Proof.Machine.execWrUnmapped a d s
  | .nop rsv => Sys2Proof.Machine.execNop rsv s
  | .start rsv => Sys2Proof.Machine.execStart rsv s
  | .abort rsv => Sys2Proof.Machine.execAbort rsv s
  | .clrf rsv => Sys2Proof.Machine.execClrf rsv s
  | .cmdReserved rsv op => Sys2Proof.Machine.execCmdReserved rsv op s
  | .empty rsv => Sys2Proof.Machine.execEmpty rsv s
  | .internal rsv right left => Sys2Proof.Machine.execInternal rsv right left s
  | .leaf rsv sym => Sys2Proof.Machine.execLeaf rsv sym s
  | .reserved rsv => Sys2Proof.Machine.execReserved rsv s
  | .bit0 e => Sys2Proof.Machine.execBit0 e s
  | .bit1 e => Sys2Proof.Machine.execBit1 e s
  | .eof b => Sys2Proof.Machine.execEof b s
  | .stall b => Sys2Proof.Machine.execStall b s
  | .stepBit0 e => Sys2Proof.Machine.execStepBit0 e s
  | .stepBit1 e => Sys2Proof.Machine.execStepBit1 e s
  | .stepExhaust b => Sys2Proof.Machine.execStepExhaust b s
  | .stepStall b => Sys2Proof.Machine.execStepStall b s
  | .stepLeafEos p => Sys2Proof.Machine.execStepLeafEos p s
  | .stepLeafData p => Sys2Proof.Machine.execStepLeafData p s
  | .stepLeafBadsym p => Sys2Proof.Machine.execStepLeafBadsym p s
  | .stepBadnode k p => Sys2Proof.Machine.execStepBadnode k p s
  | .stepEmit => Sys2Proof.Machine.execStepEmit s
  | .stepEmitHold => Sys2Proof.Machine.execStepEmitHold s

end Sys2Proof.Machine
end

