-- ==== Sys2Proof/Machine/Fetch.lean ====
section
/-! DEFINITION. Which instruction an agent's move is, and running it (00_scope.md rule R9). -/

namespace Sys2Proof.Machine

/-- What a move comes to: an instruction to run, no instruction, or the model fault. -/
inductive Fetched where
  /-- The instruction decoded, and the state it runs in. -/
  | run (i : Instr) (s : State)
  /-- No instruction: the state that is left. -/
  | still (s : State)
  /-- The fetch itself faults. -/
  | stop (f : Fault)
  deriving DecidableEq, Repr

/-- The decoder's turn (41_decode_steps.md R102): in AT_ROOT and DESCENDING the entry at CUR is read (R104) and the
STEP word is decoded from its kind, the sample offered and its symbol against EOS; in EMITTED the SINK word is
decoded; in IDLE, DONE and ERROR there is no step (R103). While `rst = 1` the block takes no beat and offers no symbol
(70_reset_and_hazards.md R155). -/
def decoderFetch (s : State) : Fetched :=
  if s.rst then .still s
  else
    match s.state with
    | .idle | .done | .error => .still s
    | .emitted => .run (decodeSink s.symReady) s
    | .atRoot | .descending =>
      match s.nodeRead s.cur with
      | none => .stop .uninitNode
      | some w => .run (decodeStep (kindOf w) s.offered (symRel (symOf w) s.eos)) s

/-- A host access (30_encoding.md R66): none with `hsel = 0`. While `rst = 1` reads return 0 and writes have no effect
(70_reset_and_hazards.md R155). -/
def hostFetch (p : HostPins) (s : State) : Fetched :=
  if p.hsel then
    if s.rst then .still (if p.hwe then s else returnRead 0#32 s)
    else .run (decodeBus p.hwe p.haddr p.hwdata) s
  else .still s

/-- The next move: the oldest of `turns`, and the decoder's turn when there is none (log 2). -/
def fetch (s : State) : Fetched :=
  match s.turns with
  | [] => decoderFetch s
  | .decoder :: rest => decoderFetch { s with turns := rest }
  | .host p :: rest => hostFetch p { s with turns := rest }
  | .rst level :: rest => .still (setRst level { s with turns := rest })

/-- Running what was fetched. -/
def runFetched : Fetched → Result
  | .run i s => exec i s
  | .still s => .next s
  | .stop f => .fault f

/-- The decoder's turn, taken. -/
def decoderTurn (s : State) : Result := runFetched (decoderFetch s)

/-- A host access, performed. -/
def hostTurn (p : HostPins) (s : State) : Result := runFetched (hostFetch p s)

/-- The word a decoder step is to find at CUR for a kind (log 11): an INTERNAL entry with both children 0, a LEAF that
carries EOS, or the kind with every other bit 0. -/
def entryOfKind (k : NodeKind) (eos : SymId) : Word :=
  match k with
  | .empty => emptyWord 0#30
  | .internal => internalWord 0#10 0#10 0#10
  | .leaf => leafWord 0#21 eos
  | .reserved => reservedWord 0#30

/-- A state whose next move is that host access (log 11). -/
def placeAccess (hwe : Bool) (a : HostAddr) (d : Word) (s : State) : State :=
  { s with rst := false, turns := .host { hsel := true, hwe := hwe, haddr := a, hwdata := d } :: s.turns }

/-- A state whose next move is the decoder's, examining the entry `w` at CUR (log 11). -/
def placeEntry (w : Word) (s : State) : State :=
  { s.nodeWrite s.cur w with
    rst := false, turns := .decoder :: s.turns,
    state := if s.walking then s.state else .descending }

/-- A table word of format `f` placed where the next step fetches (log 11). -/
def placeWord (f : Format) (w : Nat) (s : State) : State :=
  match f with
  | .bus => placeAccess (w.testBit 11) (BitVec.ofNat 11 w) 0#32 s
  | .cmd => placeAccess true 0x000#11 (BitVec.ofNat 32 w) s
  | .node => placeEntry (BitVec.ofNat 32 w) s
  | .beat => placeEntry (entryOfKind .internal s.eos) { s with beats := beatPinsOf w :: s.beats }
  | .step => placeEntry (entryOfKind (kindOfBits (w / 8)) s.eos) { s with beats := beatPinsOf w :: s.beats }
  | .sink =>
    { s with rst := false, turns := .decoder :: s.turns, state := .emitted, ready := w.testBit 0 :: s.ready }

end Sys2Proof.Machine
end

