-- ==== Sys2Proof/Machine/Step.lean ====
section
/-! DEFINITION. One step: one agent moves, atomically (00_scope.md rule R9). -/

namespace Sys2Proof.Machine

/-- One step. -/
def step (s : State) : Host.Outcome State Fault Refusal := runFetched (fetch s)

/-- `s` with that instruction where `step` fetches its next one (log 11). -/
def State.withFetchWord (s : State) (nbits w : Nat) : State :=
  match tableFormat nbits w with
  | none => s
  | some f => placeWord f w s

end Sys2Proof.Machine
end

