-- ==== Sys2Proof/Machine/HostReference.lean ====
section
/-! DEFINITION. The host software of 42_host_reference.md: the tree builder, the table serializer and deserializer, the
encoded stream and the node-image layout. No part of the block (00_scope.md R4): `step` uses none of it (log 16). -/

namespace Sys2Proof.Machine

/-- A code tree; `missing` is a child a deserialized tree lacks (R131). -/
inductive CodeTree where
  | missing
  | leaf (sym : SymId)
  | node (left right : CodeTree)
  deriving DecidableEq, Repr

/-! Tree builder (R122 to R127). -/

/-- Why a builder fails: R126; and N > 511, which the host must not load (R122, 93_implementation_defined.md U16). That
the builder is where it is refused is the model's reading (log 16, DEDUCED). -/
inductive BuildError where
  | emptyAlphabet | alphabetTooLarge
  deriving DecidableEq, Repr

/-- A tree with its weight. -/
abbrev Weighted := Nat × CodeTree

/-- The leaves of the symbols with a non-zero count, in ascending symbol id from `i` (R123, R125). -/
def symbolSeeds : Nat → List Nat → List Weighted
  | _, [] => []
  | i, c :: cs => if c = 0 then symbolSeeds (i + 1) cs else (c, .leaf (BitVec.ofNat 9 i)) :: symbolSeeds (i + 1) cs

/-- The end-of-stream leaf: symbol N, weight exactly 1 (R123). -/
def eosSeed (freq : List Nat) : Weighted := (1, .leaf (BitVec.ofNat 9 freq.length))

/-- The collection the builder starts with, the end-of-stream leaf last (R123, R125). -/
def builderSeeds (freq : List Nat) : List Weighted := symbolSeeds 0 freq ++ [eosSeed freq]

/-- The node of minimum weight inserted earliest, and the rest in order (R125: first in, first out). -/
def popMin : List Weighted → Option (Weighted × List Weighted)
  | [] => none
  | x :: xs =>
    match popMin xs with
    | none => some (x, [])
    | some (y, ys) => if x.1 ≤ y.1 then some (x, xs) else some (y, x :: ys)

/-- One merge (R124, R125): first removed left, second removed right, the new node inserted last. -/
def mergeOnce (xs : List Weighted) : List Weighted :=
  match popMin xs with
  | none => xs
  | some (a, rest) =>
    match popMin rest with
    | none => xs
    | some (b, rest') => rest' ++ [(a.1 + b.1, .node a.2 b.2)]

/-- Merging `n` times. -/
def mergeTimes : Nat → List Weighted → List Weighted
  | 0, xs => xs
  | n + 1, xs => mergeTimes n (mergeOnce xs)

/-- The Tree Builder (R123 to R126): merging until one node remains. -/
def buildTree (freq : List Nat) : Except BuildError CodeTree :=
  if 511 < freq.length then .error .alphabetTooLarge
  else if symbolSeeds 0 freq = [] then .error .emptyAlphabet
  else
    match mergeTimes ((builderSeeds freq).length - 1) (builderSeeds freq) with
    | [(_, t)] => .ok t
    | _ => .error .emptyAlphabet

/-! Serializer (R128). -/

/-- The (symbol id, code string) pairs, depth first, left before right. -/
def codeTable : CodeTree → List (SymId × List Bool)
  | .missing => []
  | .leaf sym => [(sym, [])]
  | .node l r =>
    (codeTable l).map (fun e => (e.1, false :: e.2)) ++ (codeTable r).map (fun e => (e.1, true :: e.2))

/-- A line of text. -/
abbrev Line := List Char

/-- The characters of a code string (R128). -/
def codeLine (code : List Bool) : Line := code.map fun b => if b then '1' else '0'

/-- Two consecutive lines for each leaf: the symbol id in decimal, then the code string (R128). -/
def serialize (t : CodeTree) : List Line :=
  (codeTable t).flatMap fun e => [Nat.toDigits 10 e.1.toNat, codeLine e.2]

/-! Deserializer (R129 to R131). -/

/-- The malformed-input conditions of R130. -/
inductive TableError where
  | emptyCode | collision | midPair | badSymbolLine | badCodeLine
  deriving DecidableEq, Repr

/-- The value of a decimal digit. -/
def digitValue (c : Char) : Option Nat :=
  if '0'.toNat ≤ c.toNat ∧ c.toNat ≤ '9'.toNat then some (c.toNat - '0'.toNat) else none

/-- The number a run of decimal digits continues from `acc`. -/
def decimalFrom : Nat → Line → Option Nat
  | acc, [] => some acc
  | acc, c :: cs =>
    match digitValue c with
    | none => none
    | some d => decimalFrom (acc * 10 + d) cs

/-- A symbol-id line: a decimal integer from 0 to 511 (R130). DESIGN CHOICE (log 16): one or more digits and nothing
else, so that leading zeros are read, and a sign or a blank is refused. -/
def readSymbol (l : Line) : Option SymId :=
  match l with
  | [] => none
  | _ :: _ =>
    match decimalFrom 0 l with
    | none => none
    | some n => if n < 512 then some (BitVec.ofNat 9 n) else none

/-- A code-string line: '0' and '1' only (R130). -/
def readCode : Line → Option (List Bool)
  | [] => some []
  | c :: cs =>
    match readCode cs with
    | none => none
    | some bs => if c = '0' then some (false :: bs) else if c = '1' then some (true :: bs) else none

/-- The walk of one pair from a node (R129): missing internal nodes are made as the walk proceeds; a walk that passes
through a leaf, or ends at a node that is already there, collides (R130). -/
def insertCode : CodeTree → List Bool → SymId → Option CodeTree
  | .missing, [], sym => some (.leaf sym)
  | .missing, false :: p, sym => (insertCode .missing p sym).map fun l => .node l .missing
  | .missing, true :: p, sym => (insertCode .missing p sym).map fun r => .node .missing r
  | .leaf _, _, _ => none
  | .node _ _, [], _ => none
  | .node l r, false :: p, sym => (insertCode l p sym).map fun l' => .node l' r
  | .node l r, true :: p, sym => (insertCode r p sym).map fun r' => .node l r'

/-- The pairs of lines taken into the tree one after another. -/
def deserializeInto : CodeTree → List Line → Except TableError CodeTree
  | t, [] => .ok t
  | _, [_] => .error .midPair
  | t, symLine :: codeLine :: rest =>
    match readSymbol symLine, readCode codeLine with
    | none, _ => .error .badSymbolLine
    | some _, none => .error .badCodeLine
    | some _, some [] => .error .emptyCode
    | some sym, some (b :: p) =>
      match insertCode t (b :: p) sym with
      | none => .error .collision
      | some t' => deserializeInto t' rest

/-- The Table Deserializer (R129): it starts from a single placeholder root. -/
def deserialize (lines : List Line) : Except TableError CodeTree :=
  deserializeInto (.node .missing .missing) lines

/-! Encoded stream (R132). -/

/-- The code string of a symbol. DESIGN CHOICE (log 16): none where no leaf carries it, and that of the first leaf,
depth first and left before right, where several do (R132 is silent on both). -/
def codeOf (t : CodeTree) (sym : SymId) : Option (List Bool) :=
  ((codeTable t).find? fun e => e.1 = sym).map Prod.snd

/-- The concatenated code strings of a symbol sequence. -/
def encodeSymbols (t : CodeTree) : List SymId → Option (List Bool)
  | [] => some []
  | s :: ss =>
    match codeOf t s, encodeSymbols t ss with
    | some c, some cs => some (c ++ cs)
    | _, _ => none

/-- The encoded stream (R132): the symbols' codes, then the end-of-stream code. -/
def encodeStream (t : CodeTree) (message : List SymId) (eosSym : SymId) : Option (List Bool) :=
  encodeSymbols t (message ++ [eosSym])

/-! Node image (R133, R134). -/

/-- `Place(node)` of R133: the entries, in index order from `next`, and the index after them. -/
def placeTree : CodeTree → Nat → List (Nat × Word) × Nat
  | .missing, next => ([(next, emptyWord 0#30)], next + 1)
  | .leaf sym, next => ([(next, leafWord 0#21 sym)], next + 1)
  | .node l r, next =>
    let left := placeTree l (next + 1)
    let right := placeTree r left.2
    ((next, internalWord 0#10 (BitVec.ofNat 10 left.2) (BitVec.ofNat 10 (next + 1))) :: (left.1 ++ right.1), right.2)

/-- The node image of a tree from index 0; none where it does not fit and the host must refuse it (R134). -/
def nodeImage (t : CodeTree) : Option Memory :=
  if (placeTree t 0).2 ≤ Config.nodeDepth then some (placeTree t 0).1 else none

/-- What the last lines of R133 load: the entries, ROOT and EOS. -/
structure Layout where
  nodes : Memory
  root  : Index
  eos   : SymId
  deriving DecidableEq, Repr

/-- `ROOT <- Place(root); EOS <- N` of R133: `Place` returns the index it allocated for the root, 0. `n` is N, at most
511 (R122). -/
def layOut (t : CodeTree) (n : SymId) : Option Layout :=
  match nodeImage t with
  | none => none
  | some m => some { nodes := m, root := 0#10, eos := n }

/-- The leaves of a tree. -/
def leafCount : CodeTree → Nat
  | .missing => 0
  | .leaf _ => 1
  | .node l r => leafCount l + leafCount r

/-- Every internal node has exactly two children (R127). -/
def strictTree : CodeTree → Bool
  | .missing => false
  | .leaf _ => true
  | .node l r => strictTree l && strictTree r

end Sys2Proof.Machine
end

