-- ==== Sys2Proof/Machine/Assembler.lean ====
section
/-! DEFINITION. The assembler syntax of 30_encoding.md rules R70 and R71 as host accesses, and the
loading of a laid-out tree by them (42_host_reference.md rule R133). -/

namespace Sys2Proof.Machine

/-- The registers an assembler line names (R70). -/
inductive AsmReg where
  | cmd | status | root | eos | cur | bitcnt | symcnt
  | node (i : Index)
  deriving DecidableEq, Repr

/-- `addr(reg)` (R70, 10_state.md R18). -/
def asmAddr : AsmReg → HostAddr
  | .cmd => 0x000#11
  | .status => 0x001#11
  | .root => 0x002#11
  | .eos => 0x003#11
  | .cur => 0x004#11
  | .bitcnt => 0x005#11
  | .symcnt => 0x006#11
  | .node i => nodeAddr i

/-- `wr reg, value`: `MemWrite(addr(reg), 4, value)`. -/
def asmWr (r : AsmReg) (v : Word) : HostPins := { hsel := true, hwe := true, haddr := asmAddr r, hwdata := v }

/-- `rd reg`: `MemRead(addr(reg), 4)`. -/
def asmRd (r : AsmReg) : HostPins := { hsel := true, hwe := false, haddr := asmAddr r, hwdata := 0#32 }

/-- `cmd op`: `wr CMD, op`. -/
def asmCmd (op : BitVec 4) : HostPins := asmWr .cmd (zext32 op)

/-- `node.int i, L, R` (R71): `wr NODE[i], 0x40000000 | (R << 10) | L`. -/
def asmNodeInt (i left right : Index) : HostPins :=
  asmWr (.node i) (0x40000000#32 ||| (zext32 right <<< 10) ||| zext32 left)

/-- `node.leaf i, s` (R71): `wr NODE[i], 0x80000000 | s`. -/
def asmNodeLeaf (i : Index) (sym : SymId) : HostPins := asmWr (.node i) (0x80000000#32 ||| zext32 sym)

/-- `node.empty i` (R71): `wr NODE[i], 0x00000000`. -/
def asmNodeEmpty (i : Index) : HostPins := asmWr (.node i) 0x00000000#32

/-- `start root, eos` (R71): `wr ROOT, root` ; `wr EOS, eos` ; `cmd START`. -/
def asmStart (root : Index) (eos : SymId) : List HostPins :=
  [asmWr .root (zext32 root), asmWr .eos (zext32 eos), asmCmd 1#4]

/-- One poll of `wait` (R70): `rd STATUS`. The loop is the host's. -/
def asmPoll : HostPins := asmRd .status

/-- Whether a poll ends `wait.end` (R71): STATUS.STATE in {DONE, ERROR}. -/
def asmWaitEnds (status : Word) : Bool :=
  decide ((status.extractLsb' 0 3).toNat = 4) || decide ((status.extractLsb' 0 3).toNat = 5)

/-- Loading a laid-out tree (42_host_reference.md R133): `NODE[i] <- ...` for every entry, then `ROOT <- Place(root)`
and `EOS <- N`. -/
def loadLayout (l : Layout) : List HostPins :=
  l.nodes.map (fun e => asmWr (.node (BitVec.ofNat 10 e.1)) e.2) ++ [asmWr .root (zext32 l.root), asmWr .eos (zext32 l.eos)]

/-- A host program as the moves it makes. -/
def hostProgram (accesses : List HostPins) : List Turn := accesses.map .host

end Sys2Proof.Machine
end

