-- ==== Sys2Proof/Machine/Cycle.lean ====
section
/-! DEFINITION. The reference cycle-level refinement (70_reset_and_hazards.md rules R167, R168; log 14). No functional
rule depends on it and `step` does not use it. -/

namespace Sys2Proof.Machine

/-- One move, then another; a stop ends both. -/
def andThen (first : Result) (second : State → Result) : Result :=
  match first with
  | .next s => second s
  | .fault f => .fault f
  | .refused r => .refused r

/-- The words whose host writes are dropped while the block is active: ROOT, EOS and the entries (40_host_ops.md
R81). -/
def lockedTarget (a : HostAddr) : Bool :=
  match targetOf a with
  | .root | .eos | .node _ => true
  | .cmd | .status | .cur | .bitcnt | .symcnt | .unmapped _ => false

/-- Whether the cycle's host access acts on the state at the start of the cycle, before the decoder step: a read
returns that state, and a ROOT, EOS or NODE write is dropped or not by it (R168). -/
def actsAtStart (p : HostPins) : Bool := !p.hwe || lockedTarget p.haddr

/-- One clock cycle: at most one host access and at most one decoder step (R167), in the order of R168. -/
def cycle (p : HostPins) (s : State) : Result :=
  if actsAtStart p then andThen (hostTurn p s) decoderTurn
  else andThen (decoderTurn s) (hostTurn p)

end Sys2Proof.Machine
end

