-- ==== Sys2Proof/Machine/Platform.lean ====
section
/-! DEFINITION. Several blocks (00_scope.md rule R6, 60_exceptions.md rule R151; log 15): `NUM_INSTANCES` is the
argument `n`, and the blocks share no state. -/

namespace Sys2Proof.Machine

/-- The blocks of a system of `n` instances. -/
abbrev Platform (n : Nat) := Vector State n

/-- After reset: every block at `State.reset`. DESIGN CHOICE (log 15): each block has a stream of draws of its own, so
that nothing relates what the unwritten entries of two blocks read as. -/
def Platform.reset (n : Nat) : Platform n := Vector.ofFn fun k => { State.reset with stream := k.val }

/-- What a platform's step answers. -/
abbrev PlatformResult (n : Nat) := Host.Outcome (Platform n) Fault Refusal

/-- One step of block `k`. DESIGN CHOICE (log 15): the model fault of one block ends the run of the whole platform; the
spec says only that the faulted state has no further step (60_exceptions.md R143). -/
def platformStep {n : Nat} (k : Fin n) (p : Platform n) : PlatformResult n :=
  match step (p.get k) with
  | .next s => .next (p.set k s)
  | .fault f => .fault f
  | .refused r => .refused r

end Sys2Proof.Machine
end

