-- ==== Sys2Proof/Machine/Ports.lean ====
section
/-! DEFINITION. The output ports, functions of the state (10_state.md rule R33, 60_exceptions.md rule R146). -/

namespace Sys2Proof.Machine

/-- `bit_ready`: the decoder needs a bit. In DESCENDING on an unwritten entry it is a free value (R33, log 6). -/
def State.bitReady (s : State) : Bool :=
  s.walking &&
    match s.nodeRead s.cur with
    | some w => decide (kindOf w = .internal)
    | none => Config.freeBitReady s.stream s.draws

/-- `sym_valid`. -/
def State.symValid (s : State) : Bool := decide (s.state = .emitted)

/-- `sym_data`. -/
def State.symData (s : State) : SymId := s.outsym

/-- `busy_o`. -/
def State.busyO (s : State) : Bool := s.active

/-- `done_o`. -/
def State.doneO (s : State) : Bool := decide (s.state = .done)

/-- `err_o`. -/
def State.errO (s : State) : Bool := decide (s.state = .error)

/-- `hrdata`: what the last host read returned, 0 before any (log 7). -/
def State.hrdata (s : State) : Word := s.reads.getLastD 0#32

end Sys2Proof.Machine
end

