-- ==== Sys2Proof/Safety.lean ====
section
/-! DEFINITION. The terms claims are made in: the invariant of 10_state.md rule R35, the end of a run (00_scope.md
rule R14), a safe run, and a code tree held by node memory (41_decode_steps.md rule R118). -/

namespace Sys2Proof.Safety

open Sys2Proof.Machine

/-- Every register at its reset value, every entry unwritten (10_state.md R36). -/
structure AtReset (s : State) : Prop where
  state  : s.state = .idle
  err    : s.err = .none
  wrbusy : s.wrbusy = false
  cmdign : s.cmdign = false
  badcmd : s.badcmd = false
  root   : s.root = 0#10
  eos    : s.eos = 256#9
  cur    : s.cur = 0#10
  bitcnt : s.bitcnt = 0#32
  symcnt : s.symcnt = 0#32
  outsym : s.outsym = 0#9
  nodes  : s.nodes = []

/-- What holds in every reachable state: 10_state.md R35 (a) to (e), node memory in its canonical form, and the reset
values while `rst = 1` (70_reset_and_hazards.md R155). -/
structure BlockInv (s : State) : Prop where
  memory       : Memory.wf s.nodes = true
  errIffError  : s.err ≠ .none ↔ s.state = .error
  atRoot       : s.state = .atRoot → s.cur = s.root
  rootInternal : s.active = true → ∃ w, s.nodeRead s.root = some w ∧ kindOf w = .internal
  offered      : s.state = .emitted → s.outsym.toNat < s.eos.toNat
  inReset      : s.rst = true → AtReset s

/-- The run of a session has ended (R14): DONE or ERROR. -/
def Ended (s : State) : Prop := s.terminal = true

/-- A safe run of `n` steps: none of them faults or is refused. -/
def SafeRun (n : Nat) (s : State) : Prop := ∃ t, Host.Core.run core n s = .next t

/-- Node memory holds the tree at an index, whatever index each entry sits at (41_decode_steps.md R121). -/
def Holds (s : State) (i : Index) : CodeTree → Prop
  | .missing => ∃ w, s.nodeRead i = some w ∧ missingKind (kindOf w) = true
  | .leaf sym => ∃ w, s.nodeRead i = some w ∧ kindOf w = .leaf ∧ symOf w = sym
  | .node l r =>
    ∃ w, s.nodeRead i = some w ∧ kindOf w = .internal ∧ Holds s (leftOf w) l ∧ Holds s (rightOf w) r

/-- `path` is a root-to-leaf code string of a leaf of `sym`: '0' left, '1' right (00_scope.md R10). -/
inductive IsCode : CodeTree → List Bool → SymId → Prop where
  | leaf (sym : SymId) : IsCode (.leaf sym) [] sym
  | left {l r : CodeTree} {path : List Bool} {sym : SymId} : IsCode l path sym → IsCode (.node l r) (false :: path) sym
  | right {l r : CodeTree} {path : List Bool} {sym : SymId} : IsCode r path sym → IsCode (.node l r) (true :: path) sym

/-- The beat of a bit (30_encoding.md R63). -/
def bitBeat (b : Bool) : BeatPins := { eof := false, valid := true, data := b }

/-- The beat of an exhausted source (30_encoding.md R63). -/
def eofBeat : BeatPins := { eof := true, valid := false, data := false }

/-- The bits among the samples a source has yet to show. -/
def bitsOf (beats : List BeatPins) : List Bool :=
  beats.filterMap fun p => if p.valid then some p.data else none

/-- The next move is the decoder's, and `rest` are the moves after it (logs 1, 2). -/
def DecoderMoves (s : State) (rest : List Turn) : Prop :=
  s.turns = .decoder :: rest ∨ (s.turns = [] ∧ rest = [])

/-- The next move is the host access `p`, and `rest` are the moves after it. -/
def HostMoves (s : State) (p : HostPins) (rest : List Turn) : Prop := s.turns = .host p :: rest

/-- The next move is no level on the reset pin. -/
def NoResetMove (s : State) : Prop := ∀ level rest, s.turns ≠ .rst level :: rest

/-- The instruction of the host access that is the next move: none while `rst = 1`, with `hsel = 0`, or when another
agent moves (30_encoding.md R66). -/
def pendingAccess (s : State) : Option Instr :=
  match s.turns with
  | .host p :: _ => if p.hsel && !s.rst then some (decodeBus p.hwe p.haddr p.hwdata) else none
  | _ => none

/-- The next move writes a command word with that opcode. -/
def CommandMoves (s : State) (op : BitVec 4) : Prop :=
  ∃ d : Word, pendingAccess s = some (.wrCmd d) ∧ d.extractLsb' 0 4 = op

/-- Every accepted symbol has cost a bit of its own, and so has the one being walked to or offered (41_decode_steps.md
R116). -/
def SymbolsPaid (s : State) : Prop :=
  s.out.length + (if s.state = .descending ∨ s.state = .emitted then 1 else 0) ≤ s.taken.length

/-- Two states that differ at most in where the entries of one and the same tree sit (41_decode_steps.md R121). -/
structure SameTree (s t : State) : Prop where
  state  : t.state = s.state
  err    : t.err = s.err
  wrbusy : t.wrbusy = s.wrbusy
  cmdign : t.cmdign = s.cmdign
  badcmd : t.badcmd = s.badcmd
  eos    : t.eos = s.eos
  bitcnt : t.bitcnt = s.bitcnt
  symcnt : t.symcnt = s.symcnt
  outsym : t.outsym = s.outsym
  rst    : t.rst = s.rst
  turns  : t.turns = s.turns
  beats  : t.beats = s.beats
  ready  : t.ready = s.ready
  taken  : t.taken = s.taken
  out    : t.out = s.out
  root   : ∃ tree, Holds s s.root tree ∧ Holds t t.root tree
  cur    : s.walking = true → ∃ tree, Holds s s.cur tree ∧ Holds t t.cur tree

end Sys2Proof.Safety
end

