-- ==== Sys2Proof/Certificates/Slice0/Obligations.lean ====
section
/-! DEFINITION. The statements for the provers. Each names the rule of spec/ it formalises. Where a statement names
`taken`, `out` or `reads` it speaks of the record of what a claim observes (00_scope.md R13; log 7). -/

open Sys2Proof Sys2Proof.Machine Sys2Proof.Safety

/-! Reset. -/

/-- 10_state.md R36: the value of every register, entry and output after reset. -/
def Obligations.ResetValues : Prop :=
  State.reset.state = .idle ∧ State.reset.err = .none
  ∧ State.reset.wrbusy = false ∧ State.reset.cmdign = false ∧ State.reset.badcmd = false
  ∧ State.reset.root = 0#10 ∧ State.reset.eos = 0x100#9 ∧ State.reset.cur = 0#10
  ∧ State.reset.bitcnt = 0#32 ∧ State.reset.symcnt = 0#32 ∧ State.reset.outsym = 0#9
  ∧ (∀ i : Index, State.reset.written i = false)
  ∧ State.reset.bitReady = false ∧ State.reset.symValid = false ∧ State.reset.symData = 0#9
  ∧ State.reset.busyO = false ∧ State.reset.doneO = false ∧ State.reset.errO = false

/-- 70_reset_and_hazards.md R155, R156: asserting `rst`, and releasing it, gives every register its reset value and
unwrites every entry, whatever the state; the beats offered stay with the source and the accepted symbols stay
accepted. While `rst = 1` the decoder has no step, host reads return 0 and host writes have no effect. How the pin is
moved is the model's (log 8). -/
def Obligations.ResetPin : Prop :=
  (∀ (s : State) (level : Bool) (rest : List Turn),
    s.turns = .rst level :: rest → (level = true ∨ s.rst = true) →
    step s = .next
      { s with
        state := .idle, err := .none, wrbusy := false, cmdign := false, badcmd := false, root := 0#10, eos := 256#9,
        cur := 0#10, bitcnt := 0#32, symcnt := 0#32, outsym := 0#9, nodes := [], rst := level, turns := rest })
  ∧ (∀ (s : State) (rest : List Turn), s.rst = true → DecoderMoves s rest → step s = .next { s with turns := rest })
  ∧ (∀ (s : State) (p : HostPins) (rest : List Turn), s.rst = true → HostMoves s p rest → p.hsel = true →
    (p.hwe = false → step s = .next { s with turns := rest, reads := s.reads ++ [0#32] })
    ∧ (p.hwe = true → step s = .next { s with turns := rest }))

/-- The invariant holds after reset. -/
def Obligations.InvariantAtReset : Prop := BlockInv State.reset

/-- 10_state.md R35 (a) to (e): every step of every agent keeps the invariant. -/
def Obligations.StepKeepsInvariant : Prop :=
  ∀ s t : State, BlockInv s → step s = .next t → BlockInv t

/-- 10_state.md R35 (f), 20_memory.md R45, R50: while a session is active no move but a reset changes ROOT, EOS or any
entry. -/
def Obligations.ActiveSessionKeepsTree : Prop :=
  ∀ s t : State, s.active = true → NoResetMove s → step s = .next t →
    t.root = s.root ∧ t.eos = s.eos ∧ ∀ i : Index, t.nodeRead i = s.nodeRead i

/-! Encodings. -/

/-- Decoding the words the encoder gives for a well-formed instruction gives the instruction back. -/
def Obligations.DecodeOfEncode : Prop :=
  ∀ i : Instr, WellFormed i = true → decodeEncoded (encode i) = .instr i

/-- Every word that decodes is the word of the instruction it decodes to, reserved and ignored bits included, and
decoding gives well-formed instructions only; a number too wide for its format is rejected. -/
def Obligations.EncodeOfDecode : Prop :=
  ∀ (f : Format) (w : Nat) (d : Word) (r : SymRel),
    (w < 2 ^ f.width →
      ∃ i, decode f w d r = .instr i ∧ WellFormed i = true ∧ (encode i).fmt = f ∧ (encode i).word = w)
    ∧ (2 ^ f.width ≤ w → decode f w d r = .rejected (.widerThan f))

/-- 30_encoding.md R72, R63, R67 and spec/opcode_table.json: words written out from the spec's encodings. -/
def Obligations.SpecWordsDecode : Prop :=
  decode .node 0x40000801 0#32 .isEos = .instr (.internal 0#10 2#10 1#10)
  ∧ decode .node 0x40001003 0#32 .isEos = .instr (.internal 0#10 4#10 3#10)
  ∧ decode .node 0x80000004 0#32 .isEos = .instr (.leaf 0#21 4#9)
  ∧ decode .node 0x80000100 0#32 .isEos = .instr (.leaf 0#21 256#9)
  ∧ decode .node 0x00000000 0#32 .isEos = .instr (.empty 0#30)
  ∧ decode .bus 0x800 0x00000001#32 .isEos = .instr (.wrCmd 1#32)
  ∧ decode .bus 0xC05 0x80000001#32 .isEos = .instr (.wrNode 5#10 0x80000001#32)
  ∧ decode .bus 0x001 0#32 .isEos = .instr .rdStatus
  ∧ decode .cmd 0x00000011 0#32 .isEos = .instr (.start 1#28)
  ∧ decode .beat 0b111 0#32 .isEos = .instr (.bit1 true)
  ∧ decode .step 0b01010 0#32 .isEos = .instr (.stepBit0 false)
  ∧ decode .step 0b11000 0#32 .isEos = .instr (.stepBadnode .reserved ⟨false, false, false⟩)
  ∧ decode .sink 1 0#32 .isEos = .instr .stepEmit

/-- 30_encoding.md R67: the operation of each of the 4096 patterns of `{hwe, haddr}`. -/
def Obligations.BusDecodeTable : Prop :=
  ∀ d : Word,
    decodeBus true 0x000#11 d = .wrCmd d ∧ decodeBus false 0x000#11 d = .rdCmd
    ∧ decodeBus false 0x001#11 d = .rdStatus ∧ decodeBus true 0x001#11 d = .wrStatus d
    ∧ decodeBus false 0x002#11 d = .rdRoot ∧ decodeBus true 0x002#11 d = .wrRoot d
    ∧ decodeBus false 0x003#11 d = .rdEos ∧ decodeBus true 0x003#11 d = .wrEos d
    ∧ decodeBus false 0x004#11 d = .rdCur ∧ decodeBus true 0x004#11 d = .wrCur d
    ∧ decodeBus false 0x005#11 d = .rdBitcnt ∧ decodeBus true 0x005#11 d = .wrBitcnt d
    ∧ decodeBus false 0x006#11 d = .rdSymcnt ∧ decodeBus true 0x006#11 d = .wrSymcnt d
    ∧ (∀ a : HostAddr, 0x007 ≤ a.toNat → a.toNat ≤ 0x3FF →
        decodeBus false a d = .rdUnmapped a ∧ decodeBus true a d = .wrUnmapped a d)
    ∧ (∀ a : HostAddr, 0x400 ≤ a.toNat →
        decodeBus false a d = .rdNode (a.extractLsb' 0 10) ∧ decodeBus true a d = .wrNode (a.extractLsb' 0 10) d)

/-- 30_encoding.md R54 to R57: the kind `w[31:30]` and the fields of an entry. -/
def Obligations.NodeFields : Prop :=
  ∀ w : Word,
    (w.extractLsb' 30 2 = 0b00#2 → decodeNode w = .empty (w.extractLsb' 0 30))
    ∧ (w.extractLsb' 30 2 = 0b01#2 →
        decodeNode w = .internal (w.extractLsb' 20 10) (w.extractLsb' 10 10) (w.extractLsb' 0 10))
    ∧ (w.extractLsb' 30 2 = 0b10#2 → decodeNode w = .leaf (w.extractLsb' 9 21) (w.extractLsb' 0 9))
    ∧ (w.extractLsb' 30 2 = 0b11#2 → decodeNode w = .reserved (w.extractLsb' 0 30))

/-- 30_encoding.md R59, R60, R63, R64: the opcodes, whatever `d[31:4]` holds, and the beats, a bit whenever
`bit_valid = 1`. -/
def Obligations.CommandAndBeatTables : Prop :=
  (∀ rsv : BitVec 28, decodeCmd (rsv ++ 0x0#4) = .nop rsv ∧ decodeCmd (rsv ++ 0x1#4) = .start rsv
    ∧ decodeCmd (rsv ++ 0x2#4) = .abort rsv ∧ decodeCmd (rsv ++ 0x3#4) = .clrf rsv
    ∧ ∀ op : BitVec 4, 4 ≤ op.toNat → decodeCmd (rsv ++ op) = .cmdReserved rsv op)
  ∧ (∀ x : Bool, decodeBeat ⟨x, true, false⟩ = .bit0 x ∧ decodeBeat ⟨x, true, true⟩ = .bit1 x
    ∧ decodeBeat ⟨true, false, x⟩ = .eof x ∧ decodeBeat ⟨false, false, x⟩ = .stall x)

/-! A step runs the decoded instruction. -/

/-- 00_scope.md R9, 30_encoding.md R66: a host access with `hsel = 1` runs the instruction it decodes to, at the state
with the access used up; with `hsel = 0` it is no access. -/
def Obligations.HostMoveRunsDecoded : Prop :=
  ∀ (s : State) (p : HostPins) (rest : List Turn), s.rst = false → HostMoves s p rest →
    (p.hsel = true → step s = exec (decodeBus p.hwe p.haddr p.hwdata) { s with turns := rest })
    ∧ (p.hsel = false → step s = .next { s with turns := rest })

/-- 41_decode_steps.md R102, R104: a decoder move runs the STEP instruction decoded from the kind of NODE[CUR], the
beat offered and the leaf's symbol against EOS, and in EMITTED the SINK instruction decoded from `sym_ready`; on an
unwritten NODE[CUR] it faults. -/
def Obligations.DecoderMoveRunsDecoded : Prop :=
  ∀ (s : State) (rest : List Turn), s.rst = false → DecoderMoves s rest →
    (s.walking = true →
      (∀ w, s.nodeRead s.cur = some w →
        step s = exec (decodeStep (kindOf w) s.offered (symRel (symOf w) s.eos)) { s with turns := rest })
      ∧ (s.nodeRead s.cur = none → step s = .fault .uninitNode))
    ∧ (s.state = .emitted → step s = exec (decodeSink s.symReady) { s with turns := rest })

/-- 30_encoding.md R54: the same decoder move runs the NODE instruction that NODE[CUR] decodes to, and at an INTERNAL
entry the BEAT instruction that the beat offered decodes to (log 10). -/
def Obligations.EntryAndBeatViewsAgree : Prop :=
  ∀ (s : State) (rest : List Turn) (w : Word), s.rst = false → DecoderMoves s rest → s.walking = true →
    s.nodeRead s.cur = some w →
    step s = exec (decodeNode w) { s with turns := rest }
    ∧ (kindOf w = .internal → step s = exec (decodeBeat s.offered) { s with turns := rest })

/-- 41_decode_steps.md R103: in IDLE, DONE and ERROR the decoder has no step, and of all moves but a reset only the
commands START and ABORT leave those states. -/
def Obligations.NoDecoderStepOutsideSession : Prop :=
  (∀ (s : State) (rest : List Turn), (s.state = .idle ∨ s.state = .done ∨ s.state = .error) → DecoderMoves s rest →
    step s = .next { s with turns := rest })
  ∧ (∀ s t : State, (s.state = .idle ∨ s.state = .done ∨ s.state = .error) → NoResetMove s → step s = .next t →
    t.state ≠ s.state → CommandMoves s 0x1#4 ∨ CommandMoves s 0x2#4)

/-! Host reads. -/

/-- 40_host_ops.md R74 to R77, 10_state.md R19 to R21: the access that reads CMD, STATUS, ROOT and EOS, what it returns,
and that it changes nothing. -/
def Obligations.ReadsOfCmdStatusRootEos : Prop :=
  (∀ d : Word, decodeBus false 0x000#11 d = .rdCmd ∧ decodeBus false 0x001#11 d = .rdStatus
    ∧ decodeBus false 0x002#11 d = .rdRoot ∧ decodeBus false 0x003#11 d = .rdEos)
  ∧ ∀ s : State,
    exec .rdCmd s = .next { s with reads := s.reads ++ [0x00000000#32] }
    ∧ (∃ v : Word, exec .rdStatus s = .next { s with reads := s.reads ++ [v] }
        ∧ v.extractLsb' 0 3 = stateBits s.state ∧ v.getLsbD 3 = false
        ∧ v.extractLsb' 4 3 = errBits s.err ∧ v.getLsbD 7 = false
        ∧ v.getLsbD 8 = s.wrbusy ∧ v.getLsbD 9 = s.cmdign ∧ v.getLsbD 10 = s.badcmd
        ∧ v.extractLsb' 11 21 = 0#21)
    ∧ exec .rdRoot s = .next { s with reads := s.reads ++ [s.root.setWidth 32] }
    ∧ exec .rdEos s = .next { s with reads := s.reads ++ [s.eos.setWidth 32] }

/-- 40_host_ops.md R78 to R80: the access that reads CUR, BITCNT and SYMCNT, what it returns, and that it changes
nothing. -/
def Obligations.ReadsOfCurAndCounters : Prop :=
  (∀ d : Word, decodeBus false 0x004#11 d = .rdCur ∧ decodeBus false 0x005#11 d = .rdBitcnt
    ∧ decodeBus false 0x006#11 d = .rdSymcnt)
  ∧ ∀ s : State,
    exec .rdCur s = .next { s with reads := s.reads ++ [s.cur.setWidth 32] }
    ∧ exec .rdBitcnt s = .next { s with reads := s.reads ++ [s.bitcnt] }
    ∧ exec .rdSymcnt s = .next { s with reads := s.reads ++ [s.symcnt] }

/-- 10_state.md R20, R21: the values of STATE and ERR as STATUS shows them. -/
def Obligations.StateAndErrValues : Prop :=
  stateBits .idle = 0#3 ∧ stateBits .atRoot = 1#3 ∧ stateBits .descending = 2#3 ∧ stateBits .emitted = 3#3
  ∧ stateBits .done = 4#3 ∧ stateBits .error = 5#3
  ∧ errBits .none = 0#3 ∧ errBits .exhausted = 1#3 ∧ errBits .badNode = 2#3 ∧ errBits .badSym = 3#3
  ∧ errBits .badRoot = 4#3

/-- 40_host_ops.md R88: a written entry reads back whole, in every state; an unwritten one returns a value the model
leaves free, a fresh draw for each read, and never faults. THE MODEL'S CHOICE (log 5): how the draws are numbered, by the
counter `draws` of the stream `stream`, and that the read advances the counter by one. -/
def Obligations.ReadOfNode : Prop :=
  (∀ (a : HostAddr) (d : Word), 0x400 ≤ a.toNat → decodeBus false a d = .rdNode (a.extractLsb' 0 10))
  ∧ ∀ (i : Index) (s : State),
    (∀ w, s.nodeRead i = some w → exec (.rdNode i) s = .next { s with reads := s.reads ++ [w] })
    ∧ (s.nodeRead i = none →
        exec (.rdNode i) s = .next { s with reads := s.reads ++ [Config.freeWord s.stream s.draws], draws := s.draws + 1 })

/-- 40_host_ops.md R90, R91, 20_memory.md R42: the unmapped addresses read 0 and ignore writes, in every state. -/
def Obligations.UnmappedAddresses : Prop :=
  ∀ (a : HostAddr) (d : Word) (s : State), 0x007 ≤ a.toNat → a.toNat ≤ 0x3FF →
    exec (decodeBus false a d) s = .next { s with reads := s.reads ++ [0x00000000#32] }
    ∧ exec (decodeBus true a d) s = .next s
    ∧ exec (.rdUnmapped a) s = .next { s with reads := s.reads ++ [0x00000000#32] }
    ∧ exec (.wrUnmapped a d) s = .next s

/-- 20_memory.md R43, 40_host_ops.md R73: a host read changes no register, no entry and no flag, and takes no beat,
and it never fails. It may advance `draws`, the model's count of free values (log 5). -/
def Obligations.HostReadsHaveNoSideEffect : Prop :=
  ∀ (a : HostAddr) (d : Word) (s : State),
    ∃ (v : Word) (n : Nat), exec (decodeBus false a d) s = .next { s with reads := s.reads ++ [v], draws := n }

/-! Host writes. -/

/-- 40_host_ops.md R82 with R81: a ROOT write. -/
def Obligations.WriteOfRoot : Prop :=
  ∀ (d : Word) (s : State),
    decodeBus true 0x002#11 d = .wrRoot d
    ∧ (s.active = false → exec (.wrRoot d) s = .next { s with root := d.extractLsb' 0 10 })
    ∧ (s.active = true → exec (.wrRoot d) s = .next { s with wrbusy := true })

/-- 40_host_ops.md R83 with R81: an EOS write. -/
def Obligations.WriteOfEos : Prop :=
  ∀ (d : Word) (s : State),
    decodeBus true 0x003#11 d = .wrEos d
    ∧ (s.active = false → exec (.wrEos d) s = .next { s with eos := d.extractLsb' 0 9 })
    ∧ (s.active = true → exec (.wrEos d) s = .next { s with wrbusy := true })

/-- 40_host_ops.md R89 with R81: a NODE write stores all 32 bits and marks the entry written; every other entry reads
as before, and nothing else changes. -/
def Obligations.WriteOfNode : Prop :=
  ∀ (i : Index) (d : Word) (s : State),
    (∀ a : HostAddr, 0x400 ≤ a.toNat → decodeBus true a d = .wrNode (a.extractLsb' 0 10) d)
    ∧ (s.active = false →
      ∃ t : State, exec (.wrNode i d) s = .next t ∧ t = { s with nodes := t.nodes }
        ∧ t.nodeRead i = some d ∧ t.written i = true ∧ ∀ j : Index, j ≠ i → t.nodeRead j = s.nodeRead j)
    ∧ (s.active = true → exec (.wrNode i d) s = .next { s with wrbusy := true })

/-- 40_host_ops.md R84 to R87: writes to the read-only registers STATUS, CUR, BITCNT and SYMCNT have no effect, in every
state. -/
def Obligations.ReadOnlyRegistersIgnoreWrites : Prop :=
  ∀ (d : Word) (s : State),
    decodeBus true 0x001#11 d = .wrStatus d ∧ decodeBus true 0x004#11 d = .wrCur d
    ∧ decodeBus true 0x005#11 d = .wrBitcnt d ∧ decodeBus true 0x006#11 d = .wrSymcnt d
    ∧ exec (.wrStatus d) s = .next s ∧ exec (.wrCur d) s = .next s
    ∧ exec (.wrBitcnt d) s = .next s ∧ exec (.wrSymcnt d) s = .next s

/-- 40_host_ops.md R92: a CMD write performs the command `d[3:0]` at once, whatever `d[31:4]` holds. -/
def Obligations.CmdWriteDispatch : Prop :=
  ∀ (d : Word) (s : State),
    decodeBus true 0x000#11 d = .wrCmd d
    ∧ (d.extractLsb' 0 4 = 0x0#4 → exec (.wrCmd d) s = .next s)
    ∧ (d.extractLsb' 0 4 = 0x1#4 → ∀ rsv, exec (.wrCmd d) s = exec (.start rsv) s)
    ∧ (d.extractLsb' 0 4 = 0x2#4 → exec (.wrCmd d) s = .next { s with state := .idle, err := .none })
    ∧ (d.extractLsb' 0 4 = 0x3#4 →
        exec (.wrCmd d) s = .next { s with wrbusy := false, cmdign := false, badcmd := false })
    ∧ (4 ≤ (d.extractLsb' 0 4).toNat → exec (.wrCmd d) s = .next { s with badcmd := true })

/-! Commands. -/

/-- 40_host_ops.md R93, R97, R98: NOP, CLRF and the reserved opcodes, in every state, and the CMD writes that perform
them. -/
def Obligations.NopClrfReserved : Prop :=
  ∀ (rsv : BitVec 28) (op : BitVec 4) (s : State),
    (∀ d : Word,
      (d.extractLsb' 0 4 = 0x0#4 → exec (.wrCmd d) s = exec (.nop rsv) s)
      ∧ (d.extractLsb' 0 4 = 0x3#4 → exec (.wrCmd d) s = exec (.clrf rsv) s)
      ∧ (4 ≤ op.toNat → d.extractLsb' 0 4 = op → exec (.wrCmd d) s = exec (.cmdReserved rsv op) s))
    ∧ exec (.nop rsv) s = .next s
    ∧ exec (.clrf rsv) s = .next { s with wrbusy := false, cmdign := false, badcmd := false }
    ∧ (4 ≤ op.toNat → exec (.cmdReserved rsv op) s = .next { s with badcmd := true })

/-- 40_host_ops.md R94: START when no session is active. -/
def Obligations.StartBeginsSession : Prop :=
  ∀ (rsv : BitVec 28) (s : State), s.active = false →
    (∀ d : Word, d.extractLsb' 0 4 = 0x1#4 → exec (.wrCmd d) s = exec (.start rsv) s)
    ∧ (∀ w, s.nodeRead s.root = some w → w.extractLsb' 30 2 = 0b01#2 →
      exec (.start rsv) s =
        .next { s with err := .none, bitcnt := 0#32, symcnt := 0#32, cur := s.root, state := .atRoot })
    ∧ (∀ w, s.nodeRead s.root = some w → w.extractLsb' 30 2 ≠ 0b01#2 →
      exec (.start rsv) s =
        .next { s with err := .badRoot, bitcnt := 0#32, symcnt := 0#32, cur := s.root, state := .error })
    ∧ (s.nodeRead s.root = none → exec (.start rsv) s = .fault .uninitNode)

/-- 40_host_ops.md R95: START while a session is active. -/
def Obligations.StartIgnoredWhileActive : Prop :=
  ∀ (rsv : BitVec 28) (s : State), s.active = true →
    (∀ d : Word, d.extractLsb' 0 4 = 0x1#4 → exec (.wrCmd d) s = exec (.start rsv) s)
    ∧ exec (.start rsv) s = .next { s with cmdign := true }

/-- 40_host_ops.md R96: ABORT, in every state: STATE and ERR, and nothing else. The offered symbol is withdrawn. -/
def Obligations.AbortDiscardsSession : Prop :=
  ∀ (rsv : BitVec 28) (s : State),
    (∀ d : Word, d.extractLsb' 0 4 = 0x2#4 → exec (.wrCmd d) s = exec (.abort rsv) s)
    ∧ exec (.abort rsv) s = .next { s with state := .idle, err := .none }
    ∧ ∀ t, exec (.abort rsv) s = .next t → t.symValid = false

/-! Decoder steps. In these statements the samples the environment has left after a step that saw one are not said,
but for a bit that was taken (log 3); `SampleUse` says the model's choice. An instruction stands for its own beat or
`sym_ready`, whatever sample is offered (the model's choice, log 9); `DecoderMoveRunsDecoded` says that the decoder's
move runs only the one decoded from the sample offered. -/

/-- 41_decode_steps.md R106: BIT0 and BIT1, with `bit_eof` either way. -/
def Obligations.BitSteps : Prop :=
  ∀ (e : Bool) (w : Word) (s : State), s.walking = true → s.nodeRead s.cur = some w → w.extractLsb' 30 2 = 0b01#2 →
    (∀ r, decodeStep (kindOf w) ⟨e, true, false⟩ r = .stepBit0 e ∧ decodeStep (kindOf w) ⟨e, true, true⟩ r = .stepBit1 e)
    ∧ exec (.stepBit0 e) s =
      .next { s with cur := w.extractLsb' 0 10, bitcnt := s.bitcnt + 1#32, state := .descending,
                     beats := s.beats.tail, taken := s.taken ++ [false] }
    ∧ exec (.stepBit1 e) s =
      .next { s with cur := w.extractLsb' 10 10, bitcnt := s.bitcnt + 1#32, state := .descending,
                     beats := s.beats.tail, taken := s.taken ++ [true] }

/-- 41_decode_steps.md R105, R107: STALL, after which `bit_ready` is still 1, and EXHAUST, at an internal node. -/
def Obligations.StallAndExhaustSteps : Prop :=
  ∀ (b : Bool) (w : Word) (s : State), s.walking = true → s.nodeRead s.cur = some w → w.extractLsb' 30 2 = 0b01#2 →
    (∀ r, decodeStep (kindOf w) ⟨false, false, b⟩ r = .stepStall b
      ∧ decodeStep (kindOf w) ⟨true, false, b⟩ r = .stepExhaust b)
    ∧ (∃ bs, exec (.stepStall b) s = .next { s with beats := bs } ∧ ({ s with beats := bs } : State).bitReady = true)
    ∧ ∃ bs, exec (.stepExhaust b) s = .next { s with state := .error, err := .exhausted, beats := bs }

/-- 41_decode_steps.md R108 to R110: the three steps at a leaf, whatever beat is offered: none is taken. -/
def Obligations.LeafSteps : Prop :=
  ∀ (p : BeatPins) (w : Word) (s : State), s.walking = true → s.nodeRead s.cur = some w → w.extractLsb' 30 2 = 0b10#2 →
    ((w.extractLsb' 0 9).toNat = s.eos.toNat →
        decodeStep (kindOf w) p (symRel (w.extractLsb' 0 9) s.eos) = .stepLeafEos p
        ∧ exec (.stepLeafEos p) s = .next { s with state := .done })
    ∧ ((w.extractLsb' 0 9).toNat < s.eos.toNat →
        decodeStep (kindOf w) p (symRel (w.extractLsb' 0 9) s.eos) = .stepLeafData p
        ∧ exec (.stepLeafData p) s = .next { s with outsym := w.extractLsb' 0 9, state := .emitted })
    ∧ (s.eos.toNat < (w.extractLsb' 0 9).toNat →
        decodeStep (kindOf w) p (symRel (w.extractLsb' 0 9) s.eos) = .stepLeafBadsym p
        ∧ exec (.stepLeafBadsym p) s = .next { s with state := .error, err := .badSym })

/-- 41_decode_steps.md R111: BADNODE at an EMPTY or RESERVED entry, whatever beat is offered: none is taken. -/
def Obligations.BadNodeStep : Prop :=
  ∀ (p : BeatPins) (w : Word) (s : State), s.walking = true → s.nodeRead s.cur = some w →
    (w.extractLsb' 30 2 = 0b00#2 →
      (∀ r, decodeStep (kindOf w) p r = .stepBadnode .empty p)
      ∧ exec (.stepBadnode .empty p) s = .next { s with state := .error, err := .badNode })
    ∧ (w.extractLsb' 30 2 = 0b11#2 →
      (∀ r, decodeStep (kindOf w) p r = .stepBadnode .reserved p)
      ∧ exec (.stepBadnode .reserved p) s = .next { s with state := .error, err := .badNode })

/-- 41_decode_steps.md R112, R113: EMIT (`sym_ready = 1`) and EMIT_HOLD (`sym_ready = 0`). The sink receives OUTSYM
once. -/
def Obligations.EmitSteps : Prop :=
  ∀ s : State, s.state = .emitted →
    decodeSink true = .stepEmit ∧ decodeSink false = .stepEmitHold
    ∧ (∃ rs, exec .stepEmit s =
      .next { s with symcnt := s.symcnt + 1#32, cur := s.root, state := .atRoot, out := s.out ++ [s.outsym],
                     ready := rs })
    ∧ ∃ rs, exec .stepEmitHold s = .next { s with ready := rs }

/-- THE MODEL'S CHOICE (log 3): a step that needs a bit uses up the sample it sees, Stall and Eof included, and a step
in EMITTED uses up the sink's sample. -/
def Obligations.SampleUse : Prop :=
  ∀ (s t : State) (rest : List Turn), s.rst = false → DecoderMoves s rest → step s = .next t →
    (s.bitReady = true → s.written s.cur = true → t.beats = s.beats.tail) ∧ (s.bitReady = false → t.beats = s.beats)
    ∧ (s.symValid = true → t.ready = s.ready.tail) ∧ (s.symValid = false → t.ready = s.ready)

/-- 30_encoding.md R54 to R57, R63: what the walk does on reaching an entry, by the NODE instruction. THE MODEL'S CHOICE
(logs 9, 10): the NODE instruction is a view of the decoder's step that takes its own fields as the entry reached,
whatever NODE[CUR] holds; `EntryAndBeatViewsAgree` says what it is where NODE[CUR] is that entry. -/
def Obligations.EntriesReached : Prop :=
  ∀ (s : State), s.walking = true →
    (∀ rsv : BitVec 30,
      exec (.empty rsv) s = .next { s with state := .error, err := .badNode }
      ∧ exec (.reserved rsv) s = .next { s with state := .error, err := .badNode })
    ∧ (∀ (rsv : BitVec 21) (sym : SymId),
      (sym = s.eos → exec (.leaf rsv sym) s = .next { s with state := .done })
      ∧ (sym.toNat < s.eos.toNat → exec (.leaf rsv sym) s = .next { s with outsym := sym, state := .emitted })
      ∧ (s.eos.toNat < sym.toNat → exec (.leaf rsv sym) s = .next { s with state := .error, err := .badSym }))
    ∧ (∀ (rsv : BitVec 10) (right left : Index),
      (s.offered.valid = true → s.offered.data = false →
        exec (.internal rsv right left) s =
          .next { s with cur := left, bitcnt := s.bitcnt + 1#32, state := .descending,
                         beats := s.beats.tail, taken := s.taken ++ [false] })
      ∧ (s.offered.valid = true → s.offered.data = true →
        exec (.internal rsv right left) s =
          .next { s with cur := right, bitcnt := s.bitcnt + 1#32, state := .descending,
                         beats := s.beats.tail, taken := s.taken ++ [true] })
      ∧ (s.offered.valid = false → s.offered.eof = true →
        ∃ bs, exec (.internal rsv right left) s = .next { s with state := .error, err := .exhausted, beats := bs })
      ∧ (s.offered.valid = false → s.offered.eof = false →
        ∃ bs, exec (.internal rsv right left) s = .next { s with beats := bs }))

/-- 30_encoding.md R63: what each beat does at a step that needs a bit, by the BEAT instruction, the model's view of that
step (log 10). -/
def Obligations.BeatsSeen : Prop :=
  ∀ (x : Bool) (w : Word) (s : State), s.walking = true → s.nodeRead s.cur = some w → w.extractLsb' 30 2 = 0b01#2 →
    exec (.bit0 x) s =
      .next { s with cur := w.extractLsb' 0 10, bitcnt := s.bitcnt + 1#32, state := .descending,
                     beats := s.beats.tail, taken := s.taken ++ [false] }
    ∧ exec (.bit1 x) s =
      .next { s with cur := w.extractLsb' 10 10, bitcnt := s.bitcnt + 1#32, state := .descending,
                     beats := s.beats.tail, taken := s.taken ++ [true] }
    ∧ (∃ bs, exec (.eof x) s = .next { s with state := .error, err := .exhausted, beats := bs })
    ∧ ∃ bs, exec (.stall x) s = .next { s with beats := bs }

/-- THE MODEL'S CHOICE (log 9), three cases in which `exec` changes nothing: an instruction of the formats NODE, BEAT and
STEP outside AT_ROOT and DESCENDING, one of the format SINK outside EMITTED, and one of the format BEAT where NODE[CUR]
is written and not INTERNAL. It says nothing of the other cases in which the decoder has no such step (a STEP
instruction at an entry of another kind, a beat or `sym_ready` that is not the one offered). -/
def Obligations.WrongStateOrBeatOffInternalHolds : Prop :=
  ∀ (i : Instr) (s : State),
    ((encode i).fmt = .node ∨ (encode i).fmt = .beat ∨ (encode i).fmt = .step → s.walking = false →
      exec i s = .next s)
    ∧ ((encode i).fmt = .sink → s.state ≠ .emitted → exec i s = .next s)
    ∧ (∀ w, s.nodeRead s.cur = some w → kindOf w ≠ .internal → (encode i).fmt = .beat → exec i s = .next s)

/-! Faults and errors. -/

/-- 60_exceptions.md R143, 41_decode_steps.md R104, 40_host_ops.md R73: no step is ever refused; a step faults only
with UNINIT_NODE, and exactly where the decoder is to examine an unwritten entry or START finds ROOT unwritten. -/
def Obligations.FaultsExactlyOnUnwritten : Prop :=
  ∀ s : State,
    (∀ r, step s ≠ .refused r)
    ∧ (∀ f, step s = .fault f ↔
        f = .uninitNode ∧ s.rst = false
        ∧ ((∃ rest, DecoderMoves s rest ∧ s.walking = true ∧ s.written s.cur = false)
          ∨ (CommandMoves s 0x1#4 ∧ s.active = false ∧ s.written s.root = false)))

/-- 60_exceptions.md R139, R140: every way into ERROR sets a code of R21 and leaves every other register, every entry
and what the sink has accepted as they were, but for what START itself has set. -/
def Obligations.ErrorsArePrecise : Prop :=
  ∀ s t : State, step s = .next t → t.state = .error → s.state ≠ .error →
    t.err ≠ .none ∧ t.wrbusy = s.wrbusy ∧ t.cmdign = s.cmdign ∧ t.badcmd = s.badcmd ∧ t.root = s.root ∧ t.eos = s.eos
    ∧ t.outsym = s.outsym ∧ t.nodes = s.nodes ∧ t.taken = s.taken ∧ t.out = s.out
    ∧ ((t.err = .badRoot ∧ t.cur = s.root ∧ t.bitcnt = 0#32 ∧ t.symcnt = 0#32 ∧ CommandMoves s 0x1#4)
      ∨ (t.err ≠ .badRoot ∧ t.cur = s.cur ∧ t.bitcnt = s.bitcnt ∧ t.symcnt = s.symcnt ∧ s.walking = true))

/-! What may change a register: statements over every move of every agent. -/

/-- 10_state.md R17: the only ways CUR changes. -/
def Obligations.CurChangesOnlyBy : Prop :=
  ∀ s t : State, NoResetMove s → step s = .next t → t.cur ≠ s.cur →
    (t.cur = s.root ∧ CommandMoves s 0x1#4 ∧ s.active = false)
    ∨ (∃ w b, s.walking = true ∧ s.nodeRead s.cur = some w ∧ kindOf w = .internal ∧ t.taken = s.taken ++ [b]
        ∧ t.cur = if b then w.extractLsb' 10 10 else w.extractLsb' 0 10)
    ∨ (t.cur = s.root ∧ s.state = .emitted ∧ t.out = s.out ++ [s.outsym])

/-- 10_state.md R24, R25: the only ways BITCNT and SYMCNT change, and that they count every bit taken and every symbol
accepted. -/
def Obligations.CountersCount : Prop :=
  ∀ s t : State, NoResetMove s → step s = .next t →
    (CommandMoves s 0x1#4 ∧ s.active = false ∧ t.bitcnt = 0#32 ∧ t.symcnt = 0#32 ∧ t.taken = s.taken ∧ t.out = s.out)
    ∨ (((t.bitcnt = s.bitcnt ∧ t.taken = s.taken) ∨ (t.bitcnt = s.bitcnt + 1#32 ∧ ∃ b, t.taken = s.taken ++ [b]))
      ∧ ((t.symcnt = s.symcnt ∧ t.out = s.out) ∨ (t.symcnt = s.symcnt + 1#32 ∧ t.out = s.out ++ [s.outsym])))

/-- 10_state.md R27 to R29: what sets each sticky flag, and that only CLRF clears one. -/
def Obligations.StickyFlags : Prop :=
  ∀ s t : State, NoResetMove s → step s = .next t →
    (t.wrbusy ≠ s.wrbusy →
      (t.wrbusy = false ∧ CommandMoves s 0x3#4)
      ∨ (t.wrbusy = true ∧ s.active = true
        ∧ ∃ d, pendingAccess s = some (.wrRoot d) ∨ pendingAccess s = some (.wrEos d)
          ∨ ∃ i, pendingAccess s = some (.wrNode i d)))
    ∧ (t.cmdign ≠ s.cmdign →
      (t.cmdign = false ∧ CommandMoves s 0x3#4) ∨ (t.cmdign = true ∧ s.active = true ∧ CommandMoves s 0x1#4))
    ∧ (t.badcmd ≠ s.badcmd →
      (t.badcmd = false ∧ CommandMoves s 0x3#4) ∨ (t.badcmd = true ∧ ∃ op, 4 ≤ op.toNat ∧ CommandMoves s op))

/-- 10_state.md R30: no decode step reads a sticky flag, so the flags never change the walk. -/
def Obligations.FlagsNeverChangeTheWalk : Prop :=
  ∀ (s : State) (rest : List Turn) (a b c : Bool), DecoderMoves s rest →
    (∀ t, step s = .next t →
      t.wrbusy = s.wrbusy ∧ t.cmdign = s.cmdign ∧ t.badcmd = s.badcmd
      ∧ step { s with wrbusy := a, cmdign := b, badcmd := c } = .next { t with wrbusy := a, cmdign := b, badcmd := c })
    ∧ (∀ f, step s = .fault f → step { s with wrbusy := a, cmdign := b, badcmd := c } = .fault f)

/-! Streams. -/

/-- 41_decode_steps.md R115, 20_memory.md R52: the bits taken, followed by the bits still with the source, never
change, whatever moves: each bit is taken at most once, in order, one a step, and none is returned. -/
def Obligations.BitsTakenOnceInOrder : Prop :=
  ∀ s t : State, step s = .next t →
    t.taken ++ bitsOf t.beats = s.taken ++ bitsOf s.beats ∧ (t.taken = s.taken ∨ ∃ b, t.taken = s.taken ++ [b])

/-- 41_decode_steps.md R119, 20_memory.md R52: no move retracts an accepted symbol, and a symbol is added only as
OUTSYM from EMITTED. -/
def Obligations.SymbolsNeverRetracted : Prop :=
  ∀ s t : State, step s = .next t → t.out = s.out ∨ (s.state = .emitted ∧ t.out = s.out ++ [s.outsym])

/-- 10_state.md R33, R31, 30_encoding.md R63, R65: the handshakes. The decoder takes an offered bit exactly when
`bit_ready = 1`, and hands over `sym_data` exactly when `sym_valid = 1` and `sym_ready = 1`. -/
def Obligations.HandshakesFollowPorts : Prop :=
  ∀ (s t : State) (rest : List Turn), s.rst = false → DecoderMoves s rest → step s = .next t →
    ((∃ b, t.taken = s.taken ++ [b]) ↔ (s.bitReady = true ∧ s.offered.valid = true))
    ∧ (s.bitReady = true → s.offered.valid = true → t.taken = s.taken ++ [s.offered.data])
    ∧ (t.out = s.out ++ [s.symData] ↔ (s.symValid = true ∧ s.symReady = true))

/-- 60_exceptions.md R146, 10_state.md R33: the level outputs, and that a session is busy, done, failed or none. -/
def Obligations.LevelOutputs : Prop :=
  ∀ s : State,
    (s.doneO = true ↔ s.state = .done) ∧ (s.errO = true ↔ s.state = .error)
    ∧ (s.busyO = true ↔ s.state = .atRoot ∨ s.state = .descending ∨ s.state = .emitted)
    ∧ (s.symValid = true ↔ s.state = .emitted)
    ∧ (s.bitReady = true → s.busyO = true ∧ s.symValid = false)

/-- 41_decode_steps.md R116: with the invariant, every step keeps that each symbol costs at least one bit: after any
run the sink has accepted at most as many symbols as bits were taken. -/
def Obligations.EverySymbolCostsABit : Prop :=
  ∀ s t : State, BlockInv s → SymbolsPaid s → step s = .next t → SymbolsPaid t

/-- 41_decode_steps.md R116: with a finite stream and a sink that accepts every offer, an active session of `n` more
bits ends in DONE or ERROR (or in the model fault) within `3 n + 3` decoder steps. It speaks of a source that never
stalls, a sink that never holds and no host move; the samples are given as the model holds them (logs 2, 3). -/
def Obligations.FiniteStreamEndsSession : Prop :=
  ∀ (s : State) (bits : List Bool), BlockInv s → s.active = true → s.turns = [] →
    s.beats = bits.map bitBeat ++ [eofBeat] → s.ready = List.replicate (bits.length + 1) true →
    ∃ n, n ≤ 3 * bits.length + 3 ∧
      ((∃ t : State, Host.Core.run core n s = Host.Outcome.next t ∧ Ended t)
        ∨ Host.Core.run core n s = Host.Outcome.fault Fault.uninitNode)

/-- 41_decode_steps.md R118: the decoding law, with the number of steps of 70_reset_and_hazards.md R169 and the bits after
the end of stream of R114. `message` pairs each data symbol with its code string. It speaks of a source that never
stalls, a sink that is always ready and no host move. THE MODEL'S CHOICE (logs 2, 3): no move listed is the decoder's
turn, and an acceptance uses up one sink sample (`t.ready = more`). -/
def Obligations.DecodingLaw : Prop :=
  ∀ (s : State) (l r : CodeTree) (message : List (List Bool × SymId)) (eosCode : List Bool) (rest : List BeatPins)
    (more : List Bool),
    s.rst = false → s.turns = [] → s.state = .atRoot → s.cur = s.root → s.bitcnt = 0#32 → s.symcnt = 0#32 →
    Holds s s.root (.node l r) →
    (∀ m ∈ message, IsCode (.node l r) m.1 m.2 ∧ m.2.toNat < s.eos.toNat) →
    IsCode (.node l r) eosCode s.eos →
    s.beats = (message.flatMap Prod.fst ++ eosCode).map bitBeat ++ rest →
    s.ready = List.replicate message.length true ++ more →
    ∃ t : State,
      Host.Core.run core ((message.flatMap Prod.fst).length + 2 * message.length + eosCode.length + 1) s
        = Host.Outcome.next t
      ∧ t.state = .done ∧ t.err = s.err
      ∧ t.out = s.out ++ message.map Prod.snd
      ∧ t.symcnt = BitVec.ofNat 32 message.length
      ∧ t.bitcnt = BitVec.ofNat 32 ((message.flatMap Prod.fst).length + eosCode.length)
      ∧ t.beats = rest ∧ t.ready = more
      ∧ (∃ w, t.nodeRead t.cur = some w ∧ kindOf w = .leaf ∧ symOf w = s.eos)
      ∧ t.root = s.root ∧ t.eos = s.eos ∧ t.nodes = s.nodes

/-- 41_decode_steps.md R121: two node images of one tree decode every stream the same way, for any number of steps,
whatever index each entry sits at. It speaks of the decoder's moves alone (log 2). -/
def Obligations.LayoutDoesNotMatter : Prop :=
  ∀ (n : Nat) (s s' t : State), SameTree s s' → s.turns = [] → Host.Core.run core n s = Host.Outcome.next t →
    ∃ t' : State, Host.Core.run core n s' = Host.Outcome.next t' ∧ SameTree t t'

/-! The reference refinement, several blocks, and the host's side. -/

/-- 70_reset_and_hazards.md R167, R168: each cycle is one of the interleavings of R9; a read returns the state at the
start of the cycle; an ABORT completes the decoder step of its cycle; a NODE write in a cycle that began active is
dropped (log 14). -/
def Obligations.CycleIsAnInterleaving : Prop :=
  (∀ (p : HostPins) (s : State), s.turns = [] →
    cycle p s = Host.Core.run core 2 ({ s with turns := [.host p, .decoder] } : State)
    ∨ cycle p s = Host.Core.run core 2 ({ s with turns := [.decoder, .host p] } : State))
  ∧ (∀ (s t : State), s.rst = false → decoderTurn s = .next t →
    cycle (asmWr .cmd 0x2#32) s = .next { t with state := .idle, err := .none })
  ∧ (∀ (s : State) (i : Index) (d : Word), s.rst = false → s.active = true →
    cycle (asmWr (.node i) d) s = decoderTurn { s with wrbusy := true })
  ∧ (∀ (s : State), s.rst = false →
    cycle (asmRd .bitcnt) s = decoderTurn { s with reads := s.reads ++ [s.bitcnt] })

/-- 00_scope.md R6, 60_exceptions.md R151: blocks share no state: a step of one leaves every other as it was. -/
def Obligations.BlocksShareNoState : Prop :=
  ∀ (n : Nat) (k j : Fin n) (p q : Platform n), platformStep k p = .next q →
    step (p.get k) = .next (q.get k) ∧ (j ≠ k → q.get j = p.get j)

/-- 42_host_reference.md R133, R134: the reference layout's image is node memory in canonical form and holds the tree
at index 0. -/
def Obligations.NodeImageHoldsTree : Prop :=
  ∀ (t : CodeTree) (m : Memory) (s : State), nodeImage t = some m → s.nodes = m → Memory.wf m = true ∧ Holds s 0#10 t

/-- 42_host_reference.md R133: the host accesses that load a laid-out tree, made while no session is active, leave node
memory holding the tree at ROOT = 0 and EOS = N; no entry above the image, and nothing else, changes. -/
def Obligations.LoadedLayoutHoldsTree : Prop :=
  ∀ (t : CodeTree) (n : SymId) (l : Layout) (s : State), layOut t n = some l → s.rst = false → s.active = false →
    s.turns = hostProgram (loadLayout l) →
    ∃ u : State, Host.Core.run core (l.nodes.length + 2) s = Host.Outcome.next u
      ∧ u = { s with nodes := u.nodes, root := 0#10, eos := n, turns := [] }
      ∧ Holds u u.root t
      ∧ ∀ i : Index, l.nodes.length ≤ i.toNat → u.nodeRead i = s.nodeRead i

/-- 42_host_reference.md R122, R123, R126, R127: the builder refuses a table with no non-zero count; from any other of at
most 511 counts it builds a strict tree with one leaf for each non-zero count and one more. THE MODEL'S CHOICE (log 16,
DEDUCED): the builder itself refuses a table of more than 511 counts, where R122 says that N must be at most 511. -/
def Obligations.TreeBuilder : Prop :=
  ∀ freq : List Nat,
    (511 < freq.length → buildTree freq = .error .alphabetTooLarge)
    ∧ (freq.length ≤ 511 → (∀ c ∈ freq, c = 0) → buildTree freq = .error .emptyAlphabet)
    ∧ (freq.length ≤ 511 → (∃ c ∈ freq, c ≠ 0) →
      ∃ t, buildTree freq = .ok t ∧ strictTree t = true
        ∧ leafCount t = (freq.filter (fun c => c ≠ 0)).length + 1)

/-- 42_host_reference.md R128, R129, R135: serializing a strict tree with an internal root and deserializing the lines
gives the tree back. -/
def Obligations.TableRoundTrip : Prop :=
  ∀ l r : CodeTree, strictTree (.node l r) = true → deserialize (serialize (.node l r)) = .ok (.node l r)

/-- 42_host_reference.md R128, R132: the code table lists exactly the code strings of the tree. -/
def Obligations.CodeTableListsCodes : Prop :=
  ∀ (t : CodeTree) (path : List Bool) (sym : SymId), (sym, path) ∈ codeTable t ↔ IsCode t path sym
end

