-- ==== Sys2Proof/Laws/Memory.lean ====
section
/-! SUPPORT. Node memory: read after write, and every operation keeps the canonical form. -/

namespace Sys2Proof.Machine

@[simp] theorem Memory.read_write_same (m : Memory) (i : Nat) (v : Word) :
    Memory.read (Memory.write m i v) i = some v := by
  induction m with
  | nil => simp [Memory.write, Memory.read]
  | cons e m ih =>
    obtain ⟨k, u⟩ := e
    by_cases h : i < k
    · simp [Memory.write, h, Memory.read]
    · by_cases h' : i = k
      · simp [Memory.write, h', Memory.read]
      · simp [Memory.write, h, h', Memory.read, Ne.symm h', ih]

@[simp] theorem Memory.read_write_other (m : Memory) {i j : Nat} (v : Word) (hij : j ≠ i) :
    Memory.read (Memory.write m i v) j = Memory.read m j := by
  induction m with
  | nil => simp [Memory.write, Memory.read, Ne.symm hij]
  | cons e m ih =>
    obtain ⟨k, u⟩ := e
    by_cases h : i < k
    · simp [Memory.write, h, Memory.read, Ne.symm hij]
    · by_cases h' : i = k
      · subst h'; simp [Memory.write, Memory.read, Ne.symm hij]
      · simp [Memory.write, h, h', Memory.read, ih]

theorem Memory.risesFrom_write {m : Memory} {b i : Nat} (v : Word) (hb : b ≤ i) (hi : i < Config.nodeDepth)
    (h : Memory.risesFrom b m = true) : Memory.risesFrom b (Memory.write m i v) = true := by
  induction m generalizing b with
  | nil => simp [Memory.write, Memory.risesFrom, hb]; omega
  | cons e m ih =>
    obtain ⟨k, u⟩ := e
    simp only [Memory.risesFrom, Bool.and_eq_true, decide_eq_true_eq] at h
    obtain ⟨⟨hk, hd⟩, hm⟩ := h
    by_cases h1 : i < k
    · simp [Memory.write, h1, Memory.risesFrom, hb, hm]; omega
    · by_cases h2 : i = k
      · subst h2; simp [Memory.write, Memory.risesFrom, hb, hm]; omega
      · simp [Memory.write, h1, h2, Memory.risesFrom, hk, ih (b := k + 1) (by omega) hm]; omega

/-- A write of an entry keeps the canonical form. -/
theorem Memory.wf_write {m : Memory} (i : Index) (v : Word) (h : Memory.wf m = true) :
    Memory.wf (Memory.write m i.toNat v) = true :=
  Memory.risesFrom_write v (Nat.zero_le _) i.isLt h

theorem Memory.wf_nil : Memory.wf [] = true := rfl

/-- The memory after reset has the canonical form. -/
theorem State.reset_memory_wf : Memory.wf State.reset.nodes = true := rfl

@[simp] theorem State.nodeRead_nodeWrite_same (s : State) (i : Index) (v : Word) :
    (s.nodeWrite i v).nodeRead i = some v := by
  simp [State.nodeRead, State.nodeWrite]

@[simp] theorem State.nodeRead_nodeWrite_other (s : State) {i j : Index} (v : Word) (h : j ≠ i) :
    (s.nodeWrite i v).nodeRead j = s.nodeRead j := by
  have : j.toNat ≠ i.toNat := fun e => h (BitVec.eq_of_toNat_eq e)
  simp [State.nodeRead, State.nodeWrite, this]

/-- An index that is listed below the rise is not read. -/
theorem Memory.read_below {m : Memory} {b i : Nat} (h : Memory.risesFrom b m = true) (hi : i < b) :
    Memory.read m i = none := by
  induction m generalizing b with
  | nil => rfl
  | cons e m ih =>
    obtain ⟨k, u⟩ := e
    simp only [Memory.risesFrom, Bool.and_eq_true, decide_eq_true_eq] at h
    obtain ⟨⟨hk, -⟩, hm⟩ := h
    have : k ≠ i := by omega
    simp [Memory.read, this, ih hm (by omega)]

/-- Two canonical memories that read alike are the same data. -/
theorem Memory.eq_of_read_eq {m n : Memory} {b : Nat} (hm : Memory.risesFrom b m = true)
    (hn : Memory.risesFrom b n = true) (h : ∀ i, Memory.read m i = Memory.read n i) : m = n := by
  induction m generalizing b n with
  | nil =>
    cases n with
    | nil => rfl
    | cons e n => have := h e.1; simp [Memory.read] at this
  | cons e m ih =>
    obtain ⟨k, u⟩ := e
    cases n with
    | nil => have := h k; simp [Memory.read] at this
    | cons e' n =>
      obtain ⟨k', u'⟩ := e'
      simp only [Memory.risesFrom, Bool.and_eq_true, decide_eq_true_eq] at hm hn
      obtain ⟨⟨hk, -⟩, hm⟩ := hm
      obtain ⟨⟨hk', -⟩, hn⟩ := hn
      have hkk : k = k' := by
        rcases Nat.lt_trichotomy k k' with hlt | heq | hgt
        · have := h k
          rw [show Memory.read ((k', u') :: n) k = none by
            simp [Memory.read, Nat.ne_of_gt hlt, Memory.read_below hn (i := k) (by omega)]] at this
          simp [Memory.read] at this
        · exact heq
        · have := h k'
          rw [show Memory.read ((k, u) :: m) k' = none by
            simp [Memory.read, Nat.ne_of_gt hgt, Memory.read_below hm (i := k') (by omega)]] at this
          simp [Memory.read] at this
      subst hkk
      have hu : u = u' := by simpa [Memory.read] using h k
      subst hu
      have hmn : m = n := by
        refine ih hm hn fun i => ?_
        have := h i
        by_cases hi : k = i
        · subst hi; rw [Memory.read_below hm (by omega), Memory.read_below hn (by omega)]
        · simpa [Memory.read, hi] using this
      rw [hmn]

end Sys2Proof.Machine
end

