-- ==== Sys2Proof/Laws/State.lean ====
section
/-! SUPPORT. One lemma for each field of each update of the state, true by rfl, so that no later proof unfolds a record
update. -/

namespace Sys2Proof.Machine

/-! `nodeWrite` -/

@[simp] theorem State.nodeWrite_state (i : Index) (v : Word) (s : State) : (s.nodeWrite i v).state = s.state := rfl
@[simp] theorem State.nodeWrite_err (i : Index) (v : Word) (s : State) : (s.nodeWrite i v).err = s.err := rfl
@[simp] theorem State.nodeWrite_wrbusy (i : Index) (v : Word) (s : State) : (s.nodeWrite i v).wrbusy = s.wrbusy := rfl
@[simp] theorem State.nodeWrite_cmdign (i : Index) (v : Word) (s : State) : (s.nodeWrite i v).cmdign = s.cmdign := rfl
@[simp] theorem State.nodeWrite_badcmd (i : Index) (v : Word) (s : State) : (s.nodeWrite i v).badcmd = s.badcmd := rfl
@[simp] theorem State.nodeWrite_root (i : Index) (v : Word) (s : State) : (s.nodeWrite i v).root = s.root := rfl
@[simp] theorem State.nodeWrite_eos (i : Index) (v : Word) (s : State) : (s.nodeWrite i v).eos = s.eos := rfl
@[simp] theorem State.nodeWrite_cur (i : Index) (v : Word) (s : State) : (s.nodeWrite i v).cur = s.cur := rfl
@[simp] theorem State.nodeWrite_bitcnt (i : Index) (v : Word) (s : State) : (s.nodeWrite i v).bitcnt = s.bitcnt := rfl
@[simp] theorem State.nodeWrite_symcnt (i : Index) (v : Word) (s : State) : (s.nodeWrite i v).symcnt = s.symcnt := rfl
@[simp] theorem State.nodeWrite_outsym (i : Index) (v : Word) (s : State) : (s.nodeWrite i v).outsym = s.outsym := rfl
@[simp] theorem State.nodeWrite_nodes (i : Index) (v : Word) (s : State) : (s.nodeWrite i v).nodes = Memory.write s.nodes i.toNat v := rfl
@[simp] theorem State.nodeWrite_rst (i : Index) (v : Word) (s : State) : (s.nodeWrite i v).rst = s.rst := rfl
@[simp] theorem State.nodeWrite_turns (i : Index) (v : Word) (s : State) : (s.nodeWrite i v).turns = s.turns := rfl
@[simp] theorem State.nodeWrite_beats (i : Index) (v : Word) (s : State) : (s.nodeWrite i v).beats = s.beats := rfl
@[simp] theorem State.nodeWrite_ready (i : Index) (v : Word) (s : State) : (s.nodeWrite i v).ready = s.ready := rfl
@[simp] theorem State.nodeWrite_taken (i : Index) (v : Word) (s : State) : (s.nodeWrite i v).taken = s.taken := rfl
@[simp] theorem State.nodeWrite_out (i : Index) (v : Word) (s : State) : (s.nodeWrite i v).out = s.out := rfl
@[simp] theorem State.nodeWrite_reads (i : Index) (v : Word) (s : State) : (s.nodeWrite i v).reads = s.reads := rfl
@[simp] theorem State.nodeWrite_draws (i : Index) (v : Word) (s : State) : (s.nodeWrite i v).draws = s.draws := rfl
@[simp] theorem State.nodeWrite_stream (i : Index) (v : Word) (s : State) : (s.nodeWrite i v).stream = s.stream := rfl

/-! `raiseError` -/

@[simp] theorem raiseError_state (c : ErrCode) (s : State) : (raiseError c s).state = .error := rfl
@[simp] theorem raiseError_err (c : ErrCode) (s : State) : (raiseError c s).err = c := rfl
@[simp] theorem raiseError_wrbusy (c : ErrCode) (s : State) : (raiseError c s).wrbusy = s.wrbusy := rfl
@[simp] theorem raiseError_cmdign (c : ErrCode) (s : State) : (raiseError c s).cmdign = s.cmdign := rfl
@[simp] theorem raiseError_badcmd (c : ErrCode) (s : State) : (raiseError c s).badcmd = s.badcmd := rfl
@[simp] theorem raiseError_root (c : ErrCode) (s : State) : (raiseError c s).root = s.root := rfl
@[simp] theorem raiseError_eos (c : ErrCode) (s : State) : (raiseError c s).eos = s.eos := rfl
@[simp] theorem raiseError_cur (c : ErrCode) (s : State) : (raiseError c s).cur = s.cur := rfl
@[simp] theorem raiseError_bitcnt (c : ErrCode) (s : State) : (raiseError c s).bitcnt = s.bitcnt := rfl
@[simp] theorem raiseError_symcnt (c : ErrCode) (s : State) : (raiseError c s).symcnt = s.symcnt := rfl
@[simp] theorem raiseError_outsym (c : ErrCode) (s : State) : (raiseError c s).outsym = s.outsym := rfl
@[simp] theorem raiseError_nodes (c : ErrCode) (s : State) : (raiseError c s).nodes = s.nodes := rfl
@[simp] theorem raiseError_rst (c : ErrCode) (s : State) : (raiseError c s).rst = s.rst := rfl
@[simp] theorem raiseError_turns (c : ErrCode) (s : State) : (raiseError c s).turns = s.turns := rfl
@[simp] theorem raiseError_beats (c : ErrCode) (s : State) : (raiseError c s).beats = s.beats := rfl
@[simp] theorem raiseError_ready (c : ErrCode) (s : State) : (raiseError c s).ready = s.ready := rfl
@[simp] theorem raiseError_taken (c : ErrCode) (s : State) : (raiseError c s).taken = s.taken := rfl
@[simp] theorem raiseError_out (c : ErrCode) (s : State) : (raiseError c s).out = s.out := rfl
@[simp] theorem raiseError_reads (c : ErrCode) (s : State) : (raiseError c s).reads = s.reads := rfl
@[simp] theorem raiseError_draws (c : ErrCode) (s : State) : (raiseError c s).draws = s.draws := rfl
@[simp] theorem raiseError_stream (c : ErrCode) (s : State) : (raiseError c s).stream = s.stream := rfl

/-! `leaveSession` -/

@[simp] theorem leaveSession_state (s : State) : (leaveSession s).state = .idle := rfl
@[simp] theorem leaveSession_err (s : State) : (leaveSession s).err = .none := rfl
@[simp] theorem leaveSession_wrbusy (s : State) : (leaveSession s).wrbusy = s.wrbusy := rfl
@[simp] theorem leaveSession_cmdign (s : State) : (leaveSession s).cmdign = s.cmdign := rfl
@[simp] theorem leaveSession_badcmd (s : State) : (leaveSession s).badcmd = s.badcmd := rfl
@[simp] theorem leaveSession_root (s : State) : (leaveSession s).root = s.root := rfl
@[simp] theorem leaveSession_eos (s : State) : (leaveSession s).eos = s.eos := rfl
@[simp] theorem leaveSession_cur (s : State) : (leaveSession s).cur = s.cur := rfl
@[simp] theorem leaveSession_bitcnt (s : State) : (leaveSession s).bitcnt = s.bitcnt := rfl
@[simp] theorem leaveSession_symcnt (s : State) : (leaveSession s).symcnt = s.symcnt := rfl
@[simp] theorem leaveSession_outsym (s : State) : (leaveSession s).outsym = s.outsym := rfl
@[simp] theorem leaveSession_nodes (s : State) : (leaveSession s).nodes = s.nodes := rfl
@[simp] theorem leaveSession_rst (s : State) : (leaveSession s).rst = s.rst := rfl
@[simp] theorem leaveSession_turns (s : State) : (leaveSession s).turns = s.turns := rfl
@[simp] theorem leaveSession_beats (s : State) : (leaveSession s).beats = s.beats := rfl
@[simp] theorem leaveSession_ready (s : State) : (leaveSession s).ready = s.ready := rfl
@[simp] theorem leaveSession_taken (s : State) : (leaveSession s).taken = s.taken := rfl
@[simp] theorem leaveSession_out (s : State) : (leaveSession s).out = s.out := rfl
@[simp] theorem leaveSession_reads (s : State) : (leaveSession s).reads = s.reads := rfl
@[simp] theorem leaveSession_draws (s : State) : (leaveSession s).draws = s.draws := rfl
@[simp] theorem leaveSession_stream (s : State) : (leaveSession s).stream = s.stream := rfl

/-! `beginSession` -/

@[simp] theorem beginSession_state (s : State) : (beginSession s).state = s.state := rfl
@[simp] theorem beginSession_err (s : State) : (beginSession s).err = .none := rfl
@[simp] theorem beginSession_wrbusy (s : State) : (beginSession s).wrbusy = s.wrbusy := rfl
@[simp] theorem beginSession_cmdign (s : State) : (beginSession s).cmdign = s.cmdign := rfl
@[simp] theorem beginSession_badcmd (s : State) : (beginSession s).badcmd = s.badcmd := rfl
@[simp] theorem beginSession_root (s : State) : (beginSession s).root = s.root := rfl
@[simp] theorem beginSession_eos (s : State) : (beginSession s).eos = s.eos := rfl
@[simp] theorem beginSession_cur (s : State) : (beginSession s).cur = s.root := rfl
@[simp] theorem beginSession_bitcnt (s : State) : (beginSession s).bitcnt = 0#32 := rfl
@[simp] theorem beginSession_symcnt (s : State) : (beginSession s).symcnt = 0#32 := rfl
@[simp] theorem beginSession_outsym (s : State) : (beginSession s).outsym = s.outsym := rfl
@[simp] theorem beginSession_nodes (s : State) : (beginSession s).nodes = s.nodes := rfl
@[simp] theorem beginSession_rst (s : State) : (beginSession s).rst = s.rst := rfl
@[simp] theorem beginSession_turns (s : State) : (beginSession s).turns = s.turns := rfl
@[simp] theorem beginSession_beats (s : State) : (beginSession s).beats = s.beats := rfl
@[simp] theorem beginSession_ready (s : State) : (beginSession s).ready = s.ready := rfl
@[simp] theorem beginSession_taken (s : State) : (beginSession s).taken = s.taken := rfl
@[simp] theorem beginSession_out (s : State) : (beginSession s).out = s.out := rfl
@[simp] theorem beginSession_reads (s : State) : (beginSession s).reads = s.reads := rfl
@[simp] theorem beginSession_draws (s : State) : (beginSession s).draws = s.draws := rfl
@[simp] theorem beginSession_stream (s : State) : (beginSession s).stream = s.stream := rfl

/-! `resetBlock` -/

@[simp] theorem resetBlock_state (s : State) : (resetBlock s).state = .idle := rfl
@[simp] theorem resetBlock_err (s : State) : (resetBlock s).err = .none := rfl
@[simp] theorem resetBlock_wrbusy (s : State) : (resetBlock s).wrbusy = false := rfl
@[simp] theorem resetBlock_cmdign (s : State) : (resetBlock s).cmdign = false := rfl
@[simp] theorem resetBlock_badcmd (s : State) : (resetBlock s).badcmd = false := rfl
@[simp] theorem resetBlock_root (s : State) : (resetBlock s).root = 0#10 := rfl
@[simp] theorem resetBlock_eos (s : State) : (resetBlock s).eos = 256#9 := rfl
@[simp] theorem resetBlock_cur (s : State) : (resetBlock s).cur = 0#10 := rfl
@[simp] theorem resetBlock_bitcnt (s : State) : (resetBlock s).bitcnt = 0#32 := rfl
@[simp] theorem resetBlock_symcnt (s : State) : (resetBlock s).symcnt = 0#32 := rfl
@[simp] theorem resetBlock_outsym (s : State) : (resetBlock s).outsym = 0#9 := rfl
@[simp] theorem resetBlock_nodes (s : State) : (resetBlock s).nodes = [] := rfl
@[simp] theorem resetBlock_rst (s : State) : (resetBlock s).rst = s.rst := rfl
@[simp] theorem resetBlock_turns (s : State) : (resetBlock s).turns = s.turns := rfl
@[simp] theorem resetBlock_beats (s : State) : (resetBlock s).beats = s.beats := rfl
@[simp] theorem resetBlock_ready (s : State) : (resetBlock s).ready = s.ready := rfl
@[simp] theorem resetBlock_taken (s : State) : (resetBlock s).taken = s.taken := rfl
@[simp] theorem resetBlock_out (s : State) : (resetBlock s).out = s.out := rfl
@[simp] theorem resetBlock_reads (s : State) : (resetBlock s).reads = s.reads := rfl
@[simp] theorem resetBlock_draws (s : State) : (resetBlock s).draws = s.draws := rfl
@[simp] theorem resetBlock_stream (s : State) : (resetBlock s).stream = s.stream := rfl

/-! `returnRead` -/

@[simp] theorem returnRead_state (v : Word) (s : State) : (returnRead v s).state = s.state := rfl
@[simp] theorem returnRead_err (v : Word) (s : State) : (returnRead v s).err = s.err := rfl
@[simp] theorem returnRead_wrbusy (v : Word) (s : State) : (returnRead v s).wrbusy = s.wrbusy := rfl
@[simp] theorem returnRead_cmdign (v : Word) (s : State) : (returnRead v s).cmdign = s.cmdign := rfl
@[simp] theorem returnRead_badcmd (v : Word) (s : State) : (returnRead v s).badcmd = s.badcmd := rfl
@[simp] theorem returnRead_root (v : Word) (s : State) : (returnRead v s).root = s.root := rfl
@[simp] theorem returnRead_eos (v : Word) (s : State) : (returnRead v s).eos = s.eos := rfl
@[simp] theorem returnRead_cur (v : Word) (s : State) : (returnRead v s).cur = s.cur := rfl
@[simp] theorem returnRead_bitcnt (v : Word) (s : State) : (returnRead v s).bitcnt = s.bitcnt := rfl
@[simp] theorem returnRead_symcnt (v : Word) (s : State) : (returnRead v s).symcnt = s.symcnt := rfl
@[simp] theorem returnRead_outsym (v : Word) (s : State) : (returnRead v s).outsym = s.outsym := rfl
@[simp] theorem returnRead_nodes (v : Word) (s : State) : (returnRead v s).nodes = s.nodes := rfl
@[simp] theorem returnRead_rst (v : Word) (s : State) : (returnRead v s).rst = s.rst := rfl
@[simp] theorem returnRead_turns (v : Word) (s : State) : (returnRead v s).turns = s.turns := rfl
@[simp] theorem returnRead_beats (v : Word) (s : State) : (returnRead v s).beats = s.beats := rfl
@[simp] theorem returnRead_ready (v : Word) (s : State) : (returnRead v s).ready = s.ready := rfl
@[simp] theorem returnRead_taken (v : Word) (s : State) : (returnRead v s).taken = s.taken := rfl
@[simp] theorem returnRead_out (v : Word) (s : State) : (returnRead v s).out = s.out := rfl
@[simp] theorem returnRead_reads (v : Word) (s : State) : (returnRead v s).reads = s.reads ++ [v] := rfl
@[simp] theorem returnRead_draws (v : Word) (s : State) : (returnRead v s).draws = s.draws := rfl
@[simp] theorem returnRead_stream (v : Word) (s : State) : (returnRead v s).stream = s.stream := rfl

/-! `returnDraw` -/

@[simp] theorem returnDraw_state (s : State) : (returnDraw s).state = s.state := rfl
@[simp] theorem returnDraw_err (s : State) : (returnDraw s).err = s.err := rfl
@[simp] theorem returnDraw_wrbusy (s : State) : (returnDraw s).wrbusy = s.wrbusy := rfl
@[simp] theorem returnDraw_cmdign (s : State) : (returnDraw s).cmdign = s.cmdign := rfl
@[simp] theorem returnDraw_badcmd (s : State) : (returnDraw s).badcmd = s.badcmd := rfl
@[simp] theorem returnDraw_root (s : State) : (returnDraw s).root = s.root := rfl
@[simp] theorem returnDraw_eos (s : State) : (returnDraw s).eos = s.eos := rfl
@[simp] theorem returnDraw_cur (s : State) : (returnDraw s).cur = s.cur := rfl
@[simp] theorem returnDraw_bitcnt (s : State) : (returnDraw s).bitcnt = s.bitcnt := rfl
@[simp] theorem returnDraw_symcnt (s : State) : (returnDraw s).symcnt = s.symcnt := rfl
@[simp] theorem returnDraw_outsym (s : State) : (returnDraw s).outsym = s.outsym := rfl
@[simp] theorem returnDraw_nodes (s : State) : (returnDraw s).nodes = s.nodes := rfl
@[simp] theorem returnDraw_rst (s : State) : (returnDraw s).rst = s.rst := rfl
@[simp] theorem returnDraw_turns (s : State) : (returnDraw s).turns = s.turns := rfl
@[simp] theorem returnDraw_beats (s : State) : (returnDraw s).beats = s.beats := rfl
@[simp] theorem returnDraw_ready (s : State) : (returnDraw s).ready = s.ready := rfl
@[simp] theorem returnDraw_taken (s : State) : (returnDraw s).taken = s.taken := rfl
@[simp] theorem returnDraw_out (s : State) : (returnDraw s).out = s.out := rfl
@[simp] theorem returnDraw_reads (s : State) : (returnDraw s).reads = s.reads ++ [Config.freeWord s.stream s.draws] := rfl
@[simp] theorem returnDraw_draws (s : State) : (returnDraw s).draws = s.draws + 1 := rfl
@[simp] theorem returnDraw_stream (s : State) : (returnDraw s).stream = s.stream := rfl

/-! `setCmdign` -/

@[simp] theorem setCmdign_state (s : State) : (setCmdign s).state = s.state := rfl
@[simp] theorem setCmdign_err (s : State) : (setCmdign s).err = s.err := rfl
@[simp] theorem setCmdign_wrbusy (s : State) : (setCmdign s).wrbusy = s.wrbusy := rfl
@[simp] theorem setCmdign_cmdign (s : State) : (setCmdign s).cmdign = true := rfl
@[simp] theorem setCmdign_badcmd (s : State) : (setCmdign s).badcmd = s.badcmd := rfl
@[simp] theorem setCmdign_root (s : State) : (setCmdign s).root = s.root := rfl
@[simp] theorem setCmdign_eos (s : State) : (setCmdign s).eos = s.eos := rfl
@[simp] theorem setCmdign_cur (s : State) : (setCmdign s).cur = s.cur := rfl
@[simp] theorem setCmdign_bitcnt (s : State) : (setCmdign s).bitcnt = s.bitcnt := rfl
@[simp] theorem setCmdign_symcnt (s : State) : (setCmdign s).symcnt = s.symcnt := rfl
@[simp] theorem setCmdign_outsym (s : State) : (setCmdign s).outsym = s.outsym := rfl
@[simp] theorem setCmdign_nodes (s : State) : (setCmdign s).nodes = s.nodes := rfl
@[simp] theorem setCmdign_rst (s : State) : (setCmdign s).rst = s.rst := rfl
@[simp] theorem setCmdign_turns (s : State) : (setCmdign s).turns = s.turns := rfl
@[simp] theorem setCmdign_beats (s : State) : (setCmdign s).beats = s.beats := rfl
@[simp] theorem setCmdign_ready (s : State) : (setCmdign s).ready = s.ready := rfl
@[simp] theorem setCmdign_taken (s : State) : (setCmdign s).taken = s.taken := rfl
@[simp] theorem setCmdign_out (s : State) : (setCmdign s).out = s.out := rfl
@[simp] theorem setCmdign_reads (s : State) : (setCmdign s).reads = s.reads := rfl
@[simp] theorem setCmdign_draws (s : State) : (setCmdign s).draws = s.draws := rfl
@[simp] theorem setCmdign_stream (s : State) : (setCmdign s).stream = s.stream := rfl

/-! `setBadcmd` -/

@[simp] theorem setBadcmd_state (s : State) : (setBadcmd s).state = s.state := rfl
@[simp] theorem setBadcmd_err (s : State) : (setBadcmd s).err = s.err := rfl
@[simp] theorem setBadcmd_wrbusy (s : State) : (setBadcmd s).wrbusy = s.wrbusy := rfl
@[simp] theorem setBadcmd_cmdign (s : State) : (setBadcmd s).cmdign = s.cmdign := rfl
@[simp] theorem setBadcmd_badcmd (s : State) : (setBadcmd s).badcmd = true := rfl
@[simp] theorem setBadcmd_root (s : State) : (setBadcmd s).root = s.root := rfl
@[simp] theorem setBadcmd_eos (s : State) : (setBadcmd s).eos = s.eos := rfl
@[simp] theorem setBadcmd_cur (s : State) : (setBadcmd s).cur = s.cur := rfl
@[simp] theorem setBadcmd_bitcnt (s : State) : (setBadcmd s).bitcnt = s.bitcnt := rfl
@[simp] theorem setBadcmd_symcnt (s : State) : (setBadcmd s).symcnt = s.symcnt := rfl
@[simp] theorem setBadcmd_outsym (s : State) : (setBadcmd s).outsym = s.outsym := rfl
@[simp] theorem setBadcmd_nodes (s : State) : (setBadcmd s).nodes = s.nodes := rfl
@[simp] theorem setBadcmd_rst (s : State) : (setBadcmd s).rst = s.rst := rfl
@[simp] theorem setBadcmd_turns (s : State) : (setBadcmd s).turns = s.turns := rfl
@[simp] theorem setBadcmd_beats (s : State) : (setBadcmd s).beats = s.beats := rfl
@[simp] theorem setBadcmd_ready (s : State) : (setBadcmd s).ready = s.ready := rfl
@[simp] theorem setBadcmd_taken (s : State) : (setBadcmd s).taken = s.taken := rfl
@[simp] theorem setBadcmd_out (s : State) : (setBadcmd s).out = s.out := rfl
@[simp] theorem setBadcmd_reads (s : State) : (setBadcmd s).reads = s.reads := rfl
@[simp] theorem setBadcmd_draws (s : State) : (setBadcmd s).draws = s.draws := rfl
@[simp] theorem setBadcmd_stream (s : State) : (setBadcmd s).stream = s.stream := rfl

/-! `clearFlags` -/

@[simp] theorem clearFlags_state (s : State) : (clearFlags s).state = s.state := rfl
@[simp] theorem clearFlags_err (s : State) : (clearFlags s).err = s.err := rfl
@[simp] theorem clearFlags_wrbusy (s : State) : (clearFlags s).wrbusy = false := rfl
@[simp] theorem clearFlags_cmdign (s : State) : (clearFlags s).cmdign = false := rfl
@[simp] theorem clearFlags_badcmd (s : State) : (clearFlags s).badcmd = false := rfl
@[simp] theorem clearFlags_root (s : State) : (clearFlags s).root = s.root := rfl
@[simp] theorem clearFlags_eos (s : State) : (clearFlags s).eos = s.eos := rfl
@[simp] theorem clearFlags_cur (s : State) : (clearFlags s).cur = s.cur := rfl
@[simp] theorem clearFlags_bitcnt (s : State) : (clearFlags s).bitcnt = s.bitcnt := rfl
@[simp] theorem clearFlags_symcnt (s : State) : (clearFlags s).symcnt = s.symcnt := rfl
@[simp] theorem clearFlags_outsym (s : State) : (clearFlags s).outsym = s.outsym := rfl
@[simp] theorem clearFlags_nodes (s : State) : (clearFlags s).nodes = s.nodes := rfl
@[simp] theorem clearFlags_rst (s : State) : (clearFlags s).rst = s.rst := rfl
@[simp] theorem clearFlags_turns (s : State) : (clearFlags s).turns = s.turns := rfl
@[simp] theorem clearFlags_beats (s : State) : (clearFlags s).beats = s.beats := rfl
@[simp] theorem clearFlags_ready (s : State) : (clearFlags s).ready = s.ready := rfl
@[simp] theorem clearFlags_taken (s : State) : (clearFlags s).taken = s.taken := rfl
@[simp] theorem clearFlags_out (s : State) : (clearFlags s).out = s.out := rfl
@[simp] theorem clearFlags_reads (s : State) : (clearFlags s).reads = s.reads := rfl
@[simp] theorem clearFlags_draws (s : State) : (clearFlags s).draws = s.draws := rfl
@[simp] theorem clearFlags_stream (s : State) : (clearFlags s).stream = s.stream := rfl

/-! `useBeat` -/

@[simp] theorem useBeat_state (s : State) : (useBeat s).state = s.state := rfl
@[simp] theorem useBeat_err (s : State) : (useBeat s).err = s.err := rfl
@[simp] theorem useBeat_wrbusy (s : State) : (useBeat s).wrbusy = s.wrbusy := rfl
@[simp] theorem useBeat_cmdign (s : State) : (useBeat s).cmdign = s.cmdign := rfl
@[simp] theorem useBeat_badcmd (s : State) : (useBeat s).badcmd = s.badcmd := rfl
@[simp] theorem useBeat_root (s : State) : (useBeat s).root = s.root := rfl
@[simp] theorem useBeat_eos (s : State) : (useBeat s).eos = s.eos := rfl
@[simp] theorem useBeat_cur (s : State) : (useBeat s).cur = s.cur := rfl
@[simp] theorem useBeat_bitcnt (s : State) : (useBeat s).bitcnt = s.bitcnt := rfl
@[simp] theorem useBeat_symcnt (s : State) : (useBeat s).symcnt = s.symcnt := rfl
@[simp] theorem useBeat_outsym (s : State) : (useBeat s).outsym = s.outsym := rfl
@[simp] theorem useBeat_nodes (s : State) : (useBeat s).nodes = s.nodes := rfl
@[simp] theorem useBeat_rst (s : State) : (useBeat s).rst = s.rst := rfl
@[simp] theorem useBeat_turns (s : State) : (useBeat s).turns = s.turns := rfl
@[simp] theorem useBeat_beats (s : State) : (useBeat s).beats = s.beats.tail := rfl
@[simp] theorem useBeat_ready (s : State) : (useBeat s).ready = s.ready := rfl
@[simp] theorem useBeat_taken (s : State) : (useBeat s).taken = s.taken := rfl
@[simp] theorem useBeat_out (s : State) : (useBeat s).out = s.out := rfl
@[simp] theorem useBeat_reads (s : State) : (useBeat s).reads = s.reads := rfl
@[simp] theorem useBeat_draws (s : State) : (useBeat s).draws = s.draws := rfl
@[simp] theorem useBeat_stream (s : State) : (useBeat s).stream = s.stream := rfl

/-! `useReady` -/

@[simp] theorem useReady_state (s : State) : (useReady s).state = s.state := rfl
@[simp] theorem useReady_err (s : State) : (useReady s).err = s.err := rfl
@[simp] theorem useReady_wrbusy (s : State) : (useReady s).wrbusy = s.wrbusy := rfl
@[simp] theorem useReady_cmdign (s : State) : (useReady s).cmdign = s.cmdign := rfl
@[simp] theorem useReady_badcmd (s : State) : (useReady s).badcmd = s.badcmd := rfl
@[simp] theorem useReady_root (s : State) : (useReady s).root = s.root := rfl
@[simp] theorem useReady_eos (s : State) : (useReady s).eos = s.eos := rfl
@[simp] theorem useReady_cur (s : State) : (useReady s).cur = s.cur := rfl
@[simp] theorem useReady_bitcnt (s : State) : (useReady s).bitcnt = s.bitcnt := rfl
@[simp] theorem useReady_symcnt (s : State) : (useReady s).symcnt = s.symcnt := rfl
@[simp] theorem useReady_outsym (s : State) : (useReady s).outsym = s.outsym := rfl
@[simp] theorem useReady_nodes (s : State) : (useReady s).nodes = s.nodes := rfl
@[simp] theorem useReady_rst (s : State) : (useReady s).rst = s.rst := rfl
@[simp] theorem useReady_turns (s : State) : (useReady s).turns = s.turns := rfl
@[simp] theorem useReady_beats (s : State) : (useReady s).beats = s.beats := rfl
@[simp] theorem useReady_ready (s : State) : (useReady s).ready = s.ready.tail := rfl
@[simp] theorem useReady_taken (s : State) : (useReady s).taken = s.taken := rfl
@[simp] theorem useReady_out (s : State) : (useReady s).out = s.out := rfl
@[simp] theorem useReady_reads (s : State) : (useReady s).reads = s.reads := rfl
@[simp] theorem useReady_draws (s : State) : (useReady s).draws = s.draws := rfl
@[simp] theorem useReady_stream (s : State) : (useReady s).stream = s.stream := rfl

/-! `descendTo` -/

@[simp] theorem descendTo_state (b : Bool) (c : Index) (s : State) : (descendTo b c s).state = .descending := rfl
@[simp] theorem descendTo_err (b : Bool) (c : Index) (s : State) : (descendTo b c s).err = s.err := rfl
@[simp] theorem descendTo_wrbusy (b : Bool) (c : Index) (s : State) : (descendTo b c s).wrbusy = s.wrbusy := rfl
@[simp] theorem descendTo_cmdign (b : Bool) (c : Index) (s : State) : (descendTo b c s).cmdign = s.cmdign := rfl
@[simp] theorem descendTo_badcmd (b : Bool) (c : Index) (s : State) : (descendTo b c s).badcmd = s.badcmd := rfl
@[simp] theorem descendTo_root (b : Bool) (c : Index) (s : State) : (descendTo b c s).root = s.root := rfl
@[simp] theorem descendTo_eos (b : Bool) (c : Index) (s : State) : (descendTo b c s).eos = s.eos := rfl
@[simp] theorem descendTo_cur (b : Bool) (c : Index) (s : State) : (descendTo b c s).cur = c := rfl
@[simp] theorem descendTo_bitcnt (b : Bool) (c : Index) (s : State) : (descendTo b c s).bitcnt = s.bitcnt + 1#32 := rfl
@[simp] theorem descendTo_symcnt (b : Bool) (c : Index) (s : State) : (descendTo b c s).symcnt = s.symcnt := rfl
@[simp] theorem descendTo_outsym (b : Bool) (c : Index) (s : State) : (descendTo b c s).outsym = s.outsym := rfl
@[simp] theorem descendTo_nodes (b : Bool) (c : Index) (s : State) : (descendTo b c s).nodes = s.nodes := rfl
@[simp] theorem descendTo_rst (b : Bool) (c : Index) (s : State) : (descendTo b c s).rst = s.rst := rfl
@[simp] theorem descendTo_turns (b : Bool) (c : Index) (s : State) : (descendTo b c s).turns = s.turns := rfl
@[simp] theorem descendTo_beats (b : Bool) (c : Index) (s : State) : (descendTo b c s).beats = s.beats.tail := rfl
@[simp] theorem descendTo_ready (b : Bool) (c : Index) (s : State) : (descendTo b c s).ready = s.ready := rfl
@[simp] theorem descendTo_taken (b : Bool) (c : Index) (s : State) : (descendTo b c s).taken = s.taken ++ [b] := rfl
@[simp] theorem descendTo_out (b : Bool) (c : Index) (s : State) : (descendTo b c s).out = s.out := rfl
@[simp] theorem descendTo_reads (b : Bool) (c : Index) (s : State) : (descendTo b c s).reads = s.reads := rfl
@[simp] theorem descendTo_draws (b : Bool) (c : Index) (s : State) : (descendTo b c s).draws = s.draws := rfl
@[simp] theorem descendTo_stream (b : Bool) (c : Index) (s : State) : (descendTo b c s).stream = s.stream := rfl

/-! `endOfStream` -/

@[simp] theorem endOfStream_state (s : State) : (endOfStream s).state = .done := rfl
@[simp] theorem endOfStream_err (s : State) : (endOfStream s).err = s.err := rfl
@[simp] theorem endOfStream_wrbusy (s : State) : (endOfStream s).wrbusy = s.wrbusy := rfl
@[simp] theorem endOfStream_cmdign (s : State) : (endOfStream s).cmdign = s.cmdign := rfl
@[simp] theorem endOfStream_badcmd (s : State) : (endOfStream s).badcmd = s.badcmd := rfl
@[simp] theorem endOfStream_root (s : State) : (endOfStream s).root = s.root := rfl
@[simp] theorem endOfStream_eos (s : State) : (endOfStream s).eos = s.eos := rfl
@[simp] theorem endOfStream_cur (s : State) : (endOfStream s).cur = s.cur := rfl
@[simp] theorem endOfStream_bitcnt (s : State) : (endOfStream s).bitcnt = s.bitcnt := rfl
@[simp] theorem endOfStream_symcnt (s : State) : (endOfStream s).symcnt = s.symcnt := rfl
@[simp] theorem endOfStream_outsym (s : State) : (endOfStream s).outsym = s.outsym := rfl
@[simp] theorem endOfStream_nodes (s : State) : (endOfStream s).nodes = s.nodes := rfl
@[simp] theorem endOfStream_rst (s : State) : (endOfStream s).rst = s.rst := rfl
@[simp] theorem endOfStream_turns (s : State) : (endOfStream s).turns = s.turns := rfl
@[simp] theorem endOfStream_beats (s : State) : (endOfStream s).beats = s.beats := rfl
@[simp] theorem endOfStream_ready (s : State) : (endOfStream s).ready = s.ready := rfl
@[simp] theorem endOfStream_taken (s : State) : (endOfStream s).taken = s.taken := rfl
@[simp] theorem endOfStream_out (s : State) : (endOfStream s).out = s.out := rfl
@[simp] theorem endOfStream_reads (s : State) : (endOfStream s).reads = s.reads := rfl
@[simp] theorem endOfStream_draws (s : State) : (endOfStream s).draws = s.draws := rfl
@[simp] theorem endOfStream_stream (s : State) : (endOfStream s).stream = s.stream := rfl

/-! `offerSymbol` -/

@[simp] theorem offerSymbol_state (y : SymId) (s : State) : (offerSymbol y s).state = .emitted := rfl
@[simp] theorem offerSymbol_err (y : SymId) (s : State) : (offerSymbol y s).err = s.err := rfl
@[simp] theorem offerSymbol_wrbusy (y : SymId) (s : State) : (offerSymbol y s).wrbusy = s.wrbusy := rfl
@[simp] theorem offerSymbol_cmdign (y : SymId) (s : State) : (offerSymbol y s).cmdign = s.cmdign := rfl
@[simp] theorem offerSymbol_badcmd (y : SymId) (s : State) : (offerSymbol y s).badcmd = s.badcmd := rfl
@[simp] theorem offerSymbol_root (y : SymId) (s : State) : (offerSymbol y s).root = s.root := rfl
@[simp] theorem offerSymbol_eos (y : SymId) (s : State) : (offerSymbol y s).eos = s.eos := rfl
@[simp] theorem offerSymbol_cur (y : SymId) (s : State) : (offerSymbol y s).cur = s.cur := rfl
@[simp] theorem offerSymbol_bitcnt (y : SymId) (s : State) : (offerSymbol y s).bitcnt = s.bitcnt := rfl
@[simp] theorem offerSymbol_symcnt (y : SymId) (s : State) : (offerSymbol y s).symcnt = s.symcnt := rfl
@[simp] theorem offerSymbol_outsym (y : SymId) (s : State) : (offerSymbol y s).outsym = y := rfl
@[simp] theorem offerSymbol_nodes (y : SymId) (s : State) : (offerSymbol y s).nodes = s.nodes := rfl
@[simp] theorem offerSymbol_rst (y : SymId) (s : State) : (offerSymbol y s).rst = s.rst := rfl
@[simp] theorem offerSymbol_turns (y : SymId) (s : State) : (offerSymbol y s).turns = s.turns := rfl
@[simp] theorem offerSymbol_beats (y : SymId) (s : State) : (offerSymbol y s).beats = s.beats := rfl
@[simp] theorem offerSymbol_ready (y : SymId) (s : State) : (offerSymbol y s).ready = s.ready := rfl
@[simp] theorem offerSymbol_taken (y : SymId) (s : State) : (offerSymbol y s).taken = s.taken := rfl
@[simp] theorem offerSymbol_out (y : SymId) (s : State) : (offerSymbol y s).out = s.out := rfl
@[simp] theorem offerSymbol_reads (y : SymId) (s : State) : (offerSymbol y s).reads = s.reads := rfl
@[simp] theorem offerSymbol_draws (y : SymId) (s : State) : (offerSymbol y s).draws = s.draws := rfl
@[simp] theorem offerSymbol_stream (y : SymId) (s : State) : (offerSymbol y s).stream = s.stream := rfl

/-! `acceptSymbol` -/

@[simp] theorem acceptSymbol_state (s : State) : (acceptSymbol s).state = .atRoot := rfl
@[simp] theorem acceptSymbol_err (s : State) : (acceptSymbol s).err = s.err := rfl
@[simp] theorem acceptSymbol_wrbusy (s : State) : (acceptSymbol s).wrbusy = s.wrbusy := rfl
@[simp] theorem acceptSymbol_cmdign (s : State) : (acceptSymbol s).cmdign = s.cmdign := rfl
@[simp] theorem acceptSymbol_badcmd (s : State) : (acceptSymbol s).badcmd = s.badcmd := rfl
@[simp] theorem acceptSymbol_root (s : State) : (acceptSymbol s).root = s.root := rfl
@[simp] theorem acceptSymbol_eos (s : State) : (acceptSymbol s).eos = s.eos := rfl
@[simp] theorem acceptSymbol_cur (s : State) : (acceptSymbol s).cur = s.root := rfl
@[simp] theorem acceptSymbol_bitcnt (s : State) : (acceptSymbol s).bitcnt = s.bitcnt := rfl
@[simp] theorem acceptSymbol_symcnt (s : State) : (acceptSymbol s).symcnt = s.symcnt + 1#32 := rfl
@[simp] theorem acceptSymbol_outsym (s : State) : (acceptSymbol s).outsym = s.outsym := rfl
@[simp] theorem acceptSymbol_nodes (s : State) : (acceptSymbol s).nodes = s.nodes := rfl
@[simp] theorem acceptSymbol_rst (s : State) : (acceptSymbol s).rst = s.rst := rfl
@[simp] theorem acceptSymbol_turns (s : State) : (acceptSymbol s).turns = s.turns := rfl
@[simp] theorem acceptSymbol_beats (s : State) : (acceptSymbol s).beats = s.beats := rfl
@[simp] theorem acceptSymbol_ready (s : State) : (acceptSymbol s).ready = s.ready.tail := rfl
@[simp] theorem acceptSymbol_taken (s : State) : (acceptSymbol s).taken = s.taken := rfl
@[simp] theorem acceptSymbol_out (s : State) : (acceptSymbol s).out = s.out ++ [s.outsym] := rfl
@[simp] theorem acceptSymbol_reads (s : State) : (acceptSymbol s).reads = s.reads := rfl
@[simp] theorem acceptSymbol_draws (s : State) : (acceptSymbol s).draws = s.draws := rfl
@[simp] theorem acceptSymbol_stream (s : State) : (acceptSymbol s).stream = s.stream := rfl

end Sys2Proof.Machine
end

