-- ==== Sys2Proof/Laws/Ops.lean ====
section
/-! SUPPORT. One lemma for each shared operation: everything it can do. -/

namespace Sys2Proof.Machine

/-- At an entry of the kind, `onNode` is its effect. -/
theorem onNode_at {k : NodeKind} {f : Word → State → Result} {s : State} {w : Word} (hw : s.walking = true)
    (hn : s.nodeRead s.cur = some w) (hk : kindOf w = k) : onNode k f s = f w s := by
  simp [onNode, hw, hn, hk]

/-- At an unwritten entry it faults. -/
theorem onNode_unwritten {k : NodeKind} {f : Word → State → Result} {s : State} (hw : s.walking = true)
    (hn : s.nodeRead s.cur = none) : onNode k f s = .fault .uninitNode := by
  simp [onNode, hw, hn]

/-- At an entry of another kind nothing changes. -/
theorem onNode_other {k : NodeKind} {f : Word → State → Result} {s : State} {w : Word}
    (hn : s.nodeRead s.cur = some w) (hk : kindOf w ≠ k) : onNode k f s = .next s := by
  simp [onNode, hn, hk, hold]

/-- Outside AT_ROOT and DESCENDING nothing changes. -/
theorem onNode_elsewhere {k : NodeKind} {f : Word → State → Result} {s : State} (hw : s.walking = false) :
    onNode k f s = .next s := by
  simp [onNode, hw, hold]

/-- At a leaf of the relation, `onLeaf` is its effect. -/
theorem onLeaf_at {r : SymRel} {f : Word → State → Result} {s : State} {w : Word} (hw : s.walking = true)
    (hn : s.nodeRead s.cur = some w) (hk : kindOf w = .leaf) (hr : symRel (symOf w) s.eos = r) :
    onLeaf r f s = f w s := by
  rw [onLeaf, onNode_at hw hn hk, if_pos hr]

/-- In EMITTED, `onEmitted` is its effect. -/
theorem onEmitted_at {f : State → Result} {s : State} (h : s.state = .emitted) : onEmitted f s = f s := by
  simp [onEmitted, h]

theorem onEmitted_elsewhere {f : State → Result} {s : State} (h : s.state ≠ .emitted) : onEmitted f s = .next s := by
  simp [onEmitted, h, hold]

/-- `lockedWrite` when no session is active. -/
theorem lockedWrite_inactive {f : State → State} {s : State} (h : s.active = false) : lockedWrite f s = f s := by
  simp [lockedWrite, h]

/-- `lockedWrite` while a session is active. -/
theorem lockedWrite_active {f : State → State} {s : State} (h : s.active = true) :
    lockedWrite f s = { s with wrbusy := true } := by
  simp [lockedWrite, h]

/-! Symbols against EOS. -/

theorem symRel_isEos {sym eos : SymId} : symRel sym eos = .isEos ↔ sym = eos := by
  unfold symRel
  by_cases h : sym = eos
  · simp [h]
  · by_cases h' : sym.toNat < eos.toNat <;> simp [h, h']

theorem symRel_isData {sym eos : SymId} : symRel sym eos = .isData ↔ sym.toNat < eos.toNat := by
  unfold symRel
  by_cases h : sym = eos
  · simp [h]
  · by_cases h' : sym.toNat < eos.toNat <;> simp [h, h']

theorem symRel_isBad {sym eos : SymId} : symRel sym eos = .isBad ↔ eos.toNat < sym.toNat := by
  unfold symRel
  by_cases h : sym = eos
  · simp [h]
  · have hne : sym.toNat ≠ eos.toNat := fun e => h (BitVec.eq_of_toNat_eq e)
    by_cases h' : sym.toNat < eos.toNat <;> simp [h, h'] <;> omega

/-! Kinds by their two bits. -/

theorem kindOf_eq (w : Word) :
    (kindOf w = .empty ↔ w.extractLsb' 30 2 = 0b00#2) ∧ (kindOf w = .internal ↔ w.extractLsb' 30 2 = 0b01#2)
    ∧ (kindOf w = .leaf ↔ w.extractLsb' 30 2 = 0b10#2) ∧ (kindOf w = .reserved ↔ w.extractLsb' 30 2 = 0b11#2) := by
  have h : ∀ v : BitVec 2, v = 0b00#2 ∨ v = 0b01#2 ∨ v = 0b10#2 ∨ v = 0b11#2 := by decide
  rcases h (w.extractLsb' 30 2) with h | h | h | h <;> simp [kindOf, h]

/-! Sessions. -/

theorem State.active_of_walking {s : State} (h : s.walking = true) : s.active = true := by
  cases hs : s.state <;> simp_all [State.walking, State.active]

theorem State.walking_of_active {s : State} (h : s.active = true) (he : s.state ≠ .emitted) : s.walking = true := by
  cases hs : s.state <;> simp_all [State.walking, State.active]

theorem State.walking_iff {s : State} : s.walking = true ↔ s.state = .atRoot ∨ s.state = .descending := by
  cases hs : s.state <;> simp [State.walking, hs]

theorem State.active_iff {s : State} :
    s.active = true ↔ s.state = .atRoot ∨ s.state = .descending ∨ s.state = .emitted := by
  cases hs : s.state <;> simp [State.active, hs]

theorem State.active_false_iff {s : State} :
    s.active = false ↔ s.state = .idle ∨ s.state = .done ∨ s.state = .error := by
  cases hs : s.state <;> simp [State.active, hs]

end Sys2Proof.Machine
end

