-- ==== Sys2Proof/Laws/Decode.lean ====
section
/-! SUPPORT. Fields of concatenated words, the address map, and decoding what each part of the encoder gives. -/

namespace Sys2Proof

open Sys2Proof.Machine

/-! Fields of a concatenation. -/

theorem extract_append_low {m n : Nat} (x : BitVec m) (y : BitVec n) : (x ++ y).extractLsb' 0 n = y := by
  apply BitVec.eq_of_getLsbD_eq
  intro i hi
  simp [BitVec.getLsbD_append, hi]

theorem extract_append_high {m n : Nat} (x : BitVec m) (y : BitVec n) : (x ++ y).extractLsb' n m = x := by
  apply BitVec.eq_of_getLsbD_eq
  intro i hi
  simp [BitVec.getLsbD_append, hi]

/-- A field that lies in the high part. -/
theorem extract_append_inHigh {m n k l : Nat} (x : BitVec m) (y : BitVec n) :
    (x ++ y).extractLsb' (n + k) l = x.extractLsb' k l := by
  apply BitVec.eq_of_getLsbD_eq
  intro i hi
  simp [BitVec.getLsbD_append, hi, Nat.add_assoc]

/-- A word is its two parts. -/
theorem append_extract {m n : Nat} (w : BitVec (m + n)) : w.extractLsb' n m ++ w.extractLsb' 0 n = w := by
  apply BitVec.eq_of_getLsbD_eq
  intro i hi
  simp only [BitVec.getLsbD_append, BitVec.getLsbD_extractLsb']
  by_cases h : i < n
  · simp [h]
  · have h1 : i - n < m := by omega
    have h2 : n + (i - n) = i := by omega
    simp [h, h1, h2]

/-! Node entries. -/

theorem internalWord_fields (rsv : BitVec 10) (right left : Index) :
    (internalWord rsv right left).extractLsb' 30 2 = 0b01#2
    ∧ (internalWord rsv right left).extractLsb' 20 10 = rsv
    ∧ (internalWord rsv right left).extractLsb' 10 10 = right
    ∧ (internalWord rsv right left).extractLsb' 0 10 = left := by
  refine ⟨?_, ?_, ?_, extract_append_low _ _⟩
  · exact (extract_append_inHigh (k := 20) ((0b01#2 ++ rsv) ++ right) left).trans
      ((extract_append_inHigh (k := 10) (0b01#2 ++ rsv) right).trans (extract_append_high _ _))
  · exact (extract_append_inHigh (k := 10) ((0b01#2 ++ rsv) ++ right) left).trans
      ((extract_append_inHigh (k := 0) (0b01#2 ++ rsv) right).trans (extract_append_low _ _))
  · exact (extract_append_inHigh (k := 0) ((0b01#2 ++ rsv) ++ right) left).trans (extract_append_low _ _)

theorem leafWord_fields (rsv : BitVec 21) (sym : SymId) :
    (leafWord rsv sym).extractLsb' 30 2 = 0b10#2 ∧ (leafWord rsv sym).extractLsb' 9 21 = rsv
    ∧ (leafWord rsv sym).extractLsb' 0 9 = sym := by
  refine ⟨?_, ?_, extract_append_low _ _⟩
  · exact (extract_append_inHigh (k := 21) (0b10#2 ++ rsv) sym).trans (extract_append_high _ _)
  · exact (extract_append_inHigh (k := 0) (0b10#2 ++ rsv) sym).trans (extract_append_low _ _)

theorem emptyWord_fields (rsv : BitVec 30) :
    (emptyWord rsv).extractLsb' 30 2 = 0b00#2 ∧ (emptyWord rsv).extractLsb' 0 30 = rsv :=
  ⟨extract_append_high _ _, extract_append_low _ _⟩

theorem reservedWord_fields (rsv : BitVec 30) :
    (reservedWord rsv).extractLsb' 30 2 = 0b11#2 ∧ (reservedWord rsv).extractLsb' 0 30 = rsv :=
  ⟨extract_append_high _ _, extract_append_low _ _⟩

/-! The address map. -/

@[simp] theorem nodeIndexOf_nodeAddr (i : Index) : nodeIndexOf (nodeAddr i) = i := extract_append_low (1#1) i

theorem nodeAddr_toNat (i : Index) : (nodeAddr i).toNat = 1024 + i.toNat := by
  have h := BitVec.toNat_append (1#1) i
  have hor := Nat.two_pow_add_eq_or_of_lt (i := 10) i.isLt 1
  have hdef : (nodeAddr i).toNat = (1#1 ++ i).toNat := rfl
  rw [hdef, h]
  simp at hor ⊢
  omega

theorem nodeAddr_nodeIndexOf {a : HostAddr} (h : 0x400 ≤ a.toNat) : nodeAddr (nodeIndexOf a) = a := by
  apply BitVec.eq_of_toNat_eq
  rw [nodeAddr_toNat]
  have := a.isLt
  simp [nodeIndexOf, BitVec.extractLsb'_toNat]
  omega

/-- The register addresses are 0 to 6 (10_state.md R18). -/
theorem registerAddr_cases {a : HostAddr} (h : a.toNat < 7) :
    a = 0#11 ∨ a = 1#11 ∨ a = 2#11 ∨ a = 3#11 ∨ a = 4#11 ∨ a = 5#11 ∨ a = 6#11 := by
  have hn : ∀ n, n < 7 → n = 0 ∨ n = 1 ∨ n = 2 ∨ n = 3 ∨ n = 4 ∨ n = 5 ∨ n = 6 := by omega
  rcases hn _ h with h | h | h | h | h | h | h <;> simp [← BitVec.toNat_inj, h]

theorem ne_registerAddr {a : HostAddr} (h : 7 ≤ a.toNat) {n : Nat} (hn : n < 7) : a ≠ BitVec.ofNat 11 n := by
  intro e
  have := congrArg BitVec.toNat e
  simp at this
  omega

theorem targetOf_unmapped {a : HostAddr} (h : 7 ≤ a.toNat) (h' : a.toNat < 0x400) : targetOf a = .unmapped a := by
  have hne : ∀ n : Nat, n < 7 → a ≠ BitVec.ofNat 11 n := fun n hn => ne_registerAddr h hn
  simp [targetOf, hne, h']

theorem targetOf_node {a : HostAddr} (h : 0x400 ≤ a.toNat) : targetOf a = .node (nodeIndexOf a) := by
  have hne : ∀ n : Nat, n < 7 → a ≠ BitVec.ofNat 11 n := fun n hn => ne_registerAddr (by omega) hn
  have hge : ¬ a.toNat < 1024 := by omega
  simp [targetOf, hne, hge]

@[simp] theorem targetOf_nodeAddr (i : Index) : targetOf (nodeAddr i) = .node i := by
  rw [targetOf_node (by rw [nodeAddr_toNat]; omega), nodeIndexOf_nodeAddr]

/-! Decoding what the encoder's parts give. -/

theorem busWord_pins (hwe : Bool) (a : HostAddr) :
    (busWord hwe a).toNat.testBit 11 = hwe ∧ BitVec.ofNat 11 (busWord hwe a).toNat = a := by
  constructor
  · rw [BitVec.testBit_toNat]
    have : (BitVec.ofBool hwe ++ a).getLsbD 11 = hwe := by
      rw [BitVec.getLsbD_append]
      simp
    exact this
  · have h := congrArg BitVec.toNat (extract_append_low (BitVec.ofBool hwe) a)
    apply BitVec.eq_of_toNat_eq
    rw [← h]
    simp [BitVec.extractLsb'_toNat]
    rfl

theorem decodeEncoded_ofBus (hwe : Bool) (a : HostAddr) (d : Word) :
    decodeEncoded (.ofBus hwe a d) = .instr (decodeBus hwe a d) := by
  have hlt := (busWord hwe a).isLt
  obtain ⟨h1, h2⟩ := busWord_pins hwe a
  simp [decodeEncoded, Encoded.ofBus, decode, Format.width, hlt, decodeBits, h1, h2]

theorem decodeEncoded_ofCmd (rsv : BitVec 28) (op : BitVec 4) :
    decodeEncoded (.ofCmd rsv op) = .instr (decodeCmd (rsv ++ op)) := by
  have hlt := (rsv ++ op).isLt
  have h : BitVec.ofNat 32 (rsv ++ op).toNat = rsv ++ op := BitVec.eq_of_toNat_eq (by simp)
  simp [decodeEncoded, Encoded.ofCmd, decode, Format.width, hlt, decodeBits, h]

theorem decodeEncoded_ofNode (w : Word) : decodeEncoded (.ofNode w) = .instr (decodeNode w) := by
  have hlt := w.isLt
  simp [decodeEncoded, Encoded.ofNode, decode, Format.width, hlt, decodeBits]

theorem decodeEncoded_ofBeat (p : BeatPins) : decodeEncoded (.ofBeat p) = .instr (decodeBeat p) := by
  obtain ⟨a, b, c⟩ := p
  cases a <;> cases b <;> cases c <;> rfl

theorem decodeEncoded_ofStep (k : NodeKind) (p : BeatPins) (r : SymRel) :
    decodeEncoded (.ofStep k p r) = .instr (decodeStep k p r) := by
  obtain ⟨a, b, c⟩ := p
  cases k <;> cases a <;> cases b <;> cases c <;> cases r <;> decide

/-- A 12-bit host access word is its two pins. -/
theorem busWord_of_pins {w : Nat} (h : w < 2 ^ 12) : (busWord (w.testBit 11) (BitVec.ofNat 11 w)).toNat = w := by
  have hsplit := append_extract (m := 1) (n := 11) (BitVec.ofNat 12 w)
  have hhigh : (BitVec.ofNat 12 w).extractLsb' 11 1 = BitVec.ofBool (w.testBit 11) := by
    apply BitVec.eq_of_getLsbD_eq
    intro i hi
    have : i = 0 := by omega
    subst this
    simp
    rw [← BitVec.getLsbD_eq_getElem, BitVec.getLsbD_ofNat]
    simp
  have hlow : (BitVec.ofNat 12 w).extractLsb' 0 11 = BitVec.ofNat 11 w := by
    apply BitVec.eq_of_toNat_eq
    simp [BitVec.extractLsb'_toNat]
  rw [hhigh, hlow] at hsplit
  have := congrArg BitVec.toNat hsplit
  rw [BitVec.toNat_ofNat, Nat.mod_eq_of_lt h] at this
  exact this

end Sys2Proof
end

