-- ==== Sys2Proof/Laws/Effects.lean ====
section
/-! SUPPORT. What a step can do, said once: the effect of a decoder move, of a host access, and of a step. Later proofs
take these apart instead of unfolding `step` and `exec`. -/

namespace Sys2Proof.Machine

/-- Everything a decoder move can do (41_decode_steps.md R102, 70_reset_and_hazards.md R155). -/
inductive DecoderEffect (s : State) : State → Prop where
  | still (h : s.rst = true ∨ s.active = false) : DecoderEffect s s
  | bit (w : Word) (b : Bool) (hr : s.rst = false) (hw : s.walking = true) (hn : s.nodeRead s.cur = some w)
      (hk : kindOf w = .internal) (hb : beatOf s.offered = .bit b) : DecoderEffect s (descendTo b (childOf b w) s)
  | exhaust (w : Word) (hr : s.rst = false) (hw : s.walking = true) (hn : s.nodeRead s.cur = some w)
      (hk : kindOf w = .internal) (hb : beatOf s.offered = .eof) : DecoderEffect s (raiseError .exhausted (useBeat s))
  | stall (w : Word) (hr : s.rst = false) (hw : s.walking = true) (hn : s.nodeRead s.cur = some w)
      (hk : kindOf w = .internal) (hb : beatOf s.offered = .stall) : DecoderEffect s (useBeat s)
  | leafEos (w : Word) (hr : s.rst = false) (hw : s.walking = true) (hn : s.nodeRead s.cur = some w)
      (hk : kindOf w = .leaf) (hy : symOf w = s.eos) : DecoderEffect s (endOfStream s)
  | leafData (w : Word) (hr : s.rst = false) (hw : s.walking = true) (hn : s.nodeRead s.cur = some w)
      (hk : kindOf w = .leaf) (hy : (symOf w).toNat < s.eos.toNat) : DecoderEffect s (offerSymbol (symOf w) s)
  | leafBadsym (w : Word) (hr : s.rst = false) (hw : s.walking = true) (hn : s.nodeRead s.cur = some w)
      (hk : kindOf w = .leaf) (hy : s.eos.toNat < (symOf w).toNat) : DecoderEffect s (raiseError .badSym s)
  | badNode (w : Word) (hr : s.rst = false) (hw : s.walking = true) (hn : s.nodeRead s.cur = some w)
      (hk : missingKind (kindOf w) = true) : DecoderEffect s (raiseError .badNode s)
  | emit (hr : s.rst = false) (he : s.state = .emitted) (hy : s.symReady = true) : DecoderEffect s (acceptSymbol s)
  | emitHold (hr : s.rst = false) (he : s.state = .emitted) (hy : s.symReady = false) : DecoderEffect s (useReady s)

/-- The answer of a decoder move when it examines a written entry, by the entry's word. -/
theorem decoderTurn_walking {s : State} {w : Word} (hr : s.rst = false) (hw : s.walking = true)
    (hn : s.nodeRead s.cur = some w) :
    decoderTurn s = exec (decodeStep (kindOf w) s.offered (symRel (symOf w) s.eos)) s := by
  rcases State.walking_iff.1 hw with h | h <;> simp [decoderTurn, decoderFetch, hr, h, hn, runFetched]

theorem decoderTurn_unwritten {s : State} (hr : s.rst = false) (hw : s.walking = true)
    (hn : s.nodeRead s.cur = none) : decoderTurn s = .fault .uninitNode := by
  rcases State.walking_iff.1 hw with h | h <;> simp [decoderTurn, decoderFetch, hr, h, hn, runFetched]

theorem decoderTurn_emitted {s : State} (hr : s.rst = false) (he : s.state = .emitted) :
    decoderTurn s = exec (decodeSink s.symReady) s := by
  simp [decoderTurn, decoderFetch, hr, he, runFetched]

theorem decoderTurn_still {s : State} (h : s.rst = true ∨ s.active = false) : decoderTurn s = .next s := by
  rcases h with h | h
  · simp [decoderTurn, decoderFetch, h, runFetched]
  · by_cases hr : s.rst = true
    · simp [decoderTurn, decoderFetch, hr, runFetched]
    · rcases State.active_false_iff.1 h with h | h | h <;> simp [decoderTurn, decoderFetch, hr, h, runFetched]

theorem beatOf_bit {p : BeatPins} {b : Bool} (h : beatOf p = .bit b) : p.valid = true ∧ p.data = b := by
  obtain ⟨e, v, d⟩ := p
  cases v <;> cases e <;> simp_all [beatOf]

/-- A decoder move at an INTERNAL entry. -/
theorem decoderTurn_internal {s : State} {w : Word} (hr : s.rst = false) (hw : s.walking = true)
    (hn : s.nodeRead s.cur = some w) (hk : kindOf w = .internal) :
    decoderTurn s = .next
      (match beatOf s.offered with
        | .bit b => descendTo b (childOf b w) s
        | .eof => raiseError .exhausted (useBeat s)
        | .stall => useBeat s) := by
  rw [decoderTurn_walking hr hw hn]
  cases hb : beatOf s.offered with
  | bit b =>
    cases b <;>
      simp [hk, decodeStep, hb, exec, execStepBit0, execStepBit1, onNode_at hw hn hk]
  | eof => simp [hk, decodeStep, hb, exec, execStepExhaust, onNode_at hw hn hk]
  | stall => simp [hk, decodeStep, hb, exec, execStepStall, onNode_at hw hn hk]

/-- A decoder move at a LEAF. -/
theorem decoderTurn_leaf {s : State} {w : Word} (hr : s.rst = false) (hw : s.walking = true)
    (hn : s.nodeRead s.cur = some w) (hk : kindOf w = .leaf) :
    decoderTurn s = .next (resolveLeaf (symOf w) s) := by
  rw [decoderTurn_walking hr hw hn]
  cases hy : symRel (symOf w) s.eos <;>
    simp [hk, decodeStep, hy, exec, execStepLeafEos, execStepLeafData, execStepLeafBadsym,
      onLeaf_at hw hn hk hy, resolveLeaf]

/-- A decoder move at an EMPTY or RESERVED entry. -/
theorem decoderTurn_missing {s : State} {w : Word} (hr : s.rst = false) (hw : s.walking = true)
    (hn : s.nodeRead s.cur = some w) (hk : missingKind (kindOf w) = true) :
    decoderTurn s = .next (raiseError .badNode s) := by
  rw [decoderTurn_walking hr hw hn]
  cases hkw : kindOf w <;> simp_all [missingKind, decodeStep, exec, execStepBadnode, onNode_at hw hn hkw]

/-- A decoder move in EMITTED. -/
theorem decoderTurn_sink {s : State} (hr : s.rst = false) (he : s.state = .emitted) :
    decoderTurn s = .next (if s.symReady then acceptSymbol s else useReady s) := by
  rw [decoderTurn_emitted hr he]
  cases s.symReady <;> simp [decodeSink, exec, execStepEmit, execStepEmitHold, onEmitted_at he]

/-- Inversion: a decoder move that answers a next state has one of the effects above. -/
theorem decoderTurn_effect {s t : State} (h : decoderTurn s = .next t) : DecoderEffect s t := by
  by_cases hr : s.rst = true
  · rw [decoderTurn_still (.inl hr)] at h; cases h; exact .still (.inl hr)
  rw [Bool.not_eq_true] at hr
  by_cases ha : s.active = true
  · by_cases he : s.state = .emitted
    · rw [decoderTurn_sink hr he] at h
      cases hy : s.symReady <;> simp [hy] at h <;> subst h
      · exact .emitHold hr he hy
      · exact .emit hr he hy
    · have hw := State.walking_of_active ha he
      cases hn : s.nodeRead s.cur with
      | none => rw [decoderTurn_unwritten hr hw hn] at h; cases h
      | some w =>
        cases hk : kindOf w with
        | internal =>
          rw [decoderTurn_internal hr hw hn hk] at h
          cases hb : beatOf s.offered <;> rw [hb] at h <;> cases h
          · exact .bit w _ hr hw hn hk hb
          · exact .exhaust w hr hw hn hk hb
          · exact .stall w hr hw hn hk hb
        | leaf =>
          rw [decoderTurn_leaf hr hw hn hk] at h
          cases hy : symRel (symOf w) s.eos <;> simp only [resolveLeaf, hy] at h <;> cases h
          · exact .leafEos w hr hw hn hk (symRel_isEos.1 hy)
          · exact .leafData w hr hw hn hk (symRel_isData.1 hy)
          · exact .leafBadsym w hr hw hn hk (symRel_isBad.1 hy)
        | empty =>
          rw [decoderTurn_missing hr hw hn (by rw [hk]; rfl)] at h; cases h
          exact .badNode w hr hw hn (by rw [hk]; rfl)
        | reserved =>
          rw [decoderTurn_missing hr hw hn (by rw [hk]; rfl)] at h; cases h
          exact .badNode w hr hw hn (by rw [hk]; rfl)
  · rw [Bool.not_eq_true] at ha
    rw [decoderTurn_still (.inr ha)] at h; cases h; exact .still (.inr ha)

/-- A decoder move never refuses, and it faults exactly where it is to examine an unwritten entry. -/
theorem decoderTurn_not_refused (s : State) (r : Refusal) : decoderTurn s ≠ .refused r := by
  by_cases hr : s.rst = true
  · rw [decoderTurn_still (.inl hr)]; exact nofun
  rw [Bool.not_eq_true] at hr
  by_cases ha : s.active = true
  · by_cases he : s.state = .emitted
    · rw [decoderTurn_sink hr he]; exact nofun
    · have hw := State.walking_of_active ha he
      cases hn : s.nodeRead s.cur with
      | none => rw [decoderTurn_unwritten hr hw hn]; exact nofun
      | some w =>
        cases hk : kindOf w with
        | internal => rw [decoderTurn_internal hr hw hn hk]; exact nofun
        | leaf => rw [decoderTurn_leaf hr hw hn hk]; exact nofun
        | empty => rw [decoderTurn_missing hr hw hn (by rw [hk]; rfl)]; exact nofun
        | reserved => rw [decoderTurn_missing hr hw hn (by rw [hk]; rfl)]; exact nofun
  · rw [Bool.not_eq_true] at ha
    rw [decoderTurn_still (.inr ha)]; exact nofun

theorem decoderTurn_fault {s : State} {f : Fault} (h : decoderTurn s = .fault f) :
    s.rst = false ∧ s.walking = true ∧ s.nodeRead s.cur = none := by
  by_cases hr : s.rst = true
  · rw [decoderTurn_still (.inl hr)] at h; cases h
  rw [Bool.not_eq_true] at hr
  by_cases ha : s.active = true
  · by_cases he : s.state = .emitted
    · rw [decoderTurn_sink hr he] at h; cases h
    · have hw := State.walking_of_active ha he
      cases hn : s.nodeRead s.cur with
      | none => exact ⟨hr, hw, rfl⟩
      | some w =>
        cases hk : kindOf w with
        | internal => rw [decoderTurn_internal hr hw hn hk] at h; cases h
        | leaf => rw [decoderTurn_leaf hr hw hn hk] at h; cases h
        | empty => rw [decoderTurn_missing hr hw hn (by rw [hk]; rfl)] at h; cases h
        | reserved => rw [decoderTurn_missing hr hw hn (by rw [hk]; rfl)] at h; cases h
  · rw [Bool.not_eq_true] at ha
    rw [decoderTurn_still (.inr ha)] at h; cases h

/-- Everything the instruction of a host access can do (40_host_ops.md). -/
inductive HostEffect (s : State) : Instr → State → Prop where
  | read (i : Instr) (v : Word) : HostEffect s i (returnRead v s)
  | draw (i : Instr) : HostEffect s i (returnDraw s)
  | ignored (i : Instr) : HostEffect s i s
  | dropped (i : Instr) (ha : s.active = true)
      (hi : ∃ d, i = .wrRoot d ∨ i = .wrEos d ∨ ∃ n, i = .wrNode n d) : HostEffect s i { s with wrbusy := true }
  | root (d : Word) (ha : s.active = false) : HostEffect s (.wrRoot d) { s with root := rootOperand d }
  | eos (d : Word) (ha : s.active = false) : HostEffect s (.wrEos d) { s with eos := eosOperand d }
  | node (n : Index) (d : Word) (ha : s.active = false) : HostEffect s (.wrNode n d) (s.nodeWrite n d)
  | startIgnored (d : Word) (ho : opOf d = 0x1#4) (ha : s.active = true) : HostEffect s (.wrCmd d) (setCmdign s)
  | startSession (d : Word) (w : Word) (ho : opOf d = 0x1#4) (ha : s.active = false)
      (hn : s.nodeRead s.root = some w) (hk : kindOf w = .internal) :
      HostEffect s (.wrCmd d) { beginSession s with state := .atRoot }
  | startBadRoot (d : Word) (w : Word) (ho : opOf d = 0x1#4) (ha : s.active = false)
      (hn : s.nodeRead s.root = some w) (hk : kindOf w ≠ .internal) :
      HostEffect s (.wrCmd d) (raiseError .badRoot (beginSession s))
  | abort (d : Word) (ho : opOf d = 0x2#4) : HostEffect s (.wrCmd d) (leaveSession s)
  | clrf (d : Word) (ho : opOf d = 0x3#4) : HostEffect s (.wrCmd d) (clearFlags s)
  | reservedCmd (d : Word) (ho : 4 ≤ (opOf d).toNat) : HostEffect s (.wrCmd d) (setBadcmd s)

/-- The commands of a CMD write, by its opcode. -/
theorem execWrCmd_cases (d : Word) (s : State) :
    (opOf d = 0x0#4 ∧ execWrCmd d s = .next s)
    ∨ (opOf d = 0x1#4 ∧ ∀ rsv, execWrCmd d s = execStart rsv s)
    ∨ (opOf d = 0x2#4 ∧ execWrCmd d s = .next (leaveSession s))
    ∨ (opOf d = 0x3#4 ∧ execWrCmd d s = .next (clearFlags s))
    ∨ (4 ≤ (opOf d).toNat ∧ execWrCmd d s = .next (setBadcmd s)) := by
  have h : ∀ v : BitVec 4, v = 0x0#4 ∨ v = 0x1#4 ∨ v = 0x2#4 ∨ v = 0x3#4 ∨ 4 ≤ v.toNat := by decide
  rcases h (opOf d) with h | h | h | h | h
  · exact .inl ⟨h, by simp [execWrCmd, h, execNop, hold]⟩
  · exact .inr (.inl ⟨h, fun rsv => by simp [execWrCmd, h, execStart]⟩)
  · exact .inr (.inr (.inl ⟨h, by simp [execWrCmd, h, execAbort]⟩))
  · exact .inr (.inr (.inr (.inl ⟨h, by simp [execWrCmd, h, execClrf]⟩)))
  · refine .inr (.inr (.inr (.inr ⟨h, ?_⟩)))
    obtain ⟨n, hn⟩ : ∃ n, (opOf d).toNat = n + 4 := ⟨(opOf d).toNat - 4, by omega⟩
    simp [execWrCmd, hn, execCmdReserved]

/-- Inversion of START. -/
theorem execStart_cases (rsv : BitVec 28) (s : State) :
    (s.active = true ∧ execStart rsv s = .next (setCmdign s))
    ∨ (s.active = false ∧ s.nodeRead s.root = none ∧ execStart rsv s = .fault .uninitNode)
    ∨ (∃ w, s.active = false ∧ s.nodeRead s.root = some w ∧ kindOf w = .internal
        ∧ execStart rsv s = .next { beginSession s with state := .atRoot })
    ∨ (∃ w, s.active = false ∧ s.nodeRead s.root = some w ∧ kindOf w ≠ .internal
        ∧ execStart rsv s = .next (raiseError .badRoot (beginSession s))) := by
  by_cases ha : s.active = true
  · exact .inl ⟨ha, by simp [execStart, ha]⟩
  rw [Bool.not_eq_true] at ha
  cases hn : s.nodeRead s.root with
  | none => exact .inr (.inl ⟨ha, rfl, by simp [execStart, ha, hn]⟩)
  | some w =>
    by_cases hk : kindOf w = .internal
    · exact .inr (.inr (.inl ⟨w, ha, rfl, hk, by simp [execStart, ha, hn, hk]⟩))
    · exact .inr (.inr (.inr ⟨w, ha, rfl, hk, by simp [execStart, ha, hn, hk]⟩))

/-- Inversion: an instruction a host access decodes to, when it answers a next state, has one of the effects above. -/
theorem exec_bus_effect {hwe : Bool} {a : HostAddr} {d : Word} {s t : State}
    (h : exec (decodeBus hwe a d) s = .next t) : HostEffect s (decodeBus hwe a d) t := by
  have locked : ∀ (i : Instr) (f : State → State),
      (∃ d, i = .wrRoot d ∨ i = .wrEos d ∨ ∃ n, i = .wrNode n d) →
      (s.active = false → HostEffect s i (f s)) → t = lockedWrite f s → HostEffect s i t := by
    intro i f hi hf ht
    by_cases ha : s.active = true
    · rw [ht, lockedWrite_active ha]; exact .dropped i ha hi
    · rw [Bool.not_eq_true] at ha
      rw [ht, lockedWrite_inactive ha]; exact hf ha
  cases hwe <;> cases ht : targetOf a <;> simp only [decodeBus, ht, exec] at h ⊢
  case false.node i =>
    cases hn : s.nodeRead i <;> simp [execRdNode, hn] at h <;> subst h
    · exact .draw _
    · exact .read _ _
  case true.cmd =>
    rcases execWrCmd_cases d s with ⟨-, e⟩ | ⟨ho, e⟩ | ⟨ho, e⟩ | ⟨ho, e⟩ | ⟨ho, e⟩
    · rw [e] at h; cases h; exact .ignored _
    · rw [e 0#28] at h
      rcases execStart_cases 0#28 s with ⟨ha, e⟩ | ⟨-, -, e⟩ | ⟨w, ha, hn, hk, e⟩ | ⟨w, ha, hn, hk, e⟩ <;>
        rw [e] at h <;> cases h
      · exact .startIgnored d ho ha
      · exact .startSession d w ho ha hn hk
      · exact .startBadRoot d w ho ha hn hk
    · rw [e] at h; cases h; exact .abort d ho
    · rw [e] at h; cases h; exact .clrf d ho
    · rw [e] at h; cases h; exact .reservedCmd d ho
  case true.root =>
    cases h; exact locked _ _ ⟨d, .inl rfl⟩ (fun ha => .root d ha) rfl
  case true.eos =>
    cases h; exact locked _ _ ⟨d, .inr (.inl rfl)⟩ (fun ha => .eos d ha) rfl
  case true.node n =>
    cases h; exact locked _ _ ⟨d, .inr (.inr ⟨n, rfl⟩)⟩ (fun ha => .node n d ha) rfl
  all_goals
    cases h
    first
      | exact .ignored _
      | exact .read _ _

/-- An instruction a host access decodes to answers a next state, or it is START finding ROOT unwritten. -/
theorem exec_bus_answers (hwe : Bool) (a : HostAddr) (d : Word) (s : State) :
    (∃ t, exec (decodeBus hwe a d) s = .next t)
    ∨ (exec (decodeBus hwe a d) s = .fault .uninitNode ∧ decodeBus hwe a d = .wrCmd d ∧ opOf d = 0x1#4
        ∧ s.active = false ∧ s.nodeRead s.root = none) := by
  cases hwe <;> cases ht : targetOf a <;> simp only [decodeBus, ht, exec, true_and]
  case false.node i => cases hn : s.nodeRead i <;> exact .inl ⟨_, by simp only [execRdNode, hn]; rfl⟩
  case true.cmd =>
    rcases execWrCmd_cases d s with ⟨-, e⟩ | ⟨ho, e⟩ | ⟨-, e⟩ | ⟨-, e⟩ | ⟨-, e⟩
    · exact .inl ⟨_, e⟩
    · rcases execStart_cases 0#28 s with ⟨-, e'⟩ | ⟨ha, hn, e'⟩ | ⟨_, -, -, -, e'⟩ | ⟨_, -, -, -, e'⟩
      · exact .inl ⟨_, (e 0#28).trans e'⟩
      · exact .inr ⟨(e 0#28).trans e', ho, ha, hn⟩
      · exact .inl ⟨_, (e 0#28).trans e'⟩
      · exact .inl ⟨_, (e 0#28).trans e'⟩
    · exact .inl ⟨_, e⟩
    · exact .inl ⟨_, e⟩
    · exact .inl ⟨_, e⟩
  all_goals exact .inl ⟨_, rfl⟩

/-- Everything a step can do: the reset pin, no access, an access while `rst = 1`, a host access, or a decoder move. -/
inductive StepEffect (s : State) : State → Prop where
  | pin (level : Bool) (rest : List Turn) (hm : s.turns = .rst level :: rest) :
      StepEffect s (setRst level { s with turns := rest })
  | noAccess (p : HostPins) (rest : List Turn) (hm : s.turns = .host p :: rest)
      (h : p.hsel = false ∨ s.rst = true) : StepEffect s { s with turns := rest }
  | readInReset (p : HostPins) (rest : List Turn) (hm : s.turns = .host p :: rest) (hr : s.rst = true) :
      StepEffect s (returnRead 0#32 { s with turns := rest })
  | host (p : HostPins) (rest : List Turn) (t : State) (hm : s.turns = .host p :: rest) (hs : p.hsel = true)
      (hr : s.rst = false)
      (he : HostEffect { s with turns := rest } (decodeBus p.hwe p.haddr p.hwdata) t) : StepEffect s t
  | decoder (rest : List Turn) (t : State) (hm : s.turns = .decoder :: rest ∨ (s.turns = [] ∧ rest = []))
      (he : DecoderEffect { s with turns := rest } t) : StepEffect s t

/-- A step on a decoder move. -/
theorem step_decoder {s : State} {rest : List Turn} (hm : s.turns = .decoder :: rest ∨ (s.turns = [] ∧ rest = [])) :
    step s = decoderTurn { s with turns := rest } := by
  rcases hm with h | ⟨h, hrest⟩
  · simp [step, fetch, h, decoderTurn]
  · subst hrest
    have : ({ s with turns := [] } : State) = s := by rw [← h]
    simp [step, fetch, h, decoderTurn, this]

/-- A step on a host move. -/
theorem step_host {s : State} {p : HostPins} {rest : List Turn} (hm : s.turns = .host p :: rest) :
    step s = hostTurn p { s with turns := rest } := by
  simp [step, fetch, hm, hostTurn]

theorem hostTurn_access {p : HostPins} {s : State} (hs : p.hsel = true) (hr : s.rst = false) :
    hostTurn p s = exec (decodeBus p.hwe p.haddr p.hwdata) s := by
  simp [hostTurn, hostFetch, hs, hr, runFetched]

theorem hostTurn_inReset {p : HostPins} {s : State} (hs : p.hsel = true) (hr : s.rst = true) :
    hostTurn p s = .next (if p.hwe then s else returnRead 0#32 s) := by
  simp [hostTurn, hostFetch, hs, hr, runFetched]

theorem hostTurn_none {p : HostPins} {s : State} (hs : p.hsel = false) : hostTurn p s = .next s := by
  simp [hostTurn, hostFetch, hs, runFetched]

/-- A step on a level of the reset pin. -/
theorem step_rst {s : State} {level : Bool} {rest : List Turn} (hm : s.turns = .rst level :: rest) :
    step s = .next (setRst level { s with turns := rest }) := by
  simp [step, fetch, hm, runFetched]

/-- Inversion of a step. -/
theorem step_effect {s t : State} (h : step s = .next t) : StepEffect s t := by
  cases hm : s.turns with
  | nil =>
    have hd : s.turns = .decoder :: [] ∨ (s.turns = [] ∧ ([] : List Turn) = []) := .inr ⟨hm, rfl⟩
    rw [step_decoder hd] at h
    exact .decoder [] t hd (decoderTurn_effect h)
  | cons m rest =>
    cases m with
    | decoder =>
      have hd : s.turns = .decoder :: rest ∨ (s.turns = [] ∧ rest = []) := .inl hm
      rw [step_decoder hd] at h
      exact .decoder rest t hd (decoderTurn_effect h)
    | rst level => rw [step_rst hm] at h; cases h; exact .pin level rest hm
    | host p =>
      rw [step_host hm] at h
      by_cases hs : p.hsel = true
      · by_cases hr : s.rst = true
        · rw [hostTurn_inReset (s := { s with turns := rest }) hs hr] at h
          cases hwe : p.hwe <;> simp only [hwe] at h <;> cases h
          · exact .readInReset p rest hm hr
          · exact .noAccess p rest hm (.inr hr)
        · rw [Bool.not_eq_true] at hr
          rw [hostTurn_access (s := { s with turns := rest }) hs hr] at h
          exact .host p rest t hm hs hr (exec_bus_effect h)
      · rw [Bool.not_eq_true] at hs
        rw [hostTurn_none hs] at h; cases h; exact .noAccess p rest hm (.inl hs)

end Sys2Proof.Machine
end

