-- ==== Sys2Proof/Laws/Run.lean ====
section
/-! SUPPORT. Runs of several steps, one step at a time. -/

namespace Sys2Proof.Machine

open Sys2Proof.Safety

/-- With no move pending a step is the decoder's turn (log 2). -/
theorem step_of_no_turns {s : State} (h : s.turns = []) : step s = decoderTurn s := by
  rw [step_decoder (rest := []) (.inr ⟨h, rfl⟩)]
  have : ({ s with turns := [] } : State) = s := by rw [← h]
  rw [this]

theorem coreRun_succ_of_next {M : Host.Core} {n : Nat} {s t : M.State} (h : M.step s = .next t) :
    M.run (n + 1) s = M.run n t := by
  rw [Host.Core.run, h]

theorem coreRun_succ_of_fault {M : Host.Core} {n : Nat} {s : M.State} {f : M.Fault} (h : M.step s = .fault f) :
    M.run (n + 1) s = .fault f := by
  rw [Host.Core.run, h]

theorem coreRun_add_of_next {M : Host.Core} {a b : Nat} {s t : M.State} (h : M.run a s = .next t) :
    M.run (a + b) s = M.run b t := by
  induction a generalizing s with
  | zero => cases h; simp
  | succ a ih =>
    rw [Nat.succ_add]
    cases hs : M.step s with
    | next s' => rw [coreRun_succ_of_next hs] at h ⊢; exact ih h
    | fault => rw [coreRun_succ_of_fault hs] at h; cases h
    | refused => rw [Host.Core.run, hs] at h; cases h

/-- A run's first step. -/
theorem run_succ_of_next {n : Nat} {s t : State} (h : step s = .next t) :
    Host.Core.run core (n + 1) s = Host.Core.run core n t :=
  coreRun_succ_of_next (M := core) h

theorem run_succ_of_fault {n : Nat} {s : State} {f : Fault} (h : step s = .fault f) :
    Host.Core.run core (n + 1) s = Host.Outcome.fault f :=
  coreRun_succ_of_fault (M := core) h

/-- A run in two parts. -/
theorem run_add_of_next {a b : Nat} {s t : State} (h : Host.Core.run core a s = Host.Outcome.next t) :
    Host.Core.run core (a + b) s = Host.Core.run core b t :=
  coreRun_add_of_next (M := core) h

/-- A held tree depends on node memory alone. -/
theorem holds_of_nodes_eq {s t : State} (h : t.nodes = s.nodes) {c : CodeTree} {i : Index} (hs : Holds s i c) :
    Holds t i c := by
  induction c generalizing i with
  | missing => simpa [Holds, State.nodeRead, h] using hs
  | leaf sym => simpa [Holds, State.nodeRead, h] using hs
  | node l r ihl ihr =>
    obtain ⟨w, hn, hk, hl, hr⟩ := hs
    exact ⟨w, by simpa [State.nodeRead, h] using hn, hk, ihl hl, ihr hr⟩

end Sys2Proof.Machine
end

