-- ==== Sys2Proof/Laws/Layout.lean ====
section
/-! SUPPORT. The image `placeTree` makes, and the host writes that load one. -/

namespace Sys2Proof.Machine

/-! The image. -/

theorem lt_placeTree_end (t : CodeTree) (n : Nat) : n < (placeTree t n).2 := by
  induction t generalizing n with
  | missing => simp [placeTree]
  | leaf sym => simp [placeTree]
  | node l r ihl ihr =>
    have hl := ihl (n + 1)
    have hr := ihr (placeTree l (n + 1)).2
    simp only [placeTree]
    omega

/-- The image has one entry for each index from the first to the end. -/
theorem placeTree_length (t : CodeTree) (n : Nat) : (placeTree t n).1.length + n = (placeTree t n).2 := by
  induction t generalizing n with
  | missing => simp [placeTree]; omega
  | leaf sym => simp [placeTree]; omega
  | node l r ihl ihr =>
    have hl := ihl (n + 1)
    have hr := ihr (placeTree l (n + 1)).2
    simp only [placeTree, List.length_cons, List.length_append]
    omega

/-- Two rising memories, the second above the first. -/
theorem Memory.risesFrom_append {b c : Nat} {m n : Memory} (hm : Memory.risesFrom b m = true) (hmc : ∀ e ∈ m, e.1 < c)
    (hbc : b ≤ c) (hn : Memory.risesFrom c n = true) : Memory.risesFrom b (m ++ n) = true := by
  induction m generalizing b with
  | nil =>
    cases n with
    | nil => rfl
    | cons e n =>
      simp [Memory.risesFrom] at hn ⊢
      exact ⟨⟨by omega, hn.1.2⟩, hn.2⟩
  | cons e m ih =>
    simp [Memory.risesFrom] at hm ⊢
    exact ⟨hm.1, ih hm.2 (fun e h => hmc e (by simp [h])) (hmc e (by simp))⟩

/-- The image of a tree that fits rises from its first index and stays below its end. -/
theorem placeTree_rises {t : CodeTree} {n : Nat} (h : (placeTree t n).2 ≤ Config.nodeDepth) :
    Memory.risesFrom n (placeTree t n).1 = true ∧ ∀ e ∈ (placeTree t n).1, e.1 < (placeTree t n).2 := by
  induction t generalizing n with
  | missing => simp [placeTree] at h ⊢; simp [Memory.risesFrom]; omega
  | leaf sym => simp [placeTree] at h ⊢; simp [Memory.risesFrom]; omega
  | node l r ihl ihr =>
    simp only [placeTree] at h ⊢
    have hl := lt_placeTree_end l (n + 1)
    have hr := lt_placeTree_end r (placeTree l (n + 1)).2
    obtain ⟨l1, l2⟩ := ihl (n := n + 1) (by omega)
    obtain ⟨r1, r2⟩ := ihr h
    constructor
    · simp only [Memory.risesFrom, Bool.and_eq_true, decide_eq_true_eq]
      exact ⟨⟨le_refl _, by omega⟩, Memory.risesFrom_append l1 l2 (by omega) r1⟩
    · intro e he
      simp only [List.mem_cons, List.mem_append] at he
      rcases he with rfl | he | he
      · show n < _
        omega
      · have := l2 e he
        omega
      · exact r2 e he

/-- In canonical form every listed entry is what its index reads as. -/
theorem Memory.read_of_mem {m : Memory} {b : Nat} (h : Memory.risesFrom b m = true) :
    ∀ e ∈ m, Memory.read m e.1 = some e.2 ∧ b ≤ e.1 := by
  induction m generalizing b with
  | nil => simp
  | cons x m ih =>
    simp [Memory.risesFrom] at h
    intro e he
    rcases List.mem_cons.1 he with rfl | he
    · simp [Memory.read]
      exact h.1.1
    · obtain ⟨hread, hle⟩ := ih h.2 e he
      have hne : x.1 ≠ e.1 := by omega
      simp [Memory.read, hne, hread]
      omega

/-- What is not listed at or above a bound reads as nothing there. -/
theorem Memory.read_above {m : Memory} {c i : Nat} (hm : ∀ e ∈ m, e.1 < c) (hi : c ≤ i) : Memory.read m i = none := by
  induction m with
  | nil => rfl
  | cons x m ih =>
    have hx := hm x (by simp)
    have hne : x.1 ≠ i := by omega
    simp [Memory.read, hne, ih fun e he => hm e (by simp [he])]

/-! Writing an image entry by entry. -/

/-- The entries of `m` written over `base`, one after another. -/
def Memory.writeAll (m base : Memory) : Memory := m.foldl (fun acc e => Memory.write acc e.1 e.2) base

/-- An entry of the image reads as the image says, every other as before. -/
theorem Memory.read_writeAll {m : Memory} {b : Nat} (h : Memory.risesFrom b m = true) (base : Memory) (i : Nat) :
    Memory.read (Memory.writeAll m base) i = (Memory.read m i).or (Memory.read base i) := by
  induction m generalizing base b with
  | nil => rfl
  | cons x m ih =>
    obtain ⟨k, v⟩ := x
    simp [Memory.risesFrom] at h
    have hcons : Memory.writeAll ((k, v) :: m) base = Memory.writeAll m (Memory.write base k v) := rfl
    rw [hcons, ih h.2]
    by_cases hk : k = i
    · subst hk
      simp [Memory.read, Memory.read_below h.2 (Nat.lt_succ_self k)]
    · simp [Memory.read, hk, Memory.read_write_other base v (Ne.symm hk)]

/-- A NODE write made while no session is active is one step that stores the entry. -/
theorem step_nodeWrite {s : State} {i : Index} {v : Word} {rest : List Turn} (hm : s.turns = .host (asmWr (.node i) v) :: rest)
    (hr : s.rst = false) (ha : s.active = false) :
    step s = .next { s with nodes := Memory.write s.nodes i.toNat v, turns := rest } := by
  have hact : ({ s with turns := rest } : State).active = false := ha
  rw [step_host hm, hostTurn_access (s := { s with turns := rest }) rfl hr]
  simp [asmWr, asmAddr, decodeBus, exec, execWrNode, lockedWrite, hact, State.nodeWrite]

/-- A ROOT write made while no session is active is one step that sets ROOT. -/
theorem step_rootWrite {s : State} {d : Word} {rest : List Turn} (hm : s.turns = .host (asmWr .root d) :: rest)
    (hr : s.rst = false) (ha : s.active = false) : step s = .next { s with root := rootOperand d, turns := rest } := by
  have hact : ({ s with turns := rest } : State).active = false := ha
  rw [step_host hm, hostTurn_access (s := { s with turns := rest }) rfl hr]
  exact congrArg Host.Outcome.next (lockedWrite_inactive hact)

/-- An EOS write made while no session is active is one step that sets EOS. -/
theorem step_eosWrite {s : State} {d : Word} {rest : List Turn} (hm : s.turns = .host (asmWr .eos d) :: rest)
    (hr : s.rst = false) (ha : s.active = false) : step s = .next { s with eos := eosOperand d, turns := rest } := by
  have hact : ({ s with turns := rest } : State).active = false := ha
  rw [step_host hm, hostTurn_access (s := { s with turns := rest }) rfl hr]
  exact congrArg Host.Outcome.next (lockedWrite_inactive hact)

/-- An EOS value written zero-extended is the value. -/
@[simp] theorem eosOperand_zext32 (n : SymId) : eosOperand (zext32 n) = n := by
  apply BitVec.eq_of_toNat_eq
  have := n.isLt
  simp [eosOperand, BitVec.extractLsb'_toNat]
  omega

/-- A ROOT value written zero-extended is the value. -/
@[simp] theorem rootOperand_zext32 (i : Index) : rootOperand (zext32 i) = i := by
  apply BitVec.eq_of_toNat_eq
  have := i.isLt
  simp [rootOperand, BitVec.extractLsb'_toNat]
  omega

/-- The NODE writes of an image, made while no session is active, store it. -/
theorem run_nodeWrites {m : Memory} {b : Nat} (h : Memory.risesFrom b m = true) {s : State} {rest : List Turn}
    (hm : s.turns = m.map (fun e => .host (asmWr (.node (BitVec.ofNat 10 e.1)) e.2)) ++ rest) (hr : s.rst = false)
    (ha : s.active = false) :
    Host.Core.run core m.length s
      = Host.Outcome.next ({ s with nodes := Memory.writeAll m s.nodes, turns := rest } : State) := by
  induction m generalizing s b with
  | nil => simp at hm; rw [← hm]; rfl
  | cons x m ih =>
    simp [Memory.risesFrom] at h
    have hk : (BitVec.ofNat 10 x.1).toNat = x.1 := by
      rw [BitVec.toNat_ofNat]
      exact Nat.mod_eq_of_lt h.1.2
    rw [List.length_cons, run_succ_of_next (step_nodeWrite hm hr ha), hk]
    exact ih h.2 rfl hr ha

end Sys2Proof.Machine
end

