-- ==== Sys2Proof/Laws/PerInstr.lean ====
section
/-! SUPPORT. Statements made for each instruction as syntax. -/

namespace Sys2Proof.Laws.EncodeFits

/-- The word of an instruction fits the bits of its format (spec/opcode_table.json, 30_encoding.md R59). -/
def Statement (i : Instr) : Prop := (encode i).word < 2 ^ (encode i).fmt.width

theorem rdCmd : Statement .rdCmd := BitVec.isLt _

theorem wrCmd (d : Word) : Statement (.wrCmd d) := BitVec.isLt _

theorem rdStatus : Statement .rdStatus := BitVec.isLt _

theorem wrStatus (d : Word) : Statement (.wrStatus d) := BitVec.isLt _

theorem rdRoot : Statement .rdRoot := BitVec.isLt _

theorem wrRoot (d : Word) : Statement (.wrRoot d) := BitVec.isLt _

theorem rdEos : Statement .rdEos := BitVec.isLt _

theorem wrEos (d : Word) : Statement (.wrEos d) := BitVec.isLt _

theorem rdCur : Statement .rdCur := BitVec.isLt _

theorem wrCur (d : Word) : Statement (.wrCur d) := BitVec.isLt _

theorem rdBitcnt : Statement .rdBitcnt := BitVec.isLt _

theorem wrBitcnt (d : Word) : Statement (.wrBitcnt d) := BitVec.isLt _

theorem rdSymcnt : Statement .rdSymcnt := BitVec.isLt _

theorem wrSymcnt (d : Word) : Statement (.wrSymcnt d) := BitVec.isLt _

theorem rdNode (i : Index) : Statement (.rdNode i) := BitVec.isLt _

theorem wrNode (i : Index) (d : Word) : Statement (.wrNode i d) := BitVec.isLt _

theorem rdUnmapped (a : HostAddr) : Statement (.rdUnmapped a) := BitVec.isLt _

theorem wrUnmapped (a : HostAddr) (d : Word) : Statement (.wrUnmapped a d) := BitVec.isLt _

theorem nop (rsv : BitVec 28) : Statement (.nop rsv) := BitVec.isLt _

theorem start (rsv : BitVec 28) : Statement (.start rsv) := BitVec.isLt _

theorem abort (rsv : BitVec 28) : Statement (.abort rsv) := BitVec.isLt _

theorem clrf (rsv : BitVec 28) : Statement (.clrf rsv) := BitVec.isLt _

theorem cmdReserved (rsv : BitVec 28) (op : BitVec 4) : Statement (.cmdReserved rsv op) := BitVec.isLt _

theorem empty (rsv : BitVec 30) : Statement (.empty rsv) := BitVec.isLt _

theorem internal (rsv : BitVec 10) (r l : Index) : Statement (.internal rsv r l) := BitVec.isLt _

theorem leaf (rsv : BitVec 21) (sym : SymId) : Statement (.leaf rsv sym) := BitVec.isLt _

theorem reserved (rsv : BitVec 30) : Statement (.reserved rsv) := BitVec.isLt _

theorem bit0 (x : Bool) : Statement (.bit0 x) := BitVec.isLt _

theorem bit1 (x : Bool) : Statement (.bit1 x) := BitVec.isLt _

theorem eof (x : Bool) : Statement (.eof x) := BitVec.isLt _

theorem stall (x : Bool) : Statement (.stall x) := BitVec.isLt _

theorem stepBit0 (x : Bool) : Statement (.stepBit0 x) := BitVec.isLt _

theorem stepBit1 (x : Bool) : Statement (.stepBit1 x) := BitVec.isLt _

theorem stepExhaust (x : Bool) : Statement (.stepExhaust x) := BitVec.isLt _

theorem stepStall (x : Bool) : Statement (.stepStall x) := BitVec.isLt _

theorem stepLeafEos (p : BeatPins) : Statement (.stepLeafEos p) := BitVec.isLt _

theorem stepLeafData (p : BeatPins) : Statement (.stepLeafData p) := BitVec.isLt _

theorem stepLeafBadsym (p : BeatPins) : Statement (.stepLeafBadsym p) := BitVec.isLt _

theorem stepBadnode (k : NodeKind) (p : BeatPins) : Statement (.stepBadnode k p) := BitVec.isLt _

theorem stepEmit : Statement .stepEmit := by unfold Statement; decide

theorem stepEmitHold : Statement .stepEmitHold := by unfold Statement; decide

end Sys2Proof.Laws.EncodeFits
end

