-- ==== Sys2Proof/Laws/Turns.lean ====
section
/-! SUPPORT. No instruction and no agent's turn reads or changes the moves to come (log 1): with other moves to come,
every answer is the same but for those moves. -/

namespace Sys2Proof.Machine

/-- An answer with other moves to come. -/
def Result.withTurns (ts : List Turn) : Result → Result
  | .next t => .next { t with turns := ts }
  | .fault f => .fault f
  | .refused r => .refused r

theorem onNode_withTurns {k : NodeKind} {f : Word → State → Result} {ts : List Turn}
    (hf : ∀ w s, f w { s with turns := ts } = Result.withTurns ts (f w s)) (s : State) :
    onNode k f { s with turns := ts } = Result.withTurns ts (onNode k f s) := by
  cases hw : s.walking with
  | false => rw [onNode_elsewhere hw, onNode_elsewhere (s := { s with turns := ts }) hw]; rfl
  | true =>
    cases hn : s.nodeRead s.cur with
    | none => rw [onNode_unwritten hw hn, onNode_unwritten (s := { s with turns := ts }) hw hn]; rfl
    | some w =>
      by_cases hk : kindOf w = k
      · rw [onNode_at hw hn hk, onNode_at (s := { s with turns := ts }) hw hn hk]; exact hf w s
      · rw [onNode_other hn hk, onNode_other (s := { s with turns := ts }) hn hk]; rfl

theorem onLeaf_withTurns {r : SymRel} {f : Word → State → Result} {ts : List Turn}
    (hf : ∀ w s, f w { s with turns := ts } = Result.withTurns ts (f w s)) (s : State) :
    onLeaf r f { s with turns := ts } = Result.withTurns ts (onLeaf r f s) := by
  refine onNode_withTurns (fun w s => ?_) s
  by_cases h : symRel (symOf w) s.eos = r
  · simpa [h] using hf w s
  · simp [h, hold, Result.withTurns]

theorem onEmitted_withTurns {f : State → Result} {ts : List Turn}
    (hf : ∀ s, f { s with turns := ts } = Result.withTurns ts (f s)) (s : State) :
    onEmitted f { s with turns := ts } = Result.withTurns ts (onEmitted f s) := by
  by_cases h : s.state = .emitted
  · rw [onEmitted_at h, onEmitted_at (s := { s with turns := ts }) h]; exact hf s
  · rw [onEmitted_elsewhere h, onEmitted_elsewhere (s := { s with turns := ts }) h]; rfl

theorem onWalk_withTurns {f : State → State} {ts : List Turn}
    (hf : ∀ s, f { s with turns := ts } = { f s with turns := ts }) (s : State) :
    onWalk f { s with turns := ts } = Result.withTurns ts (onWalk f s) := by
  have hw : ({ s with turns := ts } : State).walking = s.walking := rfl
  cases h : s.walking <;> simp [onWalk, hw, h, hold, Result.withTurns, hf]

theorem lockedWrite_withTurns {f : State → State} {ts : List Turn}
    (hf : ∀ s, f { s with turns := ts } = { f s with turns := ts }) (s : State) :
    lockedWrite f { s with turns := ts } = { lockedWrite f s with turns := ts } := by
  have ha : ({ s with turns := ts } : State).active = s.active := rfl
  cases h : s.active <;> simp [lockedWrite, ha, h, hf]

theorem resolveLeaf_withTurns (sym : SymId) (ts : List Turn) (s : State) :
    resolveLeaf sym { s with turns := ts } = { resolveLeaf sym s with turns := ts } := by
  have he : ({ s with turns := ts } : State).eos = s.eos := rfl
  cases h : symRel sym s.eos <;> simp [resolveLeaf, he, h, endOfStream, offerSymbol, raiseError]

theorem execStart_withTurns (rsv : BitVec 28) (ts : List Turn) (s : State) :
    execStart rsv { s with turns := ts } = Result.withTurns ts (execStart rsv s) := by
  have ha : ({ s with turns := ts } : State).active = s.active := rfl
  have hn : ({ s with turns := ts } : State).nodeRead s.root = s.nodeRead s.root := rfl
  cases h : s.active with
  | true => simp [execStart, ha, h, setCmdign, Result.withTurns]
  | false =>
    cases h' : s.nodeRead s.root with
    | none => simp [execStart, ha, hn, h, h', Result.withTurns]
    | some w =>
      by_cases hk : kindOf w = .internal <;>
        simp [execStart, ha, hn, h, h', hk, beginSession, raiseError, Result.withTurns]

theorem execWrCmd_withTurns (d : Word) (ts : List Turn) (s : State) :
    execWrCmd d { s with turns := ts } = Result.withTurns ts (execWrCmd d s) := by
  unfold execWrCmd
  split
  · rfl
  · exact execStart_withTurns _ _ _
  · rfl
  · rfl
  · rfl

theorem execRdNode_withTurns (i : Index) (ts : List Turn) (s : State) :
    execRdNode i { s with turns := ts } = Result.withTurns ts (execRdNode i s) := by
  have hn : ({ s with turns := ts } : State).nodeRead i = s.nodeRead i := rfl
  cases h : s.nodeRead i <;> simp [execRdNode, hn, h, returnRead, returnDraw, Result.withTurns]

theorem execInternal_withTurns (rsv : BitVec 10) (right left : Index) (ts : List Turn) (s : State) :
    execInternal rsv right left { s with turns := ts } = Result.withTurns ts (execInternal rsv right left s) := by
  refine onWalk_withTurns (fun s => ?_) s
  have ho : ({ s with turns := ts } : State).offered = s.offered := rfl
  cases h : beatOf s.offered <;> simp [ho, h, descendTo, raiseError, useBeat]

/-- No instruction reads or changes the moves to come. -/
theorem exec_withTurns (i : Instr) (ts : List Turn) (s : State) :
    exec i { s with turns := ts } = Result.withTurns ts (exec i s) := by
  cases i with
  | wrCmd d => exact execWrCmd_withTurns d ts s
  | start rsv => exact execStart_withTurns rsv ts s
  | rdNode i => exact execRdNode_withTurns i ts s
  | wrNode i d => exact congrArg Host.Outcome.next (lockedWrite_withTurns (fun _ => rfl) s)
  | wrRoot d => exact congrArg Host.Outcome.next (lockedWrite_withTurns (fun _ => rfl) s)
  | wrEos d => exact congrArg Host.Outcome.next (lockedWrite_withTurns (fun _ => rfl) s)
  | empty _ | reserved _ => exact onWalk_withTurns (fun _ => rfl) s
  | leaf _ sym => exact onWalk_withTurns (resolveLeaf_withTurns sym ts) s
  | internal rsv r l => exact execInternal_withTurns rsv r l ts s
  | bit0 _ => exact onNode_withTurns (f := fun w s => .next (descendTo false (leftOf w) s)) (fun _ _ => rfl) s
  | bit1 _ => exact onNode_withTurns (f := fun w s => .next (descendTo true (rightOf w) s)) (fun _ _ => rfl) s
  | eof _ => exact onNode_withTurns (f := fun _ s => .next (raiseError .exhausted (useBeat s))) (fun _ _ => rfl) s
  | stall _ => exact onNode_withTurns (f := fun _ s => .next (useBeat s)) (fun _ _ => rfl) s
  | stepBit0 _ => exact onNode_withTurns (f := fun w s => .next (descendTo false (childOf false w) s)) (fun _ _ => rfl) s
  | stepBit1 _ => exact onNode_withTurns (f := fun w s => .next (descendTo true (childOf true w) s)) (fun _ _ => rfl) s
  | stepExhaust _ =>
    exact onNode_withTurns (f := fun _ s => .next (raiseError .exhausted (useBeat s))) (fun _ _ => rfl) s
  | stepStall _ => exact onNode_withTurns (f := fun _ s => .next (useBeat s)) (fun _ _ => rfl) s
  | stepLeafEos _ => exact onLeaf_withTurns (f := fun _ s => .next (endOfStream s)) (fun _ _ => rfl) s
  | stepLeafData _ => exact onLeaf_withTurns (f := fun w s => .next (offerSymbol (symOf w) s)) (fun _ _ => rfl) s
  | stepLeafBadsym _ => exact onLeaf_withTurns (f := fun _ s => .next (raiseError .badSym s)) (fun _ _ => rfl) s
  | stepBadnode _ _ => exact onNode_withTurns (f := fun _ s => .next (raiseError .badNode s)) (fun _ _ => rfl) s
  | stepEmit => exact onEmitted_withTurns (f := fun s => .next (acceptSymbol s)) (fun _ => rfl) s
  | stepEmitHold => exact onEmitted_withTurns (f := fun s => .next (useReady s)) (fun _ => rfl) s
  | rdCmd | rdStatus | rdRoot | rdEos | rdCur | rdBitcnt | rdSymcnt | rdUnmapped _ => rfl
  | wrStatus _ | wrCur _ | wrBitcnt _ | wrSymcnt _ | wrUnmapped _ _ => rfl
  | nop _ | abort _ | clrf _ | cmdReserved _ _ => rfl

/-- The decoder's turn neither reads nor changes the moves to come. -/
theorem decoderTurn_withTurns (ts : List Turn) (s : State) :
    decoderTurn { s with turns := ts } = Result.withTurns ts (decoderTurn s) := by
  rcases Bool.eq_false_or_eq_true s.rst with hr | hr
  · rw [decoderTurn_still (.inl hr), decoderTurn_still (s := { s with turns := ts }) (.inl hr)]; rfl
  rcases Bool.eq_false_or_eq_true s.active with ha | ha
  · by_cases he : s.state = .emitted
    · rw [decoderTurn_emitted hr he, decoderTurn_emitted (s := { s with turns := ts }) hr he]
      exact exec_withTurns _ ts s
    · have hk := State.walking_of_active ha he
      cases hn : s.nodeRead s.cur with
      | none =>
        rw [decoderTurn_unwritten hr hk hn, decoderTurn_unwritten (s := { s with turns := ts }) hr hk hn]; rfl
      | some w =>
        rw [decoderTurn_walking hr hk hn, decoderTurn_walking (s := { s with turns := ts }) hr hk hn]
        exact exec_withTurns _ ts s
  · rw [decoderTurn_still (.inr ha), decoderTurn_still (s := { s with turns := ts }) (.inr ha)]; rfl

/-- A host access neither reads nor changes the moves to come. -/
theorem hostTurn_withTurns (p : HostPins) (ts : List Turn) (s : State) :
    hostTurn p { s with turns := ts } = Result.withTurns ts (hostTurn p s) := by
  rcases Bool.eq_false_or_eq_true p.hsel with hs | hs
  · rcases Bool.eq_false_or_eq_true s.rst with hr | hr
    · rw [hostTurn_inReset hs hr, hostTurn_inReset (s := { s with turns := ts }) hs hr]
      cases p.hwe <;> rfl
    · rw [hostTurn_access hs hr, hostTurn_access (s := { s with turns := ts }) hs hr]
      exact exec_withTurns _ ts s
  · rw [hostTurn_none hs, hostTurn_none hs]; rfl

end Sys2Proof.Machine
end

