-- ==== Sys2Proof/Tests/Slice0.lean ====
section
/-! SUPPORT. Tests of single steps and single words, their expected results from the spec's vectors (95_test_vectors.md,
named H, K, DS and S as there) and tables, and for every obligation with hypotheses a witness that meets them. -/

namespace Sys2Proof.Tests

open Sys2Proof.Machine Sys2Proof.Safety

/-! Helpers. -/

/-- The answer is a next state with the property. -/
def answers (r : Result) (p : State → Bool) : Bool :=
  match r with
  | .next t => p t
  | .fault _ => false
  | .refused _ => false

/-- The answer is the model fault. -/
def faults (r : Result) : Bool :=
  match r with
  | .next _ => false
  | .fault f => f = .uninitNode
  | .refused _ => false

theorem exists_of_answers {r : Result} {p : State → Bool} (h : answers r p = true) : ∃ t, r = .next t ∧ p t = true := by
  cases r with
  | next t => exact ⟨t, rfl, h⟩
  | fault f => cases h
  | refused f => cases h

/-- T4 of 95_test_vectors.md section 2. -/
def t4 : Memory :=
  [(0, 0x40000801#32), (1, 0x80000000#32), (2, 0x40001003#32), (3, 0x80000003#32), (4, 0x40001805#32),
   (5, 0x80000001#32), (6, 0x80000004#32)]

/-- T4 loaded, ROOT = 0, EOS = 4. -/
def onT4 (state : SessState) (cur : Index) : State :=
  { State.reset with nodes := t4, eos := 4#9, state := state, cur := cur }

/-- T4 loaded, with beats offered. -/
def fed (state : SessState) (cur : Index) (beats : List BeatPins) : State := { onT4 state cur with beats := beats }

def wr (a : HostAddr) (d : Word) : HostPins := { hsel := true, hwe := true, haddr := a, hwdata := d }

def rd (a : HostAddr) : HostPins := { hsel := true, hwe := false, haddr := a, hwdata := 0#32 }

/-- The next move is that host access. -/
def withAccess (p : HostPins) (s : State) : State := { s with turns := [.host p] }

def stallBeat : BeatPins := { eof := false, valid := false, data := false }

def oneWithEof : BeatPins := { eof := true, valid := true, data := true }

/-! WellFormed refuses. -/

theorem test_illFormed_rdUnmapped_register : WellFormed (.rdUnmapped 0x006#11) = false := by decide

theorem test_illFormed_rdUnmapped_node : WellFormed (.rdUnmapped 0x400#11) = false := by decide

theorem test_illFormed_wrUnmapped_register : WellFormed (.wrUnmapped 0x000#11 1#32) = false := by decide

theorem test_illFormed_cmdReserved : WellFormed (.cmdReserved 0#28 3#4) = false := by decide

theorem test_illFormed_stepBadnode_internal : WellFormed (.stepBadnode .internal stallBeat) = false := by decide

theorem test_illFormed_stepBadnode_leaf : WellFormed (.stepBadnode .leaf stallBeat) = false := by decide

/-! Every constructor's decoding, from a word written out from 30_encoding.md R54 to R60, R63, R67 and
spec/opcode_table.json. -/

theorem test_decode_registerReads :
    decode .bus 0b000000000000 7#32 .isEos = .instr .rdCmd ∧ decode .bus 0b000000000001 7#32 .isEos = .instr .rdStatus
    ∧ decode .bus 0b000000000010 7#32 .isEos = .instr .rdRoot ∧ decode .bus 0b000000000011 7#32 .isEos = .instr .rdEos
    ∧ decode .bus 0b000000000100 7#32 .isEos = .instr .rdCur
    ∧ decode .bus 0b000000000101 7#32 .isEos = .instr .rdBitcnt
    ∧ decode .bus 0b000000000110 7#32 .isEos = .instr .rdSymcnt := by decide

theorem test_decode_registerWrites :
    decode .bus 0b100000000000 7#32 .isEos = .instr (.wrCmd 7#32)
    ∧ decode .bus 0b100000000001 7#32 .isEos = .instr (.wrStatus 7#32)
    ∧ decode .bus 0b100000000010 7#32 .isEos = .instr (.wrRoot 7#32)
    ∧ decode .bus 0b100000000011 7#32 .isEos = .instr (.wrEos 7#32)
    ∧ decode .bus 0b100000000100 7#32 .isEos = .instr (.wrCur 7#32)
    ∧ decode .bus 0b100000000101 7#32 .isEos = .instr (.wrBitcnt 7#32)
    ∧ decode .bus 0b100000000110 7#32 .isEos = .instr (.wrSymcnt 7#32) := by decide

theorem test_decode_nodeAndUnmapped :
    decode .bus 0b010000000101 7#32 .isEos = .instr (.rdNode 5#10)
    ∧ decode .bus 0b111111111111 7#32 .isEos = .instr (.wrNode 1023#10 7#32)
    ∧ decode .bus 0b000000000111 7#32 .isEos = .instr (.rdUnmapped 0x007#11)
    ∧ decode .bus 0b101111111111 7#32 .isEos = .instr (.wrUnmapped 0x3FF#11 7#32) := by decide

theorem test_decode_commands :
    decode .cmd 0x00000000 0#32 .isEos = .instr (.nop 0#28) ∧ decode .cmd 0x00000011 0#32 .isEos = .instr (.start 1#28)
    ∧ decode .cmd 0xABCDEF02 0#32 .isEos = .instr (.abort 0xABCDEF0#28)
    ∧ decode .cmd 0x00000003 0#32 .isEos = .instr (.clrf 0#28)
    ∧ decode .cmd 0x00000004 0#32 .isEos = .instr (.cmdReserved 0#28 4#4)
    ∧ decode .cmd 0x0000000F 0#32 .isEos = .instr (.cmdReserved 0#28 15#4) := by decide

/-- The words of 30_encoding.md R72 and 95_test_vectors.md DS16, DS18. -/
theorem test_decode_entries :
    decode .node 0x40001805 0#32 .isEos = .instr (.internal 0#10 6#10 5#10)
    ∧ decode .node 0x7FF00801 0#32 .isEos = .instr (.internal 0x3FF#10 2#10 1#10)
    ∧ decode .node 0xBFFFFE03 0#32 .isEos = .instr (.leaf 0x1FFFFF#21 3#9)
    ∧ decode .node 0x00000000 0#32 .isEos = .instr (.empty 0#30)
    ∧ decode .node 0xC0001234 0#32 .isEos = .instr (.reserved 0x1234#30) := by decide

theorem test_decode_beats :
    decode .beat 0b010 0#32 .isEos = .instr (.bit0 false) ∧ decode .beat 0b111 0#32 .isEos = .instr (.bit1 true)
    ∧ decode .beat 0b100 0#32 .isEos = .instr (.eof false) ∧ decode .beat 0b001 0#32 .isEos = .instr (.stall true) := by
  decide

theorem test_decode_steps :
    decode .step 0b01010 0#32 .isEos = .instr (.stepBit0 false) ∧ decode .step 0b01111 0#32 .isEos = .instr (.stepBit1 true)
    ∧ decode .step 0b01100 0#32 .isEos = .instr (.stepExhaust false)
    ∧ decode .step 0b01001 0#32 .isEos = .instr (.stepStall true)
    ∧ decode .step 0b10010 0#32 .isEos = .instr (.stepLeafEos ⟨false, true, false⟩)
    ∧ decode .step 0b10010 0#32 .isData = .instr (.stepLeafData ⟨false, true, false⟩)
    ∧ decode .step 0b10100 0#32 .isBad = .instr (.stepLeafBadsym ⟨true, false, false⟩)
    ∧ decode .step 0b00001 0#32 .isEos = .instr (.stepBadnode .empty ⟨false, false, true⟩)
    ∧ decode .step 0b11000 0#32 .isEos = .instr (.stepBadnode .reserved ⟨false, false, false⟩) := by decide

theorem test_decode_sink :
    decode .sink 1 0#32 .isEos = .instr .stepEmit ∧ decode .sink 0 0#32 .isEos = .instr .stepEmitHold := by decide

theorem test_decode_rejects :
    decode .bus 0x1000 0#32 .isEos = .rejected (.widerThan .bus)
    ∧ decode .beat 8 0#32 .isEos = .rejected (.widerThan .beat) := by decide

/-- The four LEFT/RIGHT words of the assembler lines of 95_test_vectors.md P1 (R71). -/
theorem test_assembler_words :
    asmNodeInt 2#10 3#10 4#10 = wr 0x402#11 0x40001003#32 ∧ asmNodeLeaf 6#10 4#9 = wr 0x406#11 0x80000004#32
    ∧ asmNodeEmpty 3#10 = wr 0x403#11 0#32
    ∧ asmStart 0#10 2#9 = [wr 0x002#11 0#32, wr 0x003#11 2#32, wr 0x000#11 1#32] := by decide

/-! Host reads. -/

/-- K20. -/
theorem test_rdCmd : answers (exec .rdCmd (onT4 .atRoot 0#10)) (fun t => t.reads = [0#32]) = true := by decide

/-- P3 line 11. -/
theorem test_rdStatus_flags :
    answers (exec .rdStatus { onT4 .error 3#10 with err := .badNode, wrbusy := true, cmdign := true })
      (fun t => t.reads = [0x325#32] && t.wrbusy && t.cmdign) = true := by decide

/-- K16. -/
theorem test_rdStatus_badcmd :
    answers (exec .rdStatus { onT4 .descending 2#10 with badcmd := true }) (fun t => t.reads = [0x402#32]) = true := by
  decide

/-- H5. -/
theorem test_rdRoot : answers (exec .rdRoot { State.reset with root := 5#10 }) (fun t => t.reads = [5#32]) = true := by
  decide

/-- H3. -/
theorem test_rdEos : answers (exec .rdEos State.reset) (fun t => t.reads = [0x100#32]) = true := by decide

/-- P1 line 13. -/
theorem test_rdCur : answers (exec .rdCur (onT4 .done 6#10)) (fun t => t.reads = [6#32]) = true := by decide

/-- P1 line 13. -/
theorem test_rdBitcnt :
    answers (exec .rdBitcnt { onT4 .done 6#10 with bitcnt := 10#32 }) (fun t => t.reads = [10#32]) = true := by decide

/-- P1 line 13. -/
theorem test_rdSymcnt :
    answers (exec .rdSymcnt { onT4 .done 6#10 with symcnt := 4#32 }) (fun t => t.reads = [4#32]) = true := by decide

/-- H8. -/
theorem test_rdNode_whole :
    answers (exec (.rdNode 1#10) { State.reset with nodes := [(1, 0xBFFFFE03#32)] })
      (fun t => t.reads = [0xBFFFFE03#32]) = true := by decide

/-- H9. -/
theorem test_rdNode_unwritten :
    answers (exec (.rdNode 9#10) State.reset) (fun t => decide (t.reads.length = 1) && t.nodes = []) = true := by decide

/-- H4. -/
theorem test_rdUnmapped :
    answers (exec (.rdUnmapped 0x3FF#11) (onT4 .emitted 3#10)) (fun t => t.reads = [0#32]) = true := by decide

/-! Host writes. -/

/-- K10. -/
theorem test_wrCmd_start :
    answers (exec (.wrCmd 0x00000011#32) (onT4 .idle 6#10)) (fun t => t.state = .atRoot && t.cur = 0#10) = true := by
  decide

/-- K8. -/
theorem test_wrCmd_startIgnored :
    answers (exec (.wrCmd 0x1#32) (onT4 .atRoot 0#10)) (fun t => t.statusWord = 0x201#32) = true := by decide

/-- H16. -/
theorem test_wrStatus :
    answers (exec (.wrStatus 0xFFFFFFFF#32) (onT4 .descending 2#10)) (fun t => t = onT4 .descending 2#10) = true := by
  decide

/-- H5. -/
theorem test_wrRoot : answers (exec (.wrRoot 0xFFFFFC05#32) State.reset) (fun t => t.root = 5#10) = true := by decide

/-- H12. -/
theorem test_wrRoot_dropped :
    answers (exec (.wrRoot 3#32) (onT4 .emitted 3#10)) (fun t => t.root = 0#10 && t.statusWord = 0x103#32) = true := by
  decide

/-- H6. -/
theorem test_wrEos : answers (exec (.wrEos 0x200#32) State.reset) (fun t => t.eos = 0#9) = true := by decide

/-- H11. -/
theorem test_wrEos_dropped :
    answers (exec (.wrEos 2#32) (onT4 .descending 2#10)) (fun t => t.eos = 4#9 && t.statusWord = 0x102#32) = true := by
  decide

/-- H14. -/
theorem test_wrCur :
    answers (exec (.wrCur 5#32) (onT4 .descending 2#10)) (fun t => t = onT4 .descending 2#10) = true := by decide

/-- H15. -/
theorem test_wrBitcnt :
    answers (exec (.wrBitcnt 0#32) { onT4 .done 6#10 with bitcnt := 10#32 })
      (fun t => t.bitcnt = 10#32 && !t.wrbusy) = true := by decide

/-- 40_host_ops.md R87. -/
theorem test_wrSymcnt :
    answers (exec (.wrSymcnt 0#32) { onT4 .done 6#10 with symcnt := 4#32 })
      (fun t => t.symcnt = 4#32 && !t.wrbusy) = true := by decide

/-- H13. -/
theorem test_wrNode :
    answers (exec (.wrNode 6#10 0x80000002#32) (onT4 .done 6#10))
      (fun t => t.nodeRead 6#10 = some 0x80000002#32 && t.statusWord = 0x004#32) = true := by decide

/-- H10. -/
theorem test_wrNode_dropped :
    answers (exec (.wrNode 10#10 0x80000005#32) (onT4 .atRoot 0#10))
      (fun t => !t.written 10#10 && t.statusWord = 0x101#32) = true := by decide

/-- H17. -/
theorem test_wrUnmapped :
    answers (exec (.wrUnmapped 0x3FF#11 1#32) (onT4 .atRoot 0#10)) (fun t => t = onT4 .atRoot 0#10) = true := by decide

/-! Commands. -/

/-- K18. -/
theorem test_nop : answers (exec (.nop 0#28) (onT4 .descending 2#10)) (fun t => t = onT4 .descending 2#10) = true := by
  decide

/-- K2. -/
theorem test_start_badRoot :
    answers (exec (.start 0#28) { onT4 .idle 0#10 with root := 1#10, bitcnt := 7#32 })
      (fun t => t.statusWord = 0x045#32 && t.cur = 1#10 && t.bitcnt = 0#32) = true := by decide

/-- K6. -/
theorem test_start_unwritten : faults (exec (.start 0#28) State.reset) = true := by decide

/-- K12. -/
theorem test_abort_emitted :
    answers (exec (.abort 0#28) { onT4 .emitted 3#10 with outsym := 3#9 })
      (fun t => t.statusWord = 0#32 && !t.symValid && t.symcnt = 0#32 && t.outsym = 3#9) = true := by decide

/-- K13. -/
theorem test_abort_error :
    answers (exec (.abort 0#28) { onT4 .error 3#10 with err := .badNode }) (fun t => t.statusWord = 0#32) = true := by
  decide

/-- K15. -/
theorem test_clrf :
    answers (exec (.clrf 0#28) { onT4 .done 6#10 with wrbusy := true, cmdign := true, badcmd := true })
      (fun t => t.statusWord = 0x004#32) = true := by decide

/-- K16. -/
theorem test_cmdReserved :
    answers (exec (.cmdReserved 0#28 4#4) (onT4 .descending 2#10)) (fun t => t.statusWord = 0x402#32) = true := by decide

/-! The walk, by entry. -/

/-- DS15. -/
theorem test_empty :
    answers (exec (.empty 0#30) (onT4 .descending 2#10)) (fun t => t.statusWord = 0x025#32 && t.cur = 2#10) = true := by
  decide

/-- DS2. -/
theorem test_internal_bit1 :
    answers (exec (.internal 0#10 2#10 1#10) (fed .atRoot 0#10 [bitBeat true]))
      (fun t => t.state = .descending && t.cur = 2#10 && t.bitcnt = 1#32) = true := by decide

/-- DS5. -/
theorem test_leaf_data :
    answers (exec (.leaf 0#21 3#9) (onT4 .descending 3#10)) (fun t => t.symValid && t.symData = 3#9 && !t.bitReady) = true := by
  decide

/-- DS12. -/
theorem test_leaf_badSym :
    answers (exec (.leaf 0#21 3#9) { onT4 .descending 3#10 with eos := 2#9 })
      (fun t => t.statusWord = 0x035#32 && t.outsym = 0#9) = true := by decide

/-- DS16. -/
theorem test_reserved :
    answers (exec (.reserved 0x1234#30) (onT4 .descending 2#10)) (fun t => t.statusWord = 0x025#32) = true := by decide

/-! The walk, by beat. -/

/-- DS3. -/
theorem test_bit0 :
    answers (exec (.bit0 false) { fed .descending 2#10 [bitBeat false] with bitcnt := 1#32 })
      (fun t => t.cur = 3#10 && t.bitcnt = 2#32) = true := by decide

/-- DS4. -/
theorem test_bit1_withEof :
    answers (exec (.bit1 true) (fed .atRoot 0#10 [oneWithEof]))
      (fun t => t.state = .descending && t.cur = 2#10 && t.err = .none) = true := by decide

/-- DS10. -/
theorem test_eof :
    answers (exec (.eof false) { fed .descending 2#10 [eofBeat] with bitcnt := 1#32 })
      (fun t => t.statusWord = 0x015#32 && t.cur = 2#10 && t.bitcnt = 1#32) = true := by decide

/-- DS1. -/
theorem test_stall :
    answers (exec (.stall false) (fed .atRoot 0#10 [stallBeat]))
      (fun t => t.state = .atRoot && t.cur = 0#10 && t.bitcnt = 0#32) = true := by decide

/-! The decoder's steps. -/

/-- DS18: reserved bits of an INTERNAL entry are ignored. -/
theorem test_stepBit0_reservedBits :
    answers (exec (.stepBit0 false) { fed .atRoot 0#10 [bitBeat false] with nodes := [(0, 0x7FF00801#32)] })
      (fun t => t.cur = 1#10 && t.beats = []) = true := by decide

/-- DS21: BITCNT wraps. -/
theorem test_stepBit0_wrap :
    answers (exec (.stepBit0 false) { fed .descending 0#10 [bitBeat false] with bitcnt := 0xFFFFFFFF#32 })
      (fun t => t.bitcnt = 0#32 && t.state = .descending) = true := by decide

/-- DS2. -/
theorem test_stepBit1 :
    answers (exec (.stepBit1 false) (fed .atRoot 0#10 [bitBeat true]))
      (fun t => t.state = .descending && t.cur = 2#10 && t.taken = [true]) = true := by decide

/-- DS11. -/
theorem test_stepExhaust_root :
    answers (exec (.stepExhaust false) { fed .atRoot 0#10 [eofBeat] with symcnt := 2#32 })
      (fun t => t.statusWord = 0x015#32 && t.cur = 0#10 && t.symcnt = 2#32) = true := by decide

/-- DS1. -/
theorem test_stepStall :
    answers (exec (.stepStall false) (fed .descending 2#10 [stallBeat, bitBeat true]))
      (fun t => t = fed .descending 2#10 [bitBeat true]) = true := by decide

/-- DS9 with DS24: no bit is taken at the EOS leaf. -/
theorem test_stepLeafEos :
    answers (exec (.stepLeafEos (bitBeat false)) (fed .descending 6#10 [bitBeat false]))
      (fun t => t.doneO && t.cur = 6#10 && t.symcnt = 0#32 && t.beats = [bitBeat false]) = true := by decide

/-- DS13: EOS = 0. -/
theorem test_stepLeafEos_zero :
    answers (exec (.stepLeafEos stallBeat) { onT4 .descending 1#10 with eos := 0#9 }) (fun t => t.state = .done) = true := by
  decide

/-- DS20. -/
theorem test_stepLeafData_510 :
    answers (exec (.stepLeafData stallBeat) { onT4 .descending 1#10 with nodes := [(1, 0x800001FE#32)], eos := 511#9 })
      (fun t => t.symValid && t.symData = 0x1FE#9) = true := by decide

/-- DS14. -/
theorem test_stepLeafBadsym :
    answers (exec (.stepLeafBadsym stallBeat) { onT4 .descending 3#10 with eos := 0#9 })
      (fun t => t.statusWord = 0x035#32 && t.cur = 3#10) = true := by decide

/-- DS16. -/
theorem test_stepBadnode :
    answers (exec (.stepBadnode .reserved (bitBeat true)) { fed .descending 2#10 [bitBeat true] with nodes := [(2, 0xC0001234#32)] })
      (fun t => t.statusWord = 0x025#32 && t.beats = [bitBeat true]) = true := by decide

/-- DS6. -/
theorem test_stepEmit :
    answers (exec .stepEmit { onT4 .emitted 3#10 with outsym := 3#9, ready := [true] })
      (fun t => t.state = .atRoot && t.cur = 0#10 && t.symcnt = 1#32 && t.out = [3#9]) = true := by decide

/-- DS7. -/
theorem test_stepEmitHold :
    answers (exec .stepEmitHold { onT4 .emitted 3#10 with outsym := 3#9 })
      (fun t => t.state = .emitted && t.symcnt = 0#32 && t.symData = 3#9 && t.out = []) = true := by decide

/-! Steps. -/

/-- DS17. -/
theorem test_step_unwritten : faults (step { onT4 .descending 6#10 with nodes := t4.dropLast }) = true := by decide

/-- DS26. -/
theorem test_step_done :
    answers (step (fed .done 6#10 [bitBeat false])) (fun t => t = fed .done 6#10 [bitBeat false]) = true := by decide

/-- DS27. -/
theorem test_step_idle :
    answers (step { State.reset with beats := [bitBeat true] }) (fun t => t = { State.reset with beats := [bitBeat true] })
      = true := by decide

/-- 70_reset_and_hazards.md R156: the next unaccepted beat stays, the accepted symbols stay. -/
theorem test_step_reset :
    answers (step { fed .descending 2#10 [bitBeat true] with turns := [.rst true], out := [3#9] })
      (fun t => t.state = .idle && t.eos = 256#9 && t.nodes = [] && t.rst && t.beats = [bitBeat true] && t.out = [3#9])
      = true := by decide

/-- P3 line 8: a NODE write while DESCENDING. -/
theorem test_step_hostWrite :
    answers (step (withAccess (wr 0x403#11 0x80000001#32) (onT4 .descending 2#10)))
      (fun t => t.wrbusy && t.nodes = t4 && t.turns = []) = true := by decide

/-- The word of RD_EOS, placed where the step fetches, runs. -/
theorem test_withFetchWord_bus :
    decodeTableWord 16 0x003 = some .rdEos
    ∧ answers (step (State.reset.withFetchWord 16 0x003)) (fun t => t.reads = [0x100#32]) = true := by decide

/-- The word of STEP_BIT1, placed where the step fetches, runs. -/
theorem test_withFetchWord_step :
    decodeTableWord 8 0b01011 = some (.stepBit1 false)
    ∧ answers (step (State.reset.withFetchWord 8 0b01011)) (fun t => t.bitcnt = 1#32 && t.taken = [true]) = true := by
  decide

/-! The host reference. -/

/-- T4 as a tree. -/
def t4Tree : CodeTree := .node (.leaf 0#9) (.node (.leaf 3#9) (.node (.leaf 1#9) (.leaf 4#9)))

def isTree (r : Except BuildError CodeTree) (t : CodeTree) : Bool :=
  match r with
  | .ok u => u = t
  | .error _ => false

def buildFails (r : Except BuildError CodeTree) (e : BuildError) : Bool :=
  match r with
  | .ok _ => false
  | .error f => f = e

def readsAs (r : Except TableError CodeTree) (t : CodeTree) : Bool :=
  match r with
  | .ok u => u = t
  | .error _ => false

def tableFails (r : Except TableError CodeTree) (e : TableError) : Bool :=
  match r with
  | .ok _ => false
  | .error f => f = e

/-- S1, S4 and section 2: the built trees of `[5]`, `[3, 1, 0, 2]` and `[1, 1]`. -/
theorem test_build :
    isTree (buildTree [5]) (.node (.leaf 1#9) (.leaf 0#9)) = true ∧ isTree (buildTree [3, 1, 0, 2]) t4Tree = true
    ∧ isTree (buildTree [1, 1]) (.node (.leaf 2#9) (.node (.leaf 0#9) (.leaf 1#9))) = true := by decide

/-- S9. -/
theorem test_build_empty :
    buildFails (buildTree []) .emptyAlphabet = true ∧ buildFails (buildTree [0, 0]) .emptyAlphabet = true := by decide

/-- Section 2: the image of T4. -/
theorem test_image : nodeImage t4Tree = some t4 := by decide

/-- P1 lines 1 to 9: the accesses that load T4 laid out with N = 4. -/
theorem test_loadLayout :
    (layOut t4Tree 4#9).map loadLayout =
      some [wr 0x400#11 0x40000801#32, wr 0x401#11 0x80000000#32, wr 0x402#11 0x40001003#32, wr 0x403#11 0x80000003#32,
        wr 0x404#11 0x40001805#32, wr 0x405#11 0x80000001#32, wr 0x406#11 0x80000004#32, wr 0x002#11 0#32,
        wr 0x003#11 4#32] := by decide

/-- S7. -/
theorem test_serialize :
    serialize t4Tree =
      [['0'], ['0'], ['3'], ['1', '0'], ['1'], ['1', '1', '0'], ['4'], ['1', '1', '1']] := by decide

/-- S2, in both orders, and 42_host_reference.md R131. -/
theorem test_deserialize :
    tableFails (deserialize [['3'], ['0', '1'], ['7'], ['0']]) .collision = true
    ∧ tableFails (deserialize [['7'], ['0'], ['3'], ['0', '1']]) .collision = true
    ∧ tableFails (deserialize [['3']]) .midPair = true
    ∧ readsAs (deserialize [['3'], ['0', '1']]) (.node (.node .missing (.leaf 3#9)) .missing) = true := by decide

/-- P1: message `[0, 3, 1, 0]`. -/
theorem test_encode :
    encodeStream t4Tree [0#9, 3#9, 1#9, 0#9] 4#9
      = some [false, true, false, true, true, false, false, true, true, true] := by decide

/-! Witnesses: states and operands that meet the hypotheses of each obligation, clause by clause. -/

/-- Every register at reset and `rst = 1`. -/
def inReset : State := { State.reset with rst := true }

/-- DESCENDING at CUR 2 of T4 with a bit offered. -/
def atTwo : State := fed .descending 2#10 [bitBeat true]

theorem active_inv {s : State} (hn : s.nodes = t4) (he : s.err = .none) (hs : s.state = .descending) (hr : s.root = 0#10)
    (hrst : s.rst = false) : BlockInv s where
  memory := by rw [hn]; decide
  errIffError := by simp [he, hs]
  atRoot := by simp [hs]
  rootInternal := fun _ => ⟨0x40000801#32, by simp [State.nodeRead, hn, hr, t4, Memory.read], by decide⟩
  offered := by simp [hs]
  inReset := by simp [hrst]

theorem witness_resetPin :
    ({ atTwo with turns := [.rst true] } : State).turns = .rst true :: []
    ∧ ({ inReset with turns := [.rst false] } : State).turns = .rst false :: []
    ∧ ({ inReset with turns := [.rst false] } : State).rst = true
    ∧ inReset.rst = true ∧ DecoderMoves inReset []
    ∧ HostMoves (withAccess (rd 0x003#11) inReset) (rd 0x003#11) [] ∧ (rd 0x003#11).hsel = true
    ∧ (rd 0x003#11).hwe = false
    ∧ HostMoves (withAccess (wr 0x003#11 1#32) inReset) (wr 0x003#11 1#32) [] ∧ (wr 0x003#11 1#32).hsel = true
    ∧ (wr 0x003#11 1#32).hwe = true :=
  ⟨rfl, rfl, rfl, rfl, .inr ⟨rfl, rfl⟩, rfl, rfl, rfl, rfl, rfl, rfl⟩

theorem atTwo_step : ∃ t, step atTwo = .next t ∧ (t.cur = 4#10 && t.taken = [true]) = true :=
  exists_of_answers (p := fun t => t.cur = 4#10 && t.taken = [true]) (by decide)

theorem witness_stepKeepsInvariant : BlockInv atTwo ∧ ∃ t, step atTwo = .next t :=
  ⟨active_inv rfl rfl rfl rfl rfl, atTwo_step.imp fun _ h => h.1⟩

theorem witness_activeSessionKeepsTree : atTwo.active = true ∧ NoResetMove atTwo ∧ ∃ t, step atTwo = .next t :=
  ⟨by decide, (by intro level rest h; cases h), atTwo_step.imp fun _ h => h.1⟩

theorem witness_decodeOfEncode :
    WellFormed (.rdUnmapped 0x007#11) = true ∧ WellFormed (.wrUnmapped 0x3FF#11 0#32) = true
    ∧ WellFormed (.cmdReserved 0#28 4#4) = true ∧ WellFormed (.cmdReserved 0#28 15#4) = true
    ∧ WellFormed (.stepBadnode .reserved stallBeat) = true := by decide

theorem witness_encodeOfDecode : 0xFFF < 2 ^ Format.bus.width ∧ 2 ^ Format.bus.width ≤ 0x1000 := by decide

theorem witness_busDecodeTable :
    0x007 ≤ (0x007#11).toNat ∧ (0x3FF#11).toNat ≤ 0x3FF ∧ 0x400 ≤ (0x400#11).toNat ∧ 0x400 ≤ (0x7FF#11).toNat := by
  decide

theorem witness_nodeFields :
    (0x3FFFFFFF#32).extractLsb' 30 2 = 0b00#2 ∧ (0x7FFFFFFF#32).extractLsb' 30 2 = 0b01#2
    ∧ (0xBFFFFFFF#32).extractLsb' 30 2 = 0b10#2 ∧ (0xFFFFFFFF#32).extractLsb' 30 2 = 0b11#2 := by decide

theorem witness_commandAndBeatTables : 4 ≤ (4#4).toNat ∧ 4 ≤ (15#4).toNat := by decide

theorem witness_hostMoveRunsDecoded :
    HostMoves (withAccess (rd 0x001#11) atTwo) (rd 0x001#11) [] ∧ (rd 0x001#11).hsel = true
    ∧ HostMoves (withAccess { rd 0x001#11 with hsel := false } atTwo) { rd 0x001#11 with hsel := false } []
    ∧ atTwo.rst = false :=
  ⟨rfl, rfl, rfl, rfl⟩

theorem witness_decoderMoveRunsDecoded :
    atTwo.rst = false ∧ DecoderMoves atTwo [] ∧ atTwo.walking = true ∧ atTwo.nodeRead atTwo.cur = some 0x40001003#32
    ∧ DecoderMoves (onT4 .descending 9#10) [] ∧ (onT4 .descending 9#10).walking = true
    ∧ (onT4 .descending 9#10).nodeRead 9#10 = none
    ∧ DecoderMoves { onT4 .emitted 3#10 with turns := [.decoder] } [] :=
  ⟨rfl, .inr ⟨rfl, rfl⟩, by decide, by decide, .inr ⟨rfl, rfl⟩, by decide, by decide, .inl rfl⟩

theorem witness_entryAndBeatViewsAgree :
    atTwo.rst = false ∧ DecoderMoves atTwo [] ∧ atTwo.walking = true ∧ atTwo.nodeRead atTwo.cur = some 0x40001003#32
    ∧ kindOf 0x40001003#32 = .internal :=
  ⟨rfl, .inr ⟨rfl, rfl⟩, by decide, by decide, by decide⟩

theorem commandMoves_of {s : State} {op : BitVec 4} {d : Word} (h : pendingAccess s = some (.wrCmd d))
    (hop : d.extractLsb' 0 4 = op) : CommandMoves s op :=
  ⟨d, h, hop⟩

theorem witness_noDecoderStepOutsideSession :
    DecoderMoves (onT4 .idle 0#10) [] ∧ DecoderMoves (onT4 .done 6#10) [] ∧ DecoderMoves (onT4 .error 6#10) []
    ∧ NoResetMove (withAccess (wr 0#11 1#32) (onT4 .idle 0#10))
    ∧ (∃ t, step (withAccess (wr 0#11 1#32) (onT4 .idle 0#10)) = .next t ∧ t.state ≠ .idle)
    ∧ ∃ t, step (withAccess (wr 0#11 2#32) (onT4 .error 0#10)) = .next t ∧ t.state ≠ .error := by
  refine ⟨.inr ⟨rfl, rfl⟩, .inr ⟨rfl, rfl⟩, .inr ⟨rfl, rfl⟩, (by intro level rest h; cases h), ?_, ?_⟩
  · obtain ⟨t, h, ht⟩ := exists_of_answers (r := step (withAccess (wr 0#11 1#32) (onT4 .idle 0#10)))
      (p := fun t => t.state = .atRoot) (by decide)
    exact ⟨t, h, by simp at ht; simp [ht]⟩
  · obtain ⟨t, h, ht⟩ := exists_of_answers (r := step (withAccess (wr 0#11 2#32) (onT4 .error 0#10)))
      (p := fun t => t.state = .idle) (by decide)
    exact ⟨t, h, by simp at ht; simp [ht]⟩

theorem witness_readOfNode :
    (onT4 .emitted 3#10).nodeRead 6#10 = some 0x80000004#32 ∧ (onT4 .emitted 3#10).nodeRead 1023#10 = none := by decide

theorem witness_unmappedAddresses :
    (0x007 ≤ (0x007#11).toNat ∧ (0x007#11).toNat ≤ 0x3FF) ∧ 0x007 ≤ (0x3FF#11).toNat ∧ (0x3FF#11).toNat ≤ 0x3FF := by
  decide

/-- For WriteOfRoot, WriteOfEos, WriteOfNode, StartBeginsSession and StartIgnoredWhileActive. -/
theorem witness_activity :
    (onT4 .idle 0#10).active = false ∧ (onT4 .done 0#10).active = false ∧ (onT4 .error 0#10).active = false
    ∧ (onT4 .atRoot 0#10).active = true ∧ (onT4 .descending 0#10).active = true ∧ (onT4 .emitted 0#10).active = true
    ∧ (6#10 : Index) ≠ 1023#10 := by decide

theorem witness_cmdWriteDispatch :
    (0xFFFFFFF0#32).extractLsb' 0 4 = 0x0#4 ∧ (0xFFFFFFF1#32).extractLsb' 0 4 = 0x1#4
    ∧ (0xFFFFFFF2#32).extractLsb' 0 4 = 0x2#4 ∧ (0xFFFFFFF3#32).extractLsb' 0 4 = 0x3#4
    ∧ 4 ≤ ((0xFFFFFFF4#32).extractLsb' 0 4).toNat ∧ 4 ≤ ((0xFFFFFFFF#32).extractLsb' 0 4).toNat := by decide

theorem witness_nopClrfReserved :
    (0xFFFFFFF0#32).extractLsb' 0 4 = 0x0#4 ∧ (0xFFFFFFF3#32).extractLsb' 0 4 = 0x3#4
    ∧ 4 ≤ (4#4).toNat ∧ (0xFFFFFFF4#32).extractLsb' 0 4 = 4#4
    ∧ 4 ≤ (15#4).toNat ∧ (0xFFFFFFFF#32).extractLsb' 0 4 = 15#4 := by decide

theorem witness_startBeginsSession :
    ((onT4 .error 3#10).active = false ∧ (onT4 .error 3#10).nodeRead 0#10 = some 0x40000801#32
      ∧ (0x40000801#32).extractLsb' 30 2 = 0b01#2)
    ∧ (({ onT4 .idle 3#10 with root := 6#10 } : State).nodeRead 6#10 = some 0x80000004#32
      ∧ (0x80000004#32).extractLsb' 30 2 ≠ 0b01#2)
    ∧ State.reset.active = false ∧ State.reset.nodeRead State.reset.root = none := by decide

theorem witness_abortDiscardsSession :
    ∃ t, exec (.abort 0#28) { onT4 .emitted 3#10 with outsym := 3#9 } = .next t := ⟨_, rfl⟩

/-- For BitSteps, StallAndExhaustSteps, BeatsSeen and EntriesReached at an internal entry. -/
theorem witness_internalEntry :
    atTwo.walking = true ∧ (onT4 .atRoot 0#10).walking = true ∧ atTwo.nodeRead atTwo.cur = some 0x40001003#32
    ∧ (onT4 .atRoot 0#10).nodeRead 0#10 = some 0x40000801#32 ∧ (0x40001003#32).extractLsb' 30 2 = 0b01#2
    ∧ (0x40000801#32).extractLsb' 30 2 = 0b01#2 := by decide

theorem witness_leafSteps :
    (onT4 .descending 3#10).walking = true ∧ (onT4 .descending 3#10).nodeRead 3#10 = some 0x80000003#32
    ∧ (0x80000003#32).extractLsb' 30 2 = 0b10#2
    ∧ ((0x80000003#32).extractLsb' 0 9).toNat = (3#9).toNat
    ∧ ((0x80000003#32).extractLsb' 0 9).toNat < (onT4 .descending 3#10).eos.toNat
    ∧ (2#9).toNat < ((0x80000003#32).extractLsb' 0 9).toNat := by decide

theorem witness_badNodeStep :
    ({ onT4 .descending 2#10 with nodes := [(2, 0#32)] } : State).walking = true
    ∧ ({ onT4 .descending 2#10 with nodes := [(2, 0#32)] } : State).nodeRead 2#10 = some 0#32
    ∧ (0#32).extractLsb' 30 2 = 0b00#2
    ∧ ({ onT4 .descending 2#10 with nodes := [(2, 0xC0001234#32)] } : State).nodeRead 2#10 = some 0xC0001234#32
    ∧ (0xC0001234#32).extractLsb' 30 2 = 0b11#2 := by decide

theorem witness_emitSteps : (onT4 .emitted 3#10).state = .emitted := rfl

theorem witness_sampleUse :
    (atTwo.rst = false ∧ DecoderMoves atTwo [] ∧ (∃ t, step atTwo = .next t) ∧ atTwo.bitReady = true
      ∧ atTwo.written atTwo.cur = true ∧ atTwo.symValid = false)
    ∧ ∃ t, step (onT4 .emitted 3#10) = .next t ∧ (onT4 .emitted 3#10).bitReady = false
      ∧ (onT4 .emitted 3#10).symValid = true :=
  ⟨⟨rfl, .inr ⟨rfl, rfl⟩, atTwo_step.imp fun _ h => h.1, by decide, by decide, by decide⟩, _, rfl, by decide, by decide⟩

theorem witness_entriesReached :
    atTwo.walking = true ∧ (3#9).toNat < atTwo.eos.toNat ∧ atTwo.eos.toNat < (5#9).toNat ∧ atTwo.eos = 4#9
    ∧ atTwo.offered.valid = true ∧ atTwo.offered.data = true
    ∧ (fed .atRoot 0#10 [bitBeat false]).offered.data = false ∧ (fed .atRoot 0#10 [eofBeat]).offered.valid = false
    ∧ (fed .atRoot 0#10 [eofBeat]).offered.eof = true ∧ (fed .atRoot 0#10 []).offered.valid = false
    ∧ (fed .atRoot 0#10 []).offered.eof = false := by decide

theorem witness_wrongStateOrBeatOffInternalHolds :
    (encode (.empty 0#30)).fmt = .node ∧ (encode (.bit0 false)).fmt = .beat ∧ (encode (.stepBit0 false)).fmt = .step
    ∧ (onT4 .idle 0#10).walking = false ∧ (encode .stepEmit).fmt = .sink ∧ (onT4 .idle 0#10).state ≠ .emitted
    ∧ (onT4 .descending 3#10).nodeRead 3#10 = some 0x80000003#32 ∧ kindOf 0x80000003#32 ≠ .internal := by decide

/-- Both ways to the fault. -/
theorem witness_faultsExactlyOnUnwritten :
    (step (onT4 .descending 9#10) = .fault .uninitNode ∧ DecoderMoves (onT4 .descending 9#10) []
      ∧ (onT4 .descending 9#10).walking = true ∧ (onT4 .descending 9#10).written 9#10 = false)
    ∧ step (withAccess (wr 0#11 1#32) State.reset) = .fault .uninitNode
    ∧ CommandMoves (withAccess (wr 0#11 1#32) State.reset) 0x1#4 ∧ State.reset.active = false
    ∧ State.reset.written State.reset.root = false :=
  ⟨⟨rfl, .inr ⟨rfl, rfl⟩, by decide, by decide⟩, rfl, commandMoves_of (d := 1#32) (by decide) (by decide), by decide,
    by decide⟩

theorem witness_errorsArePrecise :
    (∃ t, step (fed .descending 2#10 [eofBeat]) = .next t ∧ t.state = .error)
    ∧ ∃ t, step (withAccess (wr 0#11 1#32) { onT4 .idle 0#10 with root := 6#10 }) = .next t ∧ t.state = .error := by
  refine ⟨?_, ?_⟩
  · obtain ⟨t, h, ht⟩ := exists_of_answers (r := step (fed .descending 2#10 [eofBeat]))
      (p := fun t => t.state = .error) (by decide)
    exact ⟨t, h, by simpa using ht⟩
  · obtain ⟨t, h, ht⟩ := exists_of_answers
      (r := step (withAccess (wr 0#11 1#32) { onT4 .idle 0#10 with root := 6#10 }))
      (p := fun t => t.state = .error) (by decide)
    exact ⟨t, h, by simpa using ht⟩

/-- START, a bit, an accepted symbol: each changes CUR. -/
theorem witness_curChangesOnlyBy :
    (∃ t, step (withAccess (wr 0#11 1#32) (onT4 .done 6#10)) = .next t ∧ t.cur ≠ 6#10)
    ∧ (∃ t, step atTwo = .next t ∧ t.cur ≠ atTwo.cur)
    ∧ ∃ t, step { onT4 .emitted 3#10 with ready := [true] } = .next t ∧ t.cur ≠ 3#10 := by
  refine ⟨?_, ?_, ?_⟩
  · obtain ⟨t, h, ht⟩ := exists_of_answers (r := step (withAccess (wr 0#11 1#32) (onT4 .done 6#10)))
      (p := fun t => t.cur ≠ 6#10) (by decide)
    exact ⟨t, h, by simpa using ht⟩
  · obtain ⟨t, h, ht⟩ := exists_of_answers (r := step atTwo) (p := fun t => t.cur ≠ atTwo.cur) (by decide)
    exact ⟨t, h, by simpa using ht⟩
  · obtain ⟨t, h, ht⟩ := exists_of_answers (r := step { onT4 .emitted 3#10 with ready := [true] })
      (p := fun t => t.cur ≠ 3#10) (by decide)
    exact ⟨t, h, by simpa using ht⟩

/-- For CountersCount, BitsTakenOnceInOrder and SymbolsNeverRetracted. -/
theorem witness_anyStep :
    NoResetMove atTwo ∧ (∃ t, step atTwo = .next t) ∧ NoResetMove (withAccess (wr 0#11 1#32) (onT4 .done 6#10))
    ∧ ∃ t, step (withAccess (wr 0#11 1#32) (onT4 .done 6#10)) = .next t :=
  ⟨(by intro level rest h; cases h), atTwo_step.imp fun _ h => h.1, (by intro level rest h; cases h), _, rfl⟩

/-- Each flag set, and each cleared. -/
theorem witness_stickyFlags :
    answers (step (withAccess (wr 0x403#11 1#32) atTwo)) (fun t => t.wrbusy ≠ atTwo.wrbusy) = true
    ∧ answers (step (withAccess (wr 0#11 1#32) atTwo)) (fun t => t.cmdign ≠ atTwo.cmdign) = true
    ∧ answers (step (withAccess (wr 0#11 4#32) atTwo)) (fun t => t.badcmd ≠ atTwo.badcmd) = true
    ∧ answers (step (withAccess (wr 0#11 3#32) { atTwo with wrbusy := true, cmdign := true, badcmd := true }))
        (fun t => !t.wrbusy && !t.cmdign && !t.badcmd) = true := by decide

theorem witness_flagsNeverChangeTheWalk :
    DecoderMoves atTwo [] ∧ (∃ t, step atTwo = .next t) ∧ DecoderMoves (onT4 .descending 9#10) []
    ∧ step (onT4 .descending 9#10) = .fault .uninitNode :=
  ⟨.inr ⟨rfl, rfl⟩, atTwo_step.imp fun _ h => h.1, .inr ⟨rfl, rfl⟩, rfl⟩

theorem witness_handshakesFollowPorts :
    atTwo.rst = false ∧ DecoderMoves atTwo [] ∧ (∃ t, step atTwo = .next t) ∧ atTwo.bitReady = true
    ∧ atTwo.offered.valid = true
    ∧ ({ onT4 .emitted 3#10 with ready := [true] } : State).symValid = true
    ∧ ({ onT4 .emitted 3#10 with ready := [true] } : State).symReady = true :=
  ⟨rfl, .inr ⟨rfl, rfl⟩, atTwo_step.imp fun _ h => h.1, by decide, by decide, by decide, by decide⟩

theorem witness_levelOutputs : atTwo.bitReady = true := by decide

/-- One bit taken on the way to CUR 2. -/
theorem witness_everySymbolCostsABit :
    BlockInv { atTwo with taken := [true] } ∧ SymbolsPaid { atTwo with taken := [true] }
    ∧ ∃ t, step { atTwo with taken := [true] } = .next t :=
  ⟨active_inv rfl rfl rfl rfl rfl, by simp [SymbolsPaid, atTwo, fed, onT4, State.reset],
    (exists_of_answers (p := fun _ => true) (by decide)).imp fun _ h => h.1⟩

/-- DESCENDING at CUR 2 with a finite stream. -/
def finite : State :=
  { onT4 .descending 2#10 with beats := [bitBeat true, bitBeat true, eofBeat], ready := [true, true, true] }

theorem witness_finiteStreamEndsSession :
    BlockInv finite ∧ finite.active = true ∧ finite.turns = [] ∧ finite.beats = [true, true].map bitBeat ++ [eofBeat]
    ∧ finite.ready = List.replicate (2 + 1) true :=
  ⟨active_inv rfl rfl rfl rfl rfl, by decide, rfl, rfl, rfl⟩

/-- The built tree of S1 (EOS = 1) at its root, the stream `1, 0` offered. -/
def atS1 : State :=
  { State.reset with
    nodes := [(0, 0x40000801#32), (1, 0x80000001#32), (2, 0x80000000#32)], eos := 1#9, state := .atRoot,
    beats := [bitBeat true, bitBeat false], ready := [true] }

/-- The same tree with its entries at 5, 9 and 7, ROOT = 5. -/
def movedS1 : State :=
  { atS1 with nodes := [(5, 0x40001C09#32), (7, 0x80000000#32), (9, 0x80000001#32)], root := 5#10, cur := 5#10 }

def s1Tree : CodeTree := .node (.leaf 1#9) (.leaf 0#9)

theorem atS1_holds : Holds atS1 0#10 s1Tree :=
  ⟨0x40000801#32, by decide, by decide, ⟨0x80000001#32, by decide, by decide, by decide⟩,
    ⟨0x80000000#32, by decide, by decide, by decide⟩⟩

theorem movedS1_holds : Holds movedS1 5#10 s1Tree :=
  ⟨0x40001C09#32, by decide, by decide, ⟨0x80000001#32, by decide, by decide, by decide⟩,
    ⟨0x80000000#32, by decide, by decide, by decide⟩⟩

theorem witness_decodingLaw :
    atS1.rst = false ∧ atS1.turns = [] ∧ atS1.state = .atRoot ∧ atS1.cur = atS1.root ∧ atS1.bitcnt = 0#32
    ∧ atS1.symcnt = 0#32 ∧ Holds atS1 atS1.root (.node (.leaf 1#9) (.leaf 0#9))
    ∧ (∀ m ∈ [([true], (0#9 : SymId))], IsCode s1Tree m.1 m.2 ∧ m.2.toNat < atS1.eos.toNat)
    ∧ IsCode s1Tree [false] atS1.eos
    ∧ atS1.beats = ([([true], (0#9 : SymId))].flatMap Prod.fst ++ [false]).map bitBeat ++ []
    ∧ atS1.ready = List.replicate [([true], (0#9 : SymId))].length true ++ [] :=
  ⟨rfl, rfl, rfl, rfl, rfl, rfl, atS1_holds,
    by
      intro m hm
      obtain rfl := List.mem_singleton.1 hm
      exact ⟨.right (.leaf 0#9), by decide⟩,
    .left (.leaf 1#9), rfl, rfl⟩

theorem witness_layoutDoesNotMatter :
    SameTree atS1 movedS1 ∧ atS1.turns = [] ∧ ∃ t, Host.Core.run core 0 atS1 = Host.Outcome.next t :=
  ⟨{ state := rfl, err := rfl, wrbusy := rfl, cmdign := rfl, badcmd := rfl, eos := rfl, bitcnt := rfl, symcnt := rfl,
     outsym := rfl, rst := rfl, turns := rfl, beats := rfl, ready := rfl, taken := rfl, out := rfl,
     root := ⟨s1Tree, atS1_holds, movedS1_holds⟩, cur := fun _ => ⟨s1Tree, atS1_holds, movedS1_holds⟩ },
    rfl, atS1, rfl⟩

theorem witness_cycleIsAnInterleaving :
    atTwo.turns = [] ∧ atTwo.rst = false ∧ atTwo.active = true ∧ ∃ t, decoderTurn atTwo = .next t :=
  ⟨rfl, rfl, by decide, (exists_of_answers (p := fun _ => true) (by decide)).imp fun _ h => h.1⟩

theorem witness_blocksShareNoState :
    (∃ q : Platform 2, platformStep (0 : Fin 2) (Platform.reset 2) = .next q) ∧ (1 : Fin 2) ≠ 0 :=
  ⟨⟨_, rfl⟩, by decide⟩

theorem witness_nodeImageHoldsTree : nodeImage t4Tree = some (onT4 .idle 0#10).nodes := by decide

/-- An image loaded over other contents, in ERROR. -/
theorem witness_loadedLayoutHoldsTree :
    layOut t4Tree 4#9 = some { nodes := t4, root := 0#10, eos := 4#9 }
    ∧ (onT4 .error 3#10).rst = false ∧ (onT4 .error 3#10).active = false
    ∧ ({ onT4 .error 3#10 with turns := hostProgram (loadLayout { nodes := t4, root := 0#10, eos := 4#9 }) } : State).turns
      = hostProgram (loadLayout { nodes := t4, root := 0#10, eos := 4#9 }) :=
  ⟨by decide, rfl, rfl, rfl⟩

theorem witness_treeBuilder :
    511 < (List.replicate 512 1).length ∧ (List.replicate 511 1).length ≤ 511 ∧ (∃ c ∈ List.replicate 511 1, c ≠ 0)
    ∧ [0, 0].length ≤ 511 ∧ (∀ c ∈ [0, 0], c = 0)
    ∧ [3, 1, 0, 2].length ≤ 511 ∧ ∃ c ∈ [3, 1, 0, 2], c ≠ 0 :=
  ⟨by rw [List.length_replicate]; omega, by rw [List.length_replicate],
    ⟨1, List.mem_replicate.2 ⟨by omega, rfl⟩, by omega⟩, by decide, by decide, by decide, 3, by decide, by decide⟩

theorem witness_tableRoundTrip : strictTree t4Tree = true := by decide

end Sys2Proof.Tests
end

section
/-! PROOFS of the statements about 00_scope.md: what a host access runs, and several blocks. -/

namespace Sys2Proof.Proofs

open Sys2Proof.Machine

/-- Settles O12: a step on a host move is that host's turn, which with `rst = 0` `hsel` alone decides. -/
theorem hostMoveRunsDecoded : Obligations.HostMoveRunsDecoded := by
  intro s p rest hrst hmove
  rw [step_host hmove]
  exact ⟨fun hsel => hostTurn_access hsel hrst, hostTurn_none⟩

/-- Inversion of a platform's step (00_scope.md R6): block `k` steps, and only its entry is stored. -/
theorem platformStep_next {n : Nat} {k : Fin n} {p q : Platform n} (h : platformStep k p = .next q) :
    ∃ s, step (p.get k) = .next s ∧ q = p.set k s := by
  unfold platformStep at h
  cases hs : step (p.get k) with
  | next s => rw [hs] at h; cases h; exact ⟨s, rfl, rfl⟩
  | fault f => rw [hs] at h; cases h
  | refused r => rw [hs] at h; cases h

/-- Settles O55: what the platform's step stores is read back at the block that stepped and at no other. -/
theorem blocksShareNoState : Obligations.BlocksShareNoState := by
  intro n k j p q h
  obtain ⟨s, hs, rfl⟩ := platformStep_next h
  constructor
  · rw [hs, Vector.get_eq_getElem, Vector.getElem_set_self]
  · intro hjk
    have hne : k.val ≠ j.val := fun hkj => hjk (Fin.ext hkj.symm)
    exact Vector.getElem_set_ne k.isLt j.isLt hne

end Sys2Proof.Proofs
end

section
/-! PROOFS of the statements about 10_state.md: what a move can do to each register, the invariant of
R35, and the ports. -/

namespace Sys2Proof.Machine

open Sys2Proof.Safety

/-! What a decoder move leaves and changes. -/

/-- The converse of `decoderTurn_effect`: each effect is the decoder's turn where its conditions hold. -/
theorem decoderTurn_of_effect {s t : State} (h : DecoderEffect s t) : decoderTurn s = .next t := by
  cases h with
  | still h => exact decoderTurn_still h
  | bit w b hr hw hn hk hb => rw [decoderTurn_internal hr hw hn hk, hb]
  | exhaust w hr hw hn hk hb => rw [decoderTurn_internal hr hw hn hk, hb]
  | stall w hr hw hn hk hb => rw [decoderTurn_internal hr hw hn hk, hb]
  | leafEos w hr hw hn hk hy => rw [decoderTurn_leaf hr hw hn hk, resolveLeaf, symRel_isEos.2 hy]
  | leafData w hr hw hn hk hy => rw [decoderTurn_leaf hr hw hn hk, resolveLeaf, symRel_isData.2 hy]
  | leafBadsym w hr hw hn hk hy => rw [decoderTurn_leaf hr hw hn hk, resolveLeaf, symRel_isBad.2 hy]
  | badNode w hr hw hn hk => exact decoderTurn_missing hr hw hn hk
  | emit hr he hy => rw [decoderTurn_sink hr he, if_pos hy]
  | emitHold hr he hy => rw [decoderTurn_sink hr he, hy]; rfl

/-- No decoder move writes ROOT, EOS or an entry (10_state.md R22, R23, R32). -/
theorem DecoderEffect.keeps_tree {s t : State} (h : DecoderEffect s t) :
    t.root = s.root ∧ t.eos = s.eos ∧ t.nodes = s.nodes := by
  cases h <;> exact ⟨rfl, rfl, rfl⟩

/-- No decoder move changes a sticky flag (10_state.md R30). -/
theorem DecoderEffect.keeps_flags {s t : State} (h : DecoderEffect s t) :
    t.wrbusy = s.wrbusy ∧ t.cmdign = s.cmdign ∧ t.badcmd = s.badcmd := by
  cases h <;> exact ⟨rfl, rfl, rfl⟩

/-- No decoder move reads a sticky flag: each effect is there with any other values of the three (10_state.md R30). -/
theorem DecoderEffect.withFlags {s t : State} (a b c : Bool) (h : DecoderEffect s t) :
    DecoderEffect { s with wrbusy := a, cmdign := b, badcmd := c }
      { t with wrbusy := a, cmdign := b, badcmd := c } := by
  cases h with
  | still h => exact .still h
  | bit w d hr hw hn hk hb => exact .bit w d hr hw hn hk hb
  | exhaust w hr hw hn hk hb => exact .exhaust w hr hw hn hk hb
  | stall w hr hw hn hk hb => exact .stall w hr hw hn hk hb
  | leafEos w hr hw hn hk hy => exact .leafEos w hr hw hn hk hy
  | leafData w hr hw hn hk hy => exact .leafData w hr hw hn hk hy
  | leafBadsym w hr hw hn hk hy => exact .leafBadsym w hr hw hn hk hy
  | badNode w hr hw hn hk => exact .badNode w hr hw hn hk
  | emit hr he hy => exact .emit hr he hy
  | emitHold hr he hy => exact .emitHold hr he hy

/-- A decoder move changes CUR only by a bit step or an accepted symbol (10_state.md R17). -/
theorem DecoderEffect.cur_changed {s t : State} (h : DecoderEffect s t) (hne : t.cur ≠ s.cur) :
    (∃ w b, s.walking = true ∧ s.nodeRead s.cur = some w ∧ kindOf w = .internal ∧ t.taken = s.taken ++ [b]
      ∧ t.cur = childOf b w)
    ∨ (t.cur = s.root ∧ s.state = .emitted ∧ t.out = s.out ++ [s.outsym]) := by
  cases h with
  | bit w b hr hw hn hk hb => exact .inl ⟨w, b, hw, hn, hk, rfl, rfl⟩
  | emit hr he hy => exact .inr ⟨rfl, he, rfl⟩
  | _ => exact absurd rfl hne

/-- A decoder move counts the bit it takes and the symbol it hands over, and nothing else (10_state.md R24, R25). -/
theorem DecoderEffect.counters {s t : State} (h : DecoderEffect s t) :
    ((t.bitcnt = s.bitcnt ∧ t.taken = s.taken) ∨ (t.bitcnt = s.bitcnt + 1#32 ∧ ∃ b, t.taken = s.taken ++ [b]))
    ∧ ((t.symcnt = s.symcnt ∧ t.out = s.out) ∨ (t.symcnt = s.symcnt + 1#32 ∧ t.out = s.out ++ [s.outsym])) := by
  cases h with
  | bit w b hr hw hn hk hb => exact ⟨.inr ⟨rfl, b, rfl⟩, .inl ⟨rfl, rfl⟩⟩
  | emit hr he hy => exact ⟨.inl ⟨rfl, rfl⟩, .inr ⟨rfl, rfl⟩⟩
  | _ => exact ⟨.inl ⟨rfl, rfl⟩, .inl ⟨rfl, rfl⟩⟩

/-! What a host access leaves and changes. -/

/-- While a session is active no host access changes ROOT, EOS or an entry (40_host_ops.md R81). -/
theorem HostEffect.keeps_tree {s t : State} {i : Instr} (h : HostEffect s i t) (ha : s.active = true) :
    t.root = s.root ∧ t.eos = s.eos ∧ t.nodes = s.nodes := by
  cases h with
  | root _ hi | eos _ hi | node _ _ hi => rw [ha] at hi; cases hi
  | _ => exact ⟨rfl, rfl, rfl⟩

/-- A host access changes CUR only by a START with no session active (10_state.md R17). -/
theorem HostEffect.cur_changed {s t : State} {i : Instr} (h : HostEffect s i t) (hne : t.cur ≠ s.cur) :
    t.cur = s.root ∧ (∃ d, i = .wrCmd d ∧ opOf d = 0x1#4) ∧ s.active = false := by
  cases h with
  | startSession d w ho ha hn hk | startBadRoot d w ho ha hn hk => exact ⟨rfl, ⟨d, rfl, ho⟩, ha⟩
  | _ => exact absurd rfl hne

/-- A host access takes no bit and hands over no symbol. -/
theorem HostEffect.keeps_streams {s t : State} {i : Instr} (h : HostEffect s i t) :
    t.taken = s.taken ∧ t.out = s.out := by
  cases h <;> exact ⟨rfl, rfl⟩

/-- A host access sets both counters to 0, by a START with no session active, or changes neither (10_state.md R24,
R25). -/
theorem HostEffect.counters {s t : State} {i : Instr} (h : HostEffect s i t) :
    ((∃ d, i = .wrCmd d ∧ opOf d = 0x1#4) ∧ s.active = false ∧ t.bitcnt = 0#32 ∧ t.symcnt = 0#32)
    ∨ (t.bitcnt = s.bitcnt ∧ t.symcnt = s.symcnt) := by
  cases h with
  | startSession d w ho ha hn hk | startBadRoot d w ho ha hn hk => exact .inl ⟨⟨d, rfl, ho⟩, ha, rfl, rfl⟩
  | _ => exact .inr ⟨rfl, rfl⟩

/-- WRBUSY changes to 0 by CLRF, and to 1 by a locked write that is dropped (10_state.md R27). -/
theorem HostEffect.wrbusy_changed {s t : State} {i : Instr} (h : HostEffect s i t) (hne : t.wrbusy ≠ s.wrbusy) :
    (t.wrbusy = false ∧ ∃ d, i = .wrCmd d ∧ opOf d = 0x3#4)
    ∨ (t.wrbusy = true ∧ s.active = true ∧ ∃ d, i = .wrRoot d ∨ i = .wrEos d ∨ ∃ n, i = .wrNode n d) := by
  cases h with
  | clrf d ho => exact .inl ⟨rfl, d, rfl, ho⟩
  | dropped i ha hi => exact .inr ⟨rfl, ha, hi⟩
  | _ => exact absurd rfl hne

/-- CMDIGN changes to 0 by CLRF, and to 1 by a START while a session is active (10_state.md R28). -/
theorem HostEffect.cmdign_changed {s t : State} {i : Instr} (h : HostEffect s i t) (hne : t.cmdign ≠ s.cmdign) :
    (t.cmdign = false ∧ ∃ d, i = .wrCmd d ∧ opOf d = 0x3#4)
    ∨ (t.cmdign = true ∧ s.active = true ∧ ∃ d, i = .wrCmd d ∧ opOf d = 0x1#4) := by
  cases h with
  | clrf d ho => exact .inl ⟨rfl, d, rfl, ho⟩
  | startIgnored d ho ha => exact .inr ⟨rfl, ha, d, rfl, ho⟩
  | _ => exact absurd rfl hne

/-- BADCMD changes to 0 by CLRF, and to 1 by a reserved opcode (10_state.md R29). -/
theorem HostEffect.badcmd_changed {s t : State} {i : Instr} (h : HostEffect s i t) (hne : t.badcmd ≠ s.badcmd) :
    (t.badcmd = false ∧ ∃ d, i = .wrCmd d ∧ opOf d = 0x3#4)
    ∨ (t.badcmd = true ∧ ∃ d, i = .wrCmd d ∧ 4 ≤ (opOf d).toNat) := by
  cases h with
  | clrf d ho => exact .inl ⟨rfl, d, rfl, ho⟩
  | reservedCmd d ho => exact .inr ⟨rfl, d, rfl, ho⟩
  | _ => exact absurd rfl hne

/-! Every move but a reset. -/

/-- Everything a step that is no level on the reset pin can do: at most a read's answer, the host access that was
pending, or a decoder move. -/
theorem step_cases_of_noResetMove {s t : State} (hm : NoResetMove s) (h : step s = .next t) :
    ∃ rest,
      (∃ rs, t = { s with turns := rest, reads := rs })
      ∨ (∃ i, pendingAccess s = some i ∧ HostEffect { s with turns := rest } i t)
      ∨ DecoderEffect { s with turns := rest } t := by
  cases step_effect h with
  | pin level rest hp => exact absurd hp (hm level rest)
  | noAccess p rest hp hs => exact ⟨rest, .inl ⟨s.reads, rfl⟩⟩
  | readInReset p rest hp hr => exact ⟨rest, .inl ⟨s.reads ++ [0#32], rfl⟩⟩
  | host p rest _ hp hs hr he =>
    exact ⟨rest, .inr (.inl ⟨decodeBus p.hwe p.haddr p.hwdata, by simp [pendingAccess, hp, hs, hr], he⟩)⟩
  | decoder rest _ hd he => exact ⟨rest, .inr (.inr he)⟩

/-- A pending CMD write moves the command its low four bits name. -/
theorem commandMoves_of_pending {s : State} {i : Instr} {op : BitVec 4} (hp : pendingAccess s = some i)
    (hc : ∃ d, i = .wrCmd d ∧ opOf d = op) : CommandMoves s op := by
  obtain ⟨d, rfl, ho⟩ := hc
  exact ⟨d, hp, ho⟩

/-! The ports. -/

/-- At a written entry `bit_ready` says whether it is INTERNAL (10_state.md R33). -/
theorem State.bitReady_at {s : State} {w : Word} (hw : s.walking = true) (hn : s.nodeRead s.cur = some w) :
    s.bitReady = true ↔ kindOf w = .internal := by
  simp [State.bitReady, hw, hn]

theorem State.walking_of_bitReady {s : State} (h : s.bitReady = true) : s.walking = true := by
  unfold State.bitReady at h
  exact (Bool.and_eq_true_iff.1 h).1

theorem State.symValid_iff {s : State} : s.symValid = true ↔ s.state = .emitted := by
  simp [State.symValid]

theorem State.not_emitted_of_walking {s : State} (h : s.walking = true) : s.state ≠ .emitted := by
  rcases State.walking_iff.1 h with h | h <;> simp [h]

theorem State.not_walking_of_emitted {s : State} (h : s.state = .emitted) : ¬ s.walking = true :=
  fun hw => State.not_emitted_of_walking hw h

theorem valid_false_of_beatOf {p : BeatPins} (h : ∀ b, beatOf p ≠ .bit b) : ¬ p.valid = true :=
  fun hv => h p.data (by simp [beatOf, hv])

/-- With `rst = 0` a decoder move takes the bit offered where `bit_ready` and `bit_valid` are 1, and no bit elsewhere
(30_encoding.md R63). -/
theorem DecoderEffect.takes_bit {s t : State} (h : DecoderEffect s t) (hrst : s.rst = false) :
    (s.bitReady = true ∧ s.offered.valid = true ∧ t.taken = s.taken ++ [s.offered.data])
    ∨ (¬ (s.bitReady = true ∧ s.offered.valid = true) ∧ t.taken = s.taken) := by
  have noBitAt : ∀ {w : Word}, s.walking = true → s.nodeRead s.cur = some w → kindOf w ≠ .internal →
      ¬ (s.bitReady = true ∧ s.offered.valid = true) :=
    fun hw hn hk hp => hk ((State.bitReady_at hw hn).1 hp.1)
  have noBitOff : ¬ s.walking = true → ¬ (s.bitReady = true ∧ s.offered.valid = true) :=
    fun hw hp => hw (State.walking_of_bitReady hp.1)
  cases h with
  | still h =>
    refine .inr ⟨noBitOff fun hw => ?_, rfl⟩
    simp [hrst, State.active_of_walking hw] at h
  | bit w b hr hw hn hk hb =>
    obtain ⟨hv, rfl⟩ := beatOf_bit hb
    exact .inl ⟨(State.bitReady_at hw hn).2 hk, hv, rfl⟩
  | exhaust w hr hw hn hk hb =>
    exact .inr ⟨fun hp => valid_false_of_beatOf (by simp [hb]) hp.2, rfl⟩
  | stall w hr hw hn hk hb =>
    exact .inr ⟨fun hp => valid_false_of_beatOf (by simp [hb]) hp.2, rfl⟩
  | leafEos w hr hw hn hk hy | leafData w hr hw hn hk hy | leafBadsym w hr hw hn hk hy =>
    exact .inr ⟨noBitAt hw hn (by simp [hk]), rfl⟩
  | badNode w hr hw hn hk => exact .inr ⟨noBitAt hw hn fun hi => by simp [hi, missingKind] at hk, rfl⟩
  | emit hr he hy | emitHold hr he hy => exact .inr ⟨noBitOff (State.not_walking_of_emitted he), rfl⟩

/-- With `rst = 0` a decoder move hands `sym_data` over where `sym_valid` and `sym_ready` are 1, and nothing elsewhere
(30_encoding.md R65). -/
theorem DecoderEffect.hands_over {s t : State} (h : DecoderEffect s t) (hrst : s.rst = false) :
    (s.symValid = true ∧ s.symReady = true ∧ t.out = s.out ++ [s.symData])
    ∨ (¬ (s.symValid = true ∧ s.symReady = true) ∧ t.out = s.out) := by
  have noneOffered : s.state ≠ .emitted → ¬ (s.symValid = true ∧ s.symReady = true) :=
    fun hs hp => hs (State.symValid_iff.1 hp.1)
  cases h with
  | still h =>
    refine .inr ⟨noneOffered fun he => ?_, rfl⟩
    simp [hrst, State.active_iff.2 (.inr (.inr he))] at h
  | emit hr he hy => exact .inl ⟨State.symValid_iff.2 he, hy, rfl⟩
  | emitHold hr he hy => exact .inr ⟨fun hp => by simp [hy] at hp, rfl⟩
  | bit _ _ _ hw | exhaust _ _ hw | stall _ _ hw | leafEos _ _ hw | leafData _ _ hw | leafBadsym _ _ hw
  | badNode _ _ hw => exact .inr ⟨noneOffered (State.not_emitted_of_walking hw), rfl⟩

end Sys2Proof.Machine

namespace Sys2Proof.Safety

open Sys2Proof.Machine

/-! The invariant of 10_state.md R35: what establishes it, and the updates that keep it. -/

/-- `resetBlock` gives every register its reset value, whatever level the pin then has (10_state.md R36). -/
theorem atReset_resetBlock (s : State) (level : Bool) : AtReset { resetBlock s with rst := level } :=
  ⟨rfl, rfl, rfl, rfl, rfl, rfl, rfl, rfl, rfl, rfl, rfl, rfl⟩

/-- Where no session is active the clauses about sessions say nothing. -/
theorem blockInv_of_inactive {s : State} (hmem : Memory.wf s.nodes = true) (herr : s.err ≠ .none ↔ s.state = .error)
    (ha : s.active = false) (hr : s.rst = true → AtReset s) : BlockInv s where
  memory := hmem
  errIffError := herr
  atRoot h := by simp [State.active, h] at ha
  rootInternal h := by simp [ha] at h
  offered h := by simp [State.active, h] at ha
  inReset := hr

theorem blockInv_of_atReset {s : State} (h : AtReset s) : BlockInv s :=
  blockInv_of_inactive (by rw [h.nodes]; rfl) (by simp [h.err, h.state]) (State.active_false_iff.2 (.inl h.state))
    fun _ => h

/-- `raise Error(code)` gives R35 (b), whatever state it is raised in. -/
theorem blockInv_raiseError {s : State} {c : ErrCode} (hmem : Memory.wf s.nodes = true) (hr : s.rst = false)
    (hc : c ≠ .none) : BlockInv (raiseError c s) :=
  blockInv_of_inactive hmem (by simp [hc]) rfl (by simp [hr])

theorem BlockInv.err_of_active {s : State} (h : BlockInv s) (ha : s.active = true) : s.err = .none := by
  by_contra he
  have := h.errIffError.1 he
  simp [State.active, this] at ha

/-- The next state of a session that goes on: its tree and ERR unchanged, R35 (c) and (e) are left to show. -/
theorem BlockInv.of_session {s t : State} (h : BlockInv s) (ha : s.active = true) (hr : t.rst = false)
    (herr : t.err = s.err) (hroot : t.root = s.root) (hnodes : t.nodes = s.nodes) (hst : t.state ≠ .error)
    (hat : t.state = .atRoot → t.cur = t.root) (hoff : t.state = .emitted → t.outsym.toNat < t.eos.toNat) :
    BlockInv t where
  memory := hnodes ▸ h.memory
  errIffError := by simp [herr, h.err_of_active ha, hst]
  atRoot := hat
  rootInternal _ := by simpa [State.nodeRead, hroot, hnodes] using h.rootInternal ha
  offered := hoff
  inReset := by simp [hr]

/-- The moves to come, the samples, the reads and the draws are not the block's. -/
theorem BlockInv.withAgents {s : State} (h : BlockInv s) (ts : List Turn) (bs : List BeatPins) (rs : List Bool)
    (vs : List Word) (n : Nat) :
    BlockInv { s with turns := ts, beats := bs, ready := rs, reads := vs, draws := n } where
  memory := h.memory
  errIffError := h.errIffError
  atRoot := h.atRoot
  rootInternal := h.rootInternal
  offered := h.offered
  inReset hr := { h.inReset hr with }

/-- With `rst = 0` no clause speaks of the sticky flags. -/
theorem BlockInv.withFlags {s : State} (h : BlockInv s) (hr : s.rst = false) (a b c : Bool) :
    BlockInv { s with wrbusy := a, cmdign := b, badcmd := c } where
  memory := h.memory
  errIffError := h.errIffError
  atRoot := h.atRoot
  rootInternal := h.rootInternal
  offered := h.offered
  inReset := by simp [hr]

/-- A level on the reset pin: the reset values, or, for a 0 on a pin that is 0, no change (log 8). -/
theorem BlockInv.setRst {s : State} (h : BlockInv s) (level : Bool) : BlockInv (setRst level s) := by
  unfold Machine.setRst
  split
  · exact blockInv_of_atReset (atReset_resetBlock s level)
  · exact h

/-- Every decoder move keeps the invariant. -/
theorem BlockInv.decoderEffect {s t : State} (h : BlockInv s) (he : DecoderEffect s t) : BlockInv t := by
  cases he with
  | still => exact h
  | bit w b hr hw hn hk hb =>
    exact h.of_session (State.active_of_walking hw) hr rfl rfl rfl (by simp) (by simp) (by simp)
  | exhaust w hr hw hn hk hb => exact blockInv_raiseError h.memory hr (by simp)
  | stall w hr hw hn hk hb => exact h.withAgents _ _ _ _ _
  | leafEos w hr hw hn hk hy =>
    exact blockInv_of_inactive h.memory (by simp [h.err_of_active (State.active_of_walking hw)]) rfl (by simp [hr])
  | leafData w hr hw hn hk hy =>
    exact h.of_session (State.active_of_walking hw) hr rfl rfl rfl (by simp) (by simp) fun _ => hy
  | leafBadsym w hr hw hn hk hy => exact blockInv_raiseError h.memory hr (by simp)
  | badNode w hr hw hn hk => exact blockInv_raiseError h.memory hr (by simp)
  | emit hr he hy =>
    exact h.of_session (State.active_iff.2 (.inr (.inr he))) hr rfl rfl rfl (by simp) (by simp) (by simp)
  | emitHold hr he hy => exact h.withAgents _ _ _ _ _

/-- Every host access performed with `rst = 0` keeps the invariant. -/
theorem BlockInv.hostEffect {s t : State} {i : Instr} (h : BlockInv s) (hr : s.rst = false) (he : HostEffect s i t) :
    BlockInv t := by
  cases he with
  | read | draw => exact h.withAgents _ _ _ _ _
  | ignored => exact h
  | dropped | startIgnored | clrf | reservedCmd => exact h.withFlags hr _ _ _
  | root d ha | eos d ha => exact blockInv_of_inactive h.memory h.errIffError ha (by simp [hr])
  | node n d ha =>
    exact blockInv_of_inactive (Memory.wf_write n d h.memory) h.errIffError ha (by simp [hr])
  | startSession d w ho ha hn hk =>
    exact { memory := h.memory, errIffError := by simp, atRoot := fun _ => rfl,
            rootInternal := fun _ => ⟨w, hn, hk⟩, offered := by simp, inReset := by simp [hr] }
  | startBadRoot d w ho ha hn hk => exact blockInv_raiseError h.memory hr (by simp)
  | abort => exact blockInv_of_inactive h.memory (by simp) rfl (by simp [hr])

end Sys2Proof.Safety

namespace Sys2Proof.Proofs

open Sys2Proof.Machine Sys2Proof.Safety

/-- Settles O4: by what the step did, each agent's move keeps the invariant. -/
theorem stepKeepsInvariant : Obligations.StepKeepsInvariant := by
  intro s t h hstep
  have used : ∀ rest, BlockInv { s with turns := rest } := fun rest => h.withAgents rest _ _ _ _
  cases step_effect hstep with
  | pin level rest => exact (used rest).setRst level
  | noAccess p rest => exact used rest
  | readInReset p rest => exact h.withAgents rest _ _ _ _
  | host p rest _ hm hs hr he => exact (used rest).hostEffect hr he
  | decoder rest _ hm he => exact (used rest).decoderEffect he

/-- Settles O5: a decoder move never writes the tree, and the host's writes of it are dropped. -/
theorem activeSessionKeepsTree : Obligations.ActiveSessionKeepsTree := by
  intro s t ha hm hstep
  have htree : t.root = s.root ∧ t.eos = s.eos ∧ t.nodes = s.nodes := by
    obtain ⟨rest, ⟨rs, rfl⟩ | ⟨i, -, he⟩ | he⟩ := step_cases_of_noResetMove hm hstep
    · exact ⟨rfl, rfl, rfl⟩
    · exact he.keeps_tree ha
    · exact he.keeps_tree
  obtain ⟨hroot, heos, hnodes⟩ := htree
  exact ⟨hroot, heos, fun i => by simp [State.nodeRead, hnodes]⟩

/-- Settles O42: a host access changes CUR by START alone, a decoder move by a bit or an accepted symbol. -/
theorem curChangesOnlyBy : Obligations.CurChangesOnlyBy := by
  intro s t hm hstep hne
  obtain ⟨rest, ⟨rs, rfl⟩ | ⟨i, hp, he⟩ | he⟩ := step_cases_of_noResetMove hm hstep
  · exact absurd rfl hne
  · obtain ⟨hcur, hc, ha⟩ := he.cur_changed hne
    exact .inl ⟨hcur, commandMoves_of_pending hp hc, ha⟩
  · exact .inr (he.cur_changed hne)

/-- Settles O43: a host access clears both counters by START or leaves them, and only a decoder move counts. -/
theorem countersCount : Obligations.CountersCount := by
  intro s t hm hstep
  obtain ⟨rest, ⟨rs, rfl⟩ | ⟨i, hp, he⟩ | he⟩ := step_cases_of_noResetMove hm hstep
  · exact .inr ⟨.inl ⟨rfl, rfl⟩, .inl ⟨rfl, rfl⟩⟩
  · obtain ⟨htaken, hout⟩ := he.keeps_streams
    rcases he.counters with ⟨hc, ha, hb, hy⟩ | ⟨hb, hy⟩
    · exact .inl ⟨commandMoves_of_pending hp hc, ha, hb, hy, htaken, hout⟩
    · exact .inr ⟨.inl ⟨hb, htaken⟩, .inl ⟨hy, hout⟩⟩
  · exact .inr he.counters

/-- Settles O44: only a host access changes a flag, and each flag has its own two causes. -/
theorem stickyFlags : Obligations.StickyFlags := by
  intro s t hm hstep
  obtain ⟨rest, ⟨rs, rfl⟩ | ⟨i, hp, he⟩ | he⟩ := step_cases_of_noResetMove hm hstep
  · exact ⟨absurd rfl, absurd rfl, absurd rfl⟩
  · refine ⟨fun hne => ?_, fun hne => ?_, fun hne => ?_⟩
    · rcases he.wrbusy_changed hne with ⟨hf, hc⟩ | ⟨hf, ha, d, hi⟩
      · exact .inl ⟨hf, commandMoves_of_pending hp hc⟩
      · exact .inr ⟨hf, ha, d, by simpa [hp] using hi⟩
    · rcases he.cmdign_changed hne with ⟨hf, hc⟩ | ⟨hf, ha, hc⟩
      · exact .inl ⟨hf, commandMoves_of_pending hp hc⟩
      · exact .inr ⟨hf, ha, commandMoves_of_pending hp hc⟩
    · rcases he.badcmd_changed hne with ⟨hf, hc⟩ | ⟨hf, d, hi, ho⟩
      · exact .inl ⟨hf, commandMoves_of_pending hp hc⟩
      · exact .inr ⟨hf, opOf d, ho, commandMoves_of_pending hp ⟨d, hi, rfl⟩⟩
  · obtain ⟨hw, hc, hb⟩ := he.keeps_flags
    exact ⟨absurd hw, absurd hc, absurd hb⟩

/-- Settles O45: each effect of a decoder move, and its fault, is there whatever the flags are. -/
theorem flagsNeverChangeTheWalk : Obligations.FlagsNeverChangeTheWalk := by
  intro s rest a b c hm
  have hflagged : step { s with wrbusy := a, cmdign := b, badcmd := c }
      = decoderTurn { s with turns := rest, wrbusy := a, cmdign := b, badcmd := c } := step_decoder hm
  rw [hflagged, step_decoder hm]
  constructor
  · intro t hstep
    have he := decoderTurn_effect hstep
    obtain ⟨hw, hc, hb⟩ := he.keeps_flags
    exact ⟨hw, hc, hb, decoderTurn_of_effect (he.withFlags a b c)⟩
  · rintro ⟨⟩ hfault
    obtain ⟨hr, hw, hn⟩ := decoderTurn_fault hfault
    exact decoderTurn_unwritten hr hw hn

/-- Settles O48: a decoder move takes a bit, or hands over a symbol, exactly where both sides of the port agree. -/
theorem handshakesFollowPorts : Obligations.HandshakesFollowPorts := by
  intro s t rest hrst hm hstep
  rw [step_decoder hm] at hstep
  have he := decoderTurn_effect hstep
  have hbit : (s.bitReady = true ∧ s.offered.valid = true ∧ t.taken = s.taken ++ [s.offered.data])
      ∨ (¬ (s.bitReady = true ∧ s.offered.valid = true) ∧ t.taken = s.taken) := he.takes_bit hrst
  have hsym : (s.symValid = true ∧ s.symReady = true ∧ t.out = s.out ++ [s.symData])
      ∨ (¬ (s.symValid = true ∧ s.symReady = true) ∧ t.out = s.out) := he.hands_over hrst
  refine ⟨?_, ?_, ?_⟩
  · rcases hbit with ⟨hr, hv, htaken⟩ | ⟨hno, htaken⟩
    · exact iff_of_true ⟨_, htaken⟩ ⟨hr, hv⟩
    · exact iff_of_false (by simp [htaken]) hno
  · intro hr hv
    rcases hbit with ⟨-, -, htaken⟩ | ⟨hno, -⟩
    · exact htaken
    · exact absurd ⟨hr, hv⟩ hno
  · rcases hsym with ⟨hv, hr, hout⟩ | ⟨hno, hout⟩
    · exact iff_of_true hout ⟨hv, hr⟩
    · exact iff_of_false (by simp [hout]) hno

/-- Settles O1: each register's value is the field of `State.reset`, and the ports are those of IDLE. -/
theorem resetValues : Obligations.ResetValues :=
  ⟨rfl, rfl, rfl, rfl, rfl, rfl, rfl, rfl, rfl, rfl, rfl, fun _ => rfl, rfl, rfl, rfl, rfl, rfl, rfl⟩

/-- Settles O3: the reset values meet the invariant, and a reset of `State.reset` leaves it as it is. -/
theorem invariantAtReset : Obligations.InvariantAtReset :=
  blockInv_of_atReset (atReset_resetBlock State.reset false)

/-- Settles O18: the two tables of 10_state.md R20 and R21, row by row. -/
theorem stateAndErrValues : Obligations.StateAndErrValues :=
  ⟨rfl, rfl, rfl, rfl, rfl, rfl, rfl, rfl, rfl, rfl, rfl⟩

/-- Settles O49: each level is its state, and `bit_ready` is 1 only in AT_ROOT and DESCENDING. -/
theorem levelOutputs : Obligations.LevelOutputs := by
  intro s
  refine ⟨by simp [State.doneO], by simp [State.errO], State.active_iff, State.symValid_iff, fun hb => ?_⟩
  have hw := State.walking_of_bitReady hb
  exact ⟨State.active_of_walking hw, by simp [State.symValid, State.not_emitted_of_walking hw]⟩

end Sys2Proof.Proofs
end

section
/-! PROOFS of the statements about 20_memory.md: host reads change nothing, and the unmapped addresses hold nothing. -/

namespace Sys2Proof.Machine

/-- The reserved and unmapped addresses (20_memory.md R42) decode to the unmapped accesses, read and write. -/
theorem decodeBus_unmapped {a : HostAddr} (d : Word) (hlow : 0x007 ≤ a.toNat) (hhigh : a.toNat ≤ 0x3FF) :
    decodeBus false a d = .rdUnmapped a ∧ decodeBus true a d = .wrUnmapped a d := by
  have ht : targetOf a = .unmapped a := targetOf_unmapped hlow (Nat.lt_succ_of_le hhigh)
  simp [decodeBus, ht]

theorem exec_rdUnmapped (a : HostAddr) (s : State) : exec (.rdUnmapped a) s = .next (returnRead 0#32 s) := rfl

theorem exec_wrUnmapped (a : HostAddr) (d : Word) (s : State) : exec (.wrUnmapped a d) s = .next s := rfl

/-- A host read of any address answers: with a value, or with a free draw (40_host_ops.md R73, R88). -/
theorem exec_hostRead_answers (a : HostAddr) (d : Word) (s : State) :
    (∃ v, exec (decodeBus false a d) s = .next (returnRead v s))
    ∨ exec (decodeBus false a d) s = .next (returnDraw s) := by
  cases ht : targetOf a with
  | node i =>
    cases hn : s.nodeRead i with
    | some w => exact .inl ⟨w, by simp [decodeBus, ht, exec, execRdNode, hn]⟩
    | none => exact .inr (by simp [decodeBus, ht, exec, execRdNode, hn])
  | cmd | status | root | eos | cur | bitcnt | symcnt | unmapped b =>
    exact .inl ⟨_, by simp only [decodeBus, ht]; rfl⟩

end Sys2Proof.Machine

namespace Sys2Proof.Proofs

open Sys2Proof.Machine

/-- Settles O21: a read that returns a value leaves the count of draws, and a free draw advances it by one. -/
theorem hostReadsHaveNoSideEffect : Obligations.HostReadsHaveNoSideEffect := by
  intro a d s
  rcases exec_hostRead_answers a d s with ⟨v, hread⟩ | hdraw
  · exact ⟨v, s.draws, hread⟩
  · exact ⟨Config.freeWord s.stream s.draws, s.draws + 1, hdraw⟩

/-- Settles O20: both accesses decode to the unmapped ones, of which the read returns 0 and the write holds. -/
theorem unmappedAddresses : Obligations.UnmappedAddresses := by
  intro a d s hlow hhigh
  obtain ⟨hread, hwrite⟩ := decodeBus_unmapped d hlow hhigh
  rw [hread, hwrite]
  exact ⟨exec_rdUnmapped a s, exec_wrUnmapped a d s, exec_rdUnmapped a s, exec_wrUnmapped a d s⟩

end Sys2Proof.Proofs
end

section
/-! PROOFS of the statements about 30_encoding.md: the tables of the decoders, that decoding and encoding are inverse, and
that the NODE and BEAT instructions are the decoder's step (log 10). -/

namespace Sys2Proof

open Sys2Proof.Machine

/-! Host accesses (30_encoding.md R67). -/

/-- From 0x400 on an address names the entry `haddr[9:0]` (30_encoding.md R61). -/
theorem decodeBus_node {a : HostAddr} (d : Word) (h : 0x400 ≤ a.toNat) :
    decodeBus false a d = .rdNode (nodeIndexOf a) ∧ decodeBus true a d = .wrNode (nodeIndexOf a) d := by
  simp [decodeBus, targetOf_node h]

theorem decodeBus_nodeAddr (i : Index) (d : Word) :
    decodeBus false (nodeAddr i) d = .rdNode i ∧ decodeBus true (nodeAddr i) d = .wrNode i d := by
  simp [decodeBus]

theorem unmappedAddr_iff {a : HostAddr} : unmappedAddr a = true ↔ 0x007 ≤ a.toNat ∧ a.toNat ≤ 0x3FF := by
  simp only [unmappedAddr, Bool.and_eq_true, decide_eq_true_eq]
  omega

/-- The instruction of a host access encodes to that access; a read's `hwdata` is not kept. -/
theorem encode_decodeBus (hwe : Bool) (a : HostAddr) (d : Word) :
    WellFormed (decodeBus hwe a d) = true
    ∧ encode (decodeBus hwe a d) = .ofBus hwe a (if hwe then d else 0#32) := by
  by_cases hreg : a.toNat < 7
  · rcases registerAddr_cases hreg with rfl | rfl | rfl | rfl | rfl | rfl | rfl <;> cases hwe <;> exact ⟨rfl, rfl⟩
  have hlow : 7 ≤ a.toNat := Nat.le_of_not_lt hreg
  by_cases hmid : a.toNat ≤ 0x3FF
  · obtain ⟨hread, hwrite⟩ := decodeBus_unmapped d hlow hmid
    have hun : unmappedAddr a = true := unmappedAddr_iff.2 ⟨hlow, hmid⟩
    cases hwe
    · rw [hread]; exact ⟨hun, rfl⟩
    · rw [hwrite]; exact ⟨hun, rfl⟩
  · have hhigh : 0x400 ≤ a.toNat := Nat.lt_of_not_le hmid
    obtain ⟨hread, hwrite⟩ := decodeBus_node d hhigh
    cases hwe
    · rw [hread]; exact ⟨rfl, by simp [encode, nodeAddr_nodeIndexOf hhigh]⟩
    · rw [hwrite]; exact ⟨rfl, by simp [encode, nodeAddr_nodeIndexOf hhigh]⟩

/-! Commands (30_encoding.md R59, R60). -/

@[simp] theorem opOf_append (rsv : BitVec 28) (op : BitVec 4) : opOf (rsv ++ op) = op := extract_append_low rsv op

@[simp] theorem cmdRsvOf_append (rsv : BitVec 28) (op : BitVec 4) : cmdRsvOf (rsv ++ op) = rsv :=
  extract_append_high rsv op

/-- A command word is its reserved bits and its opcode. -/
theorem cmdRsvOf_append_opOf (d : Word) : cmdRsvOf d ++ opOf d = d := append_extract (m := 28) (n := 4) d

theorem decodeCmd_nop (rsv : BitVec 28) : decodeCmd (rsv ++ 0x0#4) = .nop rsv := by simp [decodeCmd]

theorem decodeCmd_start (rsv : BitVec 28) : decodeCmd (rsv ++ 0x1#4) = .start rsv := by simp [decodeCmd]

theorem decodeCmd_abort (rsv : BitVec 28) : decodeCmd (rsv ++ 0x2#4) = .abort rsv := by simp [decodeCmd]

theorem decodeCmd_clrf (rsv : BitVec 28) : decodeCmd (rsv ++ 0x3#4) = .clrf rsv := by simp [decodeCmd]

theorem decodeCmd_reserved (rsv : BitVec 28) {op : BitVec 4} (h : 4 ≤ op.toNat) :
    decodeCmd (rsv ++ op) = .cmdReserved rsv op := by
  unfold decodeCmd
  rw [opOf_append, cmdRsvOf_append]
  split
  case h_5 => rfl
  all_goals omega

theorem opcode_cases : ∀ op : BitVec 4, op = 0x0#4 ∨ op = 0x1#4 ∨ op = 0x2#4 ∨ op = 0x3#4 ∨ 4 ≤ op.toNat := by decide

theorem encode_decodeCmd (d : Word) :
    WellFormed (decodeCmd d) = true ∧ encode (decodeCmd d) = .ofCmd (cmdRsvOf d) (opOf d) := by
  obtain ⟨rsv, op, rfl⟩ : ∃ rsv op, rsv ++ op = d := ⟨_, _, cmdRsvOf_append_opOf d⟩
  rw [opOf_append, cmdRsvOf_append]
  rcases opcode_cases op with rfl | rfl | rfl | rfl | h
  · rw [decodeCmd_nop]; exact ⟨rfl, rfl⟩
  · rw [decodeCmd_start]; exact ⟨rfl, rfl⟩
  · rw [decodeCmd_abort]; exact ⟨rfl, rfl⟩
  · rw [decodeCmd_clrf]; exact ⟨rfl, rfl⟩
  · rw [decodeCmd_reserved rsv h]; exact ⟨by simp [WellFormed, reservedOp, h], rfl⟩

/-! Node entries (30_encoding.md R54 to R57). -/

theorem decodeNode_empty {w : Word} (h : kindOf w = .empty) : decodeNode w = .empty (w.extractLsb' 0 30) := by
  simp [decodeNode, h]

theorem decodeNode_internal {w : Word} (h : kindOf w = .internal) :
    decodeNode w = .internal (w.extractLsb' 20 10) (rightOf w) (leftOf w) := by
  simp [decodeNode, h]

theorem decodeNode_leaf {w : Word} (h : kindOf w = .leaf) : decodeNode w = .leaf (w.extractLsb' 9 21) (symOf w) := by
  simp [decodeNode, h]

theorem decodeNode_reserved {w : Word} (h : kindOf w = .reserved) :
    decodeNode w = .reserved (w.extractLsb' 0 30) := by
  simp [decodeNode, h]

theorem decodeNode_emptyWord (rsv : BitVec 30) : decodeNode (emptyWord rsv) = .empty rsv := by
  obtain ⟨hk, hrsv⟩ := emptyWord_fields rsv
  rw [decodeNode_empty ((kindOf_eq _).1.2 hk), hrsv]

theorem decodeNode_internalWord (rsv : BitVec 10) (right left : Index) :
    decodeNode (internalWord rsv right left) = .internal rsv right left := by
  obtain ⟨hk, hrsv, hright, hleft⟩ := internalWord_fields rsv right left
  rw [decodeNode_internal ((kindOf_eq _).2.1.2 hk), rightOf, leftOf, hrsv, hright, hleft]

theorem decodeNode_leafWord (rsv : BitVec 21) (sym : SymId) : decodeNode (leafWord rsv sym) = .leaf rsv sym := by
  obtain ⟨hk, hrsv, hsym⟩ := leafWord_fields rsv sym
  rw [decodeNode_leaf ((kindOf_eq _).2.2.1.2 hk), symOf, hrsv, hsym]

theorem decodeNode_reservedWord (rsv : BitVec 30) : decodeNode (reservedWord rsv) = .reserved rsv := by
  obtain ⟨hk, hrsv⟩ := reservedWord_fields rsv
  rw [decodeNode_reserved ((kindOf_eq _).2.2.2.2 hk), hrsv]

/-- An INTERNAL entry is its fields, side by side. -/
theorem internalWord_of_fields {w : Word} (h : w.extractLsb' 30 2 = 0b01#2) :
    internalWord (w.extractLsb' 20 10) (rightOf w) (leftOf w) = w := by
  unfold internalWord rightOf leftOf
  rw [← h, BitVec.extractLsb'_append_extractLsb'_eq_extractLsb' (rfl : 30 = 20 + 10),
    BitVec.extractLsb'_append_extractLsb'_eq_extractLsb' (rfl : 20 = 10 + 10),
    BitVec.extractLsb'_append_extractLsb'_eq_extractLsb' (rfl : 10 = 0 + 10)]
  exact BitVec.extractLsb'_eq_self

/-- A LEAF entry is its fields, side by side. -/
theorem leafWord_of_fields {w : Word} (h : w.extractLsb' 30 2 = 0b10#2) :
    leafWord (w.extractLsb' 9 21) (symOf w) = w := by
  unfold leafWord symOf
  rw [← h, BitVec.extractLsb'_append_extractLsb'_eq_extractLsb' (rfl : 30 = 9 + 21),
    BitVec.extractLsb'_append_extractLsb'_eq_extractLsb' (rfl : 9 = 0 + 9)]
  exact BitVec.extractLsb'_eq_self

/-- An entry of any kind is its two kind bits and the rest. -/
theorem kind_append_rest {w : Word} {k : BitVec 2} (h : w.extractLsb' 30 2 = k) : k ++ w.extractLsb' 0 30 = w := by
  rw [← h]
  exact append_extract (m := 2) (n := 30) w

theorem encode_decodeNode (w : Word) : WellFormed (decodeNode w) = true ∧ encode (decodeNode w) = .ofNode w := by
  obtain ⟨hempty, hinternal, hleaf, hreserved⟩ := kindOf_eq w
  cases hk : kindOf w with
  | empty =>
    rw [decodeNode_empty hk]
    exact ⟨rfl, congrArg Encoded.ofNode (kind_append_rest (hempty.1 hk))⟩
  | internal =>
    rw [decodeNode_internal hk]
    exact ⟨rfl, congrArg Encoded.ofNode (internalWord_of_fields (hinternal.1 hk))⟩
  | leaf =>
    rw [decodeNode_leaf hk]
    exact ⟨rfl, congrArg Encoded.ofNode (leafWord_of_fields (hleaf.1 hk))⟩
  | reserved =>
    rw [decodeNode_reserved hk]
    exact ⟨rfl, congrArg Encoded.ofNode (kind_append_rest (hreserved.1 hk))⟩

/-! Beats, decoder steps and the sink (30_encoding.md R63 to R65). -/

theorem beatOf_of_valid {p : BeatPins} (h : p.valid = true) : beatOf p = .bit p.data := by simp [beatOf, h]

theorem beatOf_of_eof {p : BeatPins} (hv : p.valid = false) (he : p.eof = true) : beatOf p = .eof := by
  simp [beatOf, hv, he]

theorem beatOf_of_stall {p : BeatPins} (hv : p.valid = false) (he : p.eof = false) : beatOf p = .stall := by
  simp [beatOf, hv, he]

theorem encode_decodeBeat (p : BeatPins) : WellFormed (decodeBeat p) = true ∧ encode (decodeBeat p) = .ofBeat p := by
  obtain ⟨eof, valid, data⟩ := p
  cases valid
  · cases eof <;> exact ⟨rfl, rfl⟩
  · cases data <;> exact ⟨rfl, rfl⟩

/-- The relation to EOS is kept for a LEAF, the only kind whose step depends on it. -/
theorem encode_decodeStep (k : NodeKind) (p : BeatPins) (r : SymRel) :
    WellFormed (decodeStep k p r) = true
    ∧ encode (decodeStep k p r) = .ofStep k p (if k = .leaf then r else .isEos) := by
  cases k with
  | empty | reserved => exact ⟨rfl, rfl⟩
  | leaf => cases r <;> exact ⟨rfl, rfl⟩
  | internal =>
    obtain ⟨eof, valid, data⟩ := p
    cases valid
    · cases eof <;> exact ⟨rfl, rfl⟩
    · cases data <;> exact ⟨rfl, rfl⟩

theorem beatWord_of_pins : ∀ w < 2 ^ 3, (beatWord (beatPinsOf w)).toNat = w := by decide

theorem stepWord_of_pins : ∀ w < 2 ^ 5, (stepWord (kindOfBits (w / 8)) (beatPinsOf w)).toNat = w := by decide

theorem encode_decodeSink : ∀ w < 2 ^ 1,
    WellFormed (decodeSink (w.testBit 0)) = true ∧ encode (decodeSink (w.testBit 0)) = { fmt := .sink, word := w } := by
  decide

/-! Numbers. -/

theorem toNat_ofNat_of_fits {n w : Nat} (h : w < 2 ^ n) : (BitVec.ofNat n w).toNat = w := by
  rw [BitVec.toNat_ofNat, Nat.mod_eq_of_lt h]

theorem decode_of_fits {f : Format} {w : Nat} (h : w < 2 ^ f.width) (d : Word) (r : SymRel) :
    decode f w d r = .instr (decodeBits f w d r) := if_pos h

theorem decode_of_wide {f : Format} {w : Nat} (h : 2 ^ f.width ≤ w) (d : Word) (r : SymRel) :
    decode f w d r = .rejected (.widerThan f) := if_neg (Nat.not_lt_of_le h)

/-- A number that fits its format is the word of the well-formed instruction it decodes to. -/
theorem encode_decodeBits {f : Format} {w : Nat} (h : w < 2 ^ f.width) (d : Word) (r : SymRel) :
    WellFormed (decodeBits f w d r) = true
    ∧ (encode (decodeBits f w d r)).fmt = f ∧ (encode (decodeBits f w d r)).word = w := by
  cases f with
  | bus =>
    obtain ⟨hwf, he⟩ := encode_decodeBus (w.testBit 11) (BitVec.ofNat 11 w) d
    exact ⟨hwf, congrArg Encoded.fmt he, (congrArg Encoded.word he).trans (busWord_of_pins h)⟩
  | cmd =>
    obtain ⟨hwf, he⟩ := encode_decodeCmd (BitVec.ofNat 32 w)
    refine ⟨hwf, congrArg Encoded.fmt he, (congrArg Encoded.word he).trans ?_⟩
    rw [Encoded.ofCmd, cmdRsvOf_append_opOf]
    exact toNat_ofNat_of_fits h
  | node =>
    obtain ⟨hwf, he⟩ := encode_decodeNode (BitVec.ofNat 32 w)
    exact ⟨hwf, congrArg Encoded.fmt he, (congrArg Encoded.word he).trans (toNat_ofNat_of_fits h)⟩
  | beat =>
    obtain ⟨hwf, he⟩ := encode_decodeBeat (beatPinsOf w)
    exact ⟨hwf, congrArg Encoded.fmt he, (congrArg Encoded.word he).trans (beatWord_of_pins w h)⟩
  | step =>
    obtain ⟨hwf, he⟩ := encode_decodeStep (kindOfBits (w / 8)) (beatPinsOf w) r
    exact ⟨hwf, congrArg Encoded.fmt he, (congrArg Encoded.word he).trans (stepWord_of_pins w h)⟩
  | sink =>
    obtain ⟨hwf, he⟩ := encode_decodeSink w h
    exact ⟨hwf, congrArg Encoded.fmt he, congrArg Encoded.word he⟩

end Sys2Proof

namespace Sys2Proof.Machine

/-! The NODE instructions, in AT_ROOT and DESCENDING (30_encoding.md R54; log 10). -/

theorem onWalk_walking {f : State → State} {s : State} (hw : s.walking = true) : onWalk f s = .next (f s) := if_pos hw

theorem exec_empty_walking (rsv : BitVec 30) {s : State} (hw : s.walking = true) :
    exec (.empty rsv) s = .next (raiseError .badNode s) := onWalk_walking hw

theorem exec_reserved_walking (rsv : BitVec 30) {s : State} (hw : s.walking = true) :
    exec (.reserved rsv) s = .next (raiseError .badNode s) := onWalk_walking hw

theorem exec_leaf_walking (rsv : BitVec 21) (sym : SymId) {s : State} (hw : s.walking = true) :
    exec (.leaf rsv sym) s = .next (resolveLeaf sym s) := onWalk_walking hw

theorem exec_internal_bit (rsv : BitVec 10) (right left : Index) {s : State} {b : Bool} (hw : s.walking = true)
    (hb : beatOf s.offered = .bit b) :
    exec (.internal rsv right left) s = .next (descendTo b (if b then right else left) s) := by
  simp [exec, execInternal, onWalk_walking hw, hb]

theorem exec_internal_eof (rsv : BitVec 10) (right left : Index) {s : State} (hw : s.walking = true)
    (hb : beatOf s.offered = .eof) :
    exec (.internal rsv right left) s = .next (raiseError .exhausted (useBeat s)) := by
  simp [exec, execInternal, onWalk_walking hw, hb]

theorem exec_internal_stall (rsv : BitVec 10) (right left : Index) {s : State} (hw : s.walking = true)
    (hb : beatOf s.offered = .stall) :
    exec (.internal rsv right left) s = .next (useBeat s) := by
  simp [exec, execInternal, onWalk_walking hw, hb]

theorem resolveLeaf_isEos {sym : SymId} {s : State} (h : sym = s.eos) : resolveLeaf sym s = endOfStream s := by
  rw [resolveLeaf, symRel_isEos.2 h]

theorem resolveLeaf_isData {sym : SymId} {s : State} (h : sym.toNat < s.eos.toNat) :
    resolveLeaf sym s = offerSymbol sym s := by
  rw [resolveLeaf, symRel_isData.2 h]

theorem resolveLeaf_isBad {sym : SymId} {s : State} (h : s.eos.toNat < sym.toNat) :
    resolveLeaf sym s = raiseError .badSym s := by
  rw [resolveLeaf, symRel_isBad.2 h]

/-! The BEAT instructions, at an INTERNAL entry (30_encoding.md R63; log 10). -/

section

variable {s : State} {w : Word} (hw : s.walking = true) (hn : s.nodeRead s.cur = some w) (hk : kindOf w = .internal)

include hw hn hk

theorem exec_bit0_internal (eof : Bool) : exec (.bit0 eof) s = .next (descendTo false (leftOf w) s) := by
  rw [exec, execBit0, onNode_at hw hn hk]

theorem exec_bit1_internal (eof : Bool) : exec (.bit1 eof) s = .next (descendTo true (rightOf w) s) := by
  rw [exec, execBit1, onNode_at hw hn hk]

theorem exec_eof_internal (data : Bool) : exec (.eof data) s = .next (raiseError .exhausted (useBeat s)) := by
  rw [exec, execEof, onNode_at hw hn hk]

theorem exec_stall_internal (data : Bool) : exec (.stall data) s = .next (useBeat s) := by
  rw [exec, execStall, onNode_at hw hn hk]

end

/-! The decoder's turn, by the views (log 10). -/

/-- At a written entry the decoder's turn is the NODE instruction of the entry. -/
theorem decoderTurn_eq_exec_decodeNode {s : State} {w : Word} (hr : s.rst = false) (hw : s.walking = true)
    (hn : s.nodeRead s.cur = some w) : decoderTurn s = exec (decodeNode w) s := by
  cases hk : kindOf w with
  | empty =>
    rw [decodeNode_empty hk, exec_empty_walking _ hw]
    exact decoderTurn_missing hr hw hn (by rw [hk]; rfl)
  | reserved =>
    rw [decodeNode_reserved hk, exec_reserved_walking _ hw]
    exact decoderTurn_missing hr hw hn (by rw [hk]; rfl)
  | leaf =>
    rw [decodeNode_leaf hk, exec_leaf_walking _ _ hw]
    exact decoderTurn_leaf hr hw hn hk
  | internal =>
    rw [decodeNode_internal hk]
    cases hb : beatOf s.offered with
    | bit b =>
      rw [exec_internal_bit _ _ _ hw hb]
      exact decoderTurn_of_effect (.bit w b hr hw hn hk hb)
    | eof =>
      rw [exec_internal_eof _ _ _ hw hb]
      exact decoderTurn_of_effect (.exhaust w hr hw hn hk hb)
    | stall =>
      rw [exec_internal_stall _ _ _ hw hb]
      exact decoderTurn_of_effect (.stall w hr hw hn hk hb)

/-- At an INTERNAL entry it is the BEAT instruction of the beat offered. -/
theorem decoderTurn_eq_exec_decodeBeat {s : State} {w : Word} (hr : s.rst = false) (hw : s.walking = true)
    (hn : s.nodeRead s.cur = some w) (hk : kindOf w = .internal) :
    decoderTurn s = exec (decodeBeat s.offered) s := by
  cases hb : beatOf s.offered with
  | bit b =>
    rw [decoderTurn_of_effect (.bit w b hr hw hn hk hb)]
    cases b
    · simp only [decodeBeat, hb, exec_bit0_internal hw hn hk, childOf, Bool.false_eq_true, if_false]
    · simp only [decodeBeat, hb, exec_bit1_internal hw hn hk, childOf, if_true]
  | eof =>
    rw [decoderTurn_of_effect (.exhaust w hr hw hn hk hb)]
    simp only [decodeBeat, hb, exec_eof_internal hw hn hk]
  | stall =>
    rw [decoderTurn_of_effect (.stall w hr hw hn hk hb)]
    simp only [decodeBeat, hb, exec_stall_internal hw hn hk]

end Sys2Proof.Machine

namespace Sys2Proof.Proofs

open Sys2Proof.Machine Sys2Proof.Safety

/-- Settles O9: the registers by their addresses, the rest by the two ranges above them. -/
theorem busDecodeTable : Obligations.BusDecodeTable := fun d =>
  ⟨rfl, rfl, rfl, rfl, rfl, rfl, rfl, rfl, rfl, rfl, rfl, rfl, rfl, rfl,
    fun _ hlow hhigh => decodeBus_unmapped d hlow hhigh, fun _ hlow => decodeBus_node d hlow⟩

/-- Settles O10: the two kind bits select the decoding, which takes the fields. -/
theorem nodeFields : Obligations.NodeFields := by
  intro w
  obtain ⟨hempty, hinternal, hleaf, hreserved⟩ := kindOf_eq w
  exact ⟨fun h => decodeNode_empty (hempty.2 h), fun h => decodeNode_internal (hinternal.2 h),
    fun h => decodeNode_leaf (hleaf.2 h), fun h => decodeNode_reserved (hreserved.2 h)⟩

/-- Settles O11: the opcode is the low four bits whatever stands above it, and `bit_valid` is tested first. -/
theorem commandAndBeatTables : Obligations.CommandAndBeatTables := by
  constructor
  · exact fun rsv => ⟨decodeCmd_nop rsv, decodeCmd_start rsv, decodeCmd_abort rsv, decodeCmd_clrf rsv,
      fun _ hop => decodeCmd_reserved rsv hop⟩
  · exact fun _ => ⟨rfl, rfl, rfl, rfl⟩

/-- Settles O8: each word falls in its row of the tables. -/
theorem specWordsDecode : Obligations.SpecWordsDecode :=
  ⟨rfl, rfl, rfl, rfl, rfl, rfl, rfl, rfl, rfl, rfl, rfl, rfl, rfl⟩

/-- Settles O6: decoding the encoder's word is its format's decoder on the parts the encoder put together, and each
instruction is that decoder's answer on its own parts. -/
theorem decodeOfEncode : Obligations.DecodeOfEncode := by
  intro i hwf
  cases i with
  | rdCmd | rdStatus | rdRoot | rdEos | rdCur | rdBitcnt | rdSymcnt => exact decodeEncoded_ofBus false _ _
  | wrCmd d | wrStatus d | wrRoot d | wrEos d | wrCur d | wrBitcnt d | wrSymcnt d => exact decodeEncoded_ofBus true _ d
  | rdNode n => rw [encode, decodeEncoded_ofBus, (decodeBus_nodeAddr n _).1]
  | wrNode n d => rw [encode, decodeEncoded_ofBus, (decodeBus_nodeAddr n d).2]
  | rdUnmapped a =>
    obtain ⟨hlow, hhigh⟩ := unmappedAddr_iff.1 hwf
    rw [encode, decodeEncoded_ofBus, (decodeBus_unmapped _ hlow hhigh).1]
  | wrUnmapped a d =>
    obtain ⟨hlow, hhigh⟩ := unmappedAddr_iff.1 hwf
    rw [encode, decodeEncoded_ofBus, (decodeBus_unmapped d hlow hhigh).2]
  | nop rsv => rw [encode, decodeEncoded_ofCmd, decodeCmd_nop]
  | start rsv => rw [encode, decodeEncoded_ofCmd, decodeCmd_start]
  | abort rsv => rw [encode, decodeEncoded_ofCmd, decodeCmd_abort]
  | clrf rsv => rw [encode, decodeEncoded_ofCmd, decodeCmd_clrf]
  | cmdReserved rsv op => rw [encode, decodeEncoded_ofCmd, decodeCmd_reserved rsv (of_decide_eq_true hwf)]
  | empty rsv => rw [encode, decodeEncoded_ofNode, decodeNode_emptyWord]
  | internal rsv right left => rw [encode, decodeEncoded_ofNode, decodeNode_internalWord]
  | leaf rsv sym => rw [encode, decodeEncoded_ofNode, decodeNode_leafWord]
  | reserved rsv => rw [encode, decodeEncoded_ofNode, decodeNode_reservedWord]
  | bit0 x | bit1 x | eof x | stall x => exact decodeEncoded_ofBeat _
  | stepBit0 x | stepBit1 x | stepExhaust x | stepStall x => exact decodeEncoded_ofStep .internal _ _
  | stepLeafEos p | stepLeafData p | stepLeafBadsym p => exact decodeEncoded_ofStep .leaf p _
  | stepBadnode k p =>
    cases k with
    | empty | reserved => exact decodeEncoded_ofStep _ p _
    | internal | leaf => cases hwf
  | stepEmit | stepEmitHold => rfl

/-- Settles O7: the number's bits are the parts its instruction was decoded from, put together again. -/
theorem encodeOfDecode : Obligations.EncodeOfDecode := fun f w d r =>
  ⟨fun h => ⟨decodeBits f w d r, decode_of_fits h d r, encode_decodeBits h d r⟩, fun h => decode_of_wide h d r⟩

/-- Settles O14: the step is the decoder's turn, which both views equal. -/
theorem entryAndBeatViewsAgree : Obligations.EntryAndBeatViewsAgree := by
  intro s rest w hr hm hw hn
  rw [step_decoder hm]
  exact ⟨decoderTurn_eq_exec_decodeNode hr hw hn, decoderTurn_eq_exec_decodeBeat hr hw hn⟩

/-- Settles O37: each NODE instruction by its own fields, and INTERNAL by the beat the offered pins stand for. -/
theorem entriesReached : Obligations.EntriesReached := by
  intro s hw
  refine ⟨fun rsv => ⟨exec_empty_walking rsv hw, exec_reserved_walking rsv hw⟩, fun rsv sym => ?_,
    fun rsv right left => ?_⟩
  · rw [exec_leaf_walking rsv sym hw]
    exact ⟨fun h => congrArg _ (resolveLeaf_isEos h), fun h => congrArg _ (resolveLeaf_isData h),
      fun h => congrArg _ (resolveLeaf_isBad h)⟩
  · refine ⟨fun hv hd => ?_, fun hv hd => ?_, fun hv he => ?_, fun hv he => ?_⟩
    · exact exec_internal_bit rsv right left hw (b := false) (by rw [beatOf_of_valid hv, hd])
    · exact exec_internal_bit rsv right left hw (b := true) (by rw [beatOf_of_valid hv, hd])
    · exact ⟨s.beats.tail, exec_internal_eof rsv right left hw (beatOf_of_eof hv he)⟩
    · exact ⟨s.beats.tail, exec_internal_stall rsv right left hw (beatOf_of_stall hv he)⟩

/-- Settles O38: the four BEAT instructions at an INTERNAL entry. -/
theorem beatsSeen : Obligations.BeatsSeen := by
  intro x w s hw hn hbits
  have hk : kindOf w = .internal := (kindOf_eq w).2.1.2 hbits
  exact ⟨exec_bit0_internal hw hn hk x, exec_bit1_internal hw hn hk x,
    ⟨s.beats.tail, exec_eof_internal hw hn hk x⟩, ⟨s.beats.tail, exec_stall_internal hw hn hk x⟩⟩

end Sys2Proof.Proofs
end

section
/-! PROOFS of the statements about 40_host_ops.md: what each host access does, the commands of a CMD write, and where a
step faults. -/

namespace Sys2Proof

/-! Fields of a zero-extended register (00_scope.md R7). -/

/-- Zero extension leaves the fields of the 32 bits as they are. -/
theorem extract_zext32 {n : Nat} (v : BitVec n) {k l : Nat} (h : k + l ≤ 32) :
    (zext32 v).extractLsb' k l = v.extractLsb' k l := by
  apply BitVec.eq_of_getLsbD_eq
  intro i hi
  have h32 : k + i < 32 := by omega
  simp [hi, h32]

/-- Zero extension puts 0 above the value. -/
theorem extract_zext32_above {n : Nat} (v : BitVec n) (l : Nat) : (zext32 v).extractLsb' n l = 0#l := by
  apply BitVec.eq_of_getLsbD_eq
  intro i hi
  simp

end Sys2Proof

namespace Sys2Proof.Machine

open Sys2Proof.Safety

/-! STATUS (10_state.md R19). -/

/-- STATE and ERR stand in STATUS where R19 places them, with 0 above the flags. -/
theorem State.statusWord_codes (s : State) :
    s.statusWord.extractLsb' 0 3 = stateBits s.state ∧ s.statusWord.extractLsb' 4 3 = errBits s.err
    ∧ s.statusWord.extractLsb' 11 21 = 0#21 := by
  refine ⟨?_, ?_, extract_zext32_above _ 21⟩
  · exact (extract_zext32 _ (by decide)).trans (extract_append_low _ _)
  · exact (extract_zext32 _ (by decide)).trans ((extract_append_inHigh (n := 3) (k := 1) _ _).trans
      ((extract_append_inHigh (n := 1) (k := 0) _ _).trans (extract_append_low _ _)))

/-- The two unused bits of STATUS are 0, and each sticky flag is its bit. -/
theorem State.statusWord_bits (s : State) :
    s.statusWord.getLsbD 3 = false ∧ s.statusWord.getLsbD 7 = false ∧ s.statusWord.getLsbD 8 = s.wrbusy
    ∧ s.statusWord.getLsbD 9 = s.cmdign ∧ s.statusWord.getLsbD 10 = s.badcmd := by
  simp only [State.statusWord, BitVec.getLsbD_setWidth, BitVec.getLsbD_append]
  simp

/-! Accesses to an entry (40_host_ops.md R88). -/

theorem exec_rdNode_written {s : State} {i : Index} {w : Word} (hn : s.nodeRead i = some w) :
    exec (.rdNode i) s = .next (returnRead w s) := by
  simp [exec, execRdNode, hn]

theorem exec_rdNode_unwritten {s : State} {i : Index} (hn : s.nodeRead i = none) :
    exec (.rdNode i) s = .next (returnDraw s) := by
  simp [exec, execRdNode, hn]

/-- `written[i]` is 0 where the entry has no value to read (10_state.md R32). -/
theorem State.written_eq_false {s : State} {i : Index} : s.written i = false ↔ s.nodeRead i = none := by
  simp [State.written]

theorem State.written_of_nodeRead {s : State} {i : Index} {w : Word} (hn : s.nodeRead i = some w) :
    s.written i = true := by
  simp [State.written, hn]

/-! START (40_host_ops.md R94, R95). -/

theorem exec_start_active (rsv : BitVec 28) {s : State} (ha : s.active = true) :
    exec (.start rsv) s = .next (setCmdign s) := by
  simp [exec, execStart, ha]

theorem exec_start_unwritten (rsv : BitVec 28) {s : State} (ha : s.active = false) (hn : s.nodeRead s.root = none) :
    exec (.start rsv) s = .fault .uninitNode := by
  simp [exec, execStart, ha, hn]

theorem exec_start_internal (rsv : BitVec 28) {s : State} {w : Word} (ha : s.active = false)
    (hn : s.nodeRead s.root = some w) (hk : kindOf w = .internal) :
    exec (.start rsv) s = .next { beginSession s with state := .atRoot } := by
  simp [exec, execStart, ha, hn, hk]

theorem exec_start_badRoot (rsv : BitVec 28) {s : State} {w : Word} (ha : s.active = false)
    (hn : s.nodeRead s.root = some w) (hk : kindOf w ≠ .internal) :
    exec (.start rsv) s = .next (raiseError .badRoot (beginSession s)) := by
  simp [exec, execStart, ha, hn, hk]

/-! The other commands, in every state (40_host_ops.md R93, R96 to R98). -/

theorem exec_nop (rsv : BitVec 28) (s : State) : exec (.nop rsv) s = .next s := rfl

theorem exec_abort (rsv : BitVec 28) (s : State) : exec (.abort rsv) s = .next (leaveSession s) := rfl

theorem exec_clrf (rsv : BitVec 28) (s : State) : exec (.clrf rsv) s = .next (clearFlags s) := rfl

theorem exec_cmdReserved (rsv : BitVec 28) (op : BitVec 4) (s : State) :
    exec (.cmdReserved rsv op) s = .next (setBadcmd s) := rfl

/-! A CMD write is the command its word decodes to, whatever its reserved bits (40_host_ops.md R92). -/

theorem exec_wrCmd (d : Word) (s : State) : exec (.wrCmd d) s = exec (decodeCmd d) s := by
  obtain ⟨rsv, op, rfl⟩ : ∃ rsv op, rsv ++ op = d := ⟨_, _, cmdRsvOf_append_opOf d⟩
  change execWrCmd (rsv ++ op) s = _
  rcases execWrCmd_cases (rsv ++ op) s with ⟨ho, e⟩ | ⟨ho, e⟩ | ⟨ho, e⟩ | ⟨ho, e⟩ | ⟨ho, e⟩ <;>
    rw [opOf_append] at ho
  · subst ho; rw [e, decodeCmd_nop]; rfl
  · subst ho; rw [e rsv, decodeCmd_start]; rfl
  · subst ho; rw [e, decodeCmd_abort]; rfl
  · subst ho; rw [e, decodeCmd_clrf]; rfl
  · rw [e, decodeCmd_reserved rsv ho]; rfl

section

variable {d : Word}

theorem exec_wrCmd_opcode {op : BitVec 4} (ho : opOf d = op) (s : State) :
    exec (.wrCmd d) s = exec (decodeCmd (cmdRsvOf d ++ op)) s := by
  rw [exec_wrCmd, ← ho, cmdRsvOf_append_opOf]

theorem exec_wrCmd_nop (ho : opOf d = 0x0#4) (rsv : BitVec 28) (s : State) :
    exec (.wrCmd d) s = exec (.nop rsv) s := by
  rw [exec_wrCmd_opcode ho, decodeCmd_nop]; rfl

theorem exec_wrCmd_start (ho : opOf d = 0x1#4) (rsv : BitVec 28) (s : State) :
    exec (.wrCmd d) s = exec (.start rsv) s := by
  rw [exec_wrCmd_opcode ho, decodeCmd_start]; rfl

theorem exec_wrCmd_abort (ho : opOf d = 0x2#4) (rsv : BitVec 28) (s : State) :
    exec (.wrCmd d) s = exec (.abort rsv) s := by
  rw [exec_wrCmd_opcode ho, decodeCmd_abort]; rfl

theorem exec_wrCmd_clrf (ho : opOf d = 0x3#4) (rsv : BitVec 28) (s : State) :
    exec (.wrCmd d) s = exec (.clrf rsv) s := by
  rw [exec_wrCmd_opcode ho, decodeCmd_clrf]; rfl

theorem exec_wrCmd_reserved {op : BitVec 4} (ho : opOf d = op) (h : 4 ≤ op.toNat) (rsv : BitVec 28) (s : State) :
    exec (.wrCmd d) s = exec (.cmdReserved rsv op) s := by
  rw [exec_wrCmd_opcode ho, decodeCmd_reserved _ h]; rfl

end

/-! Where a step faults (60_exceptions.md R143). -/

/-- A step on a pending host access runs its instruction. -/
theorem step_pendingAccess {s : State} {i : Instr} (hp : pendingAccess s = some i) :
    s.rst = false ∧ ∃ rest, step s = exec i { s with turns := rest } := by
  cases hm : s.turns with
  | nil => simp [pendingAccess, hm] at hp
  | cons m rest =>
    cases m with
    | decoder | rst => simp [pendingAccess, hm] at hp
    | host p =>
      obtain ⟨⟨hs, hr⟩, rfl⟩ : (p.hsel = true ∧ s.rst = false) ∧ decodeBus p.hwe p.haddr p.hwdata = i := by
        simpa [pendingAccess, hm] using hp
      exact ⟨hr, rest, (step_host hm).trans (hostTurn_access (s := { s with turns := rest }) hs hr)⟩

/-- A move reads an unwritten entry: the decoder's at CUR (41_decode_steps.md R104), or START, with no session active,
at ROOT (40_host_ops.md R94). -/
def ReadsUnwritten (s : State) : Prop :=
  (∃ rest, DecoderMoves s rest ∧ s.walking = true ∧ s.written s.cur = false)
  ∨ (CommandMoves s 0x1#4 ∧ s.active = false ∧ s.written s.root = false)

/-- With `rst = 0` such a move faults. -/
theorem step_of_readsUnwritten {s : State} (hr : s.rst = false) (h : ReadsUnwritten s) :
    step s = .fault .uninitNode := by
  rcases h with ⟨rest, hm, hw, hn⟩ | ⟨⟨d, hp, ho⟩, ha, hn⟩
  · rw [step_decoder hm]
    exact decoderTurn_unwritten (s := { s with turns := rest }) hr hw (State.written_eq_false.1 hn)
  · obtain ⟨-, rest, hstep⟩ := step_pendingAccess hp
    rw [hstep, exec_wrCmd_start ho 0#28]
    exact exec_start_unwritten _ (s := { s with turns := rest }) ha (State.written_eq_false.1 hn)

/-- A decoder move answers a next state, or it is at an unwritten entry. -/
theorem decoderTurn_answers (s : State) :
    (∃ t, decoderTurn s = .next t) ∨ (s.rst = false ∧ s.walking = true ∧ s.nodeRead s.cur = none) := by
  cases h : decoderTurn s with
  | next t => exact .inl ⟨t, rfl⟩
  | fault f => exact .inr (decoderTurn_fault h)
  | refused r => exact absurd h (decoderTurn_not_refused s r)

/-- A step answers a next state, or it reads an unwritten entry. -/
theorem step_answers (s : State) : (∃ t, step s = .next t) ∨ (s.rst = false ∧ ReadsUnwritten s) := by
  have decoderMove : ∀ {rest}, DecoderMoves s rest →
      (∃ t, step s = .next t) ∨ (s.rst = false ∧ ReadsUnwritten s) := by
    intro rest hm
    rw [step_decoder hm]
    rcases decoderTurn_answers { s with turns := rest } with ht | ⟨hr, hw, hn⟩
    · exact .inl ht
    · exact .inr ⟨hr, .inl ⟨rest, hm, hw, State.written_eq_false.2 hn⟩⟩
  cases hm : s.turns with
  | nil => exact decoderMove (rest := []) (.inr ⟨hm, rfl⟩)
  | cons m rest =>
    cases m with
    | decoder => exact decoderMove (.inl hm)
    | rst level => exact .inl ⟨_, step_rst hm⟩
    | host p =>
      rw [step_host hm]
      rcases Bool.eq_false_or_eq_true p.hsel with hs | hs
      · rcases Bool.eq_false_or_eq_true s.rst with hr | hr
        · exact .inl ⟨_, hostTurn_inReset (s := { s with turns := rest }) hs hr⟩
        · rw [hostTurn_access (s := { s with turns := rest }) hs hr]
          rcases exec_bus_answers p.hwe p.haddr p.hwdata { s with turns := rest } with ht | ⟨-, hi, ho, ha, hn⟩
          · exact .inl ht
          · have hp : pendingAccess s = some (.wrCmd p.hwdata) := by simp [pendingAccess, hm, hs, hr, hi]
            exact .inr ⟨hr, .inr ⟨⟨p.hwdata, hp, ho⟩, ha, State.written_eq_false.2 hn⟩⟩
      · exact .inl ⟨_, hostTurn_none hs⟩

end Sys2Proof.Machine

namespace Sys2Proof.Proofs

open Sys2Proof.Machine Sys2Proof.Safety

/-- Settles O40: every step but a read of an unwritten entry answers a next state, and that read faults. -/
theorem faultsExactlyOnUnwritten : Obligations.FaultsExactlyOnUnwritten := by
  intro s
  rcases step_answers s with ⟨t, ht⟩ | ⟨hr, hu⟩
  · rw [ht]
    refine ⟨nofun, fun f => ⟨nofun, fun ⟨_, hr, hu⟩ => ?_⟩⟩
    rw [step_of_readsUnwritten hr hu] at ht
    cases ht
  · rw [step_of_readsUnwritten hr hu]
    exact ⟨nofun, fun f => ⟨fun h => by cases h; exact ⟨rfl, hr, hu⟩, fun ⟨hf, _⟩ => hf ▸ rfl⟩⟩

/-- Settles O16: the four addresses decode to the reads, of which STATUS returns its fields. -/
theorem readsOfCmdStatusRootEos : Obligations.ReadsOfCmdStatusRootEos := by
  refine ⟨fun _ => ⟨rfl, rfl, rfl, rfl⟩, fun s => ⟨rfl, ⟨s.statusWord, rfl, ?_⟩, rfl, rfl⟩⟩
  obtain ⟨hstate, herr, habove⟩ := s.statusWord_codes
  obtain ⟨h3, h7, hwrbusy, hcmdign, hbadcmd⟩ := s.statusWord_bits
  exact ⟨hstate, h3, herr, h7, hwrbusy, hcmdign, hbadcmd, habove⟩

/-- Settles O17: the three addresses decode to the reads, each of which returns its register. -/
theorem readsOfCurAndCounters : Obligations.ReadsOfCurAndCounters :=
  ⟨fun _ => ⟨rfl, rfl, rfl⟩, fun _ => ⟨rfl, rfl, rfl⟩⟩

/-- Settles O19: a written entry's word is returned, and a free draw in its place where there is none. -/
theorem readOfNode : Obligations.ReadOfNode :=
  ⟨fun _ d h => (decodeBus_node d h).1, fun _ _ => ⟨fun _ hn => exec_rdNode_written hn, exec_rdNode_unwritten⟩⟩

/-- Settles O22: the write is locked, and ROOT is the operand where it is not dropped. -/
theorem writeOfRoot : Obligations.WriteOfRoot := fun _ _ =>
  ⟨rfl, fun ha => congrArg _ (lockedWrite_inactive ha), fun ha => congrArg _ (lockedWrite_active ha)⟩

/-- Settles O23: the write is locked, and EOS is the operand where it is not dropped. -/
theorem writeOfEos : Obligations.WriteOfEos := fun _ _ =>
  ⟨rfl, fun ha => congrArg _ (lockedWrite_inactive ha), fun ha => congrArg _ (lockedWrite_active ha)⟩

/-- Settles O24: the write is locked, and where it is not dropped what is read after it is `State.nodeWrite`'s. -/
theorem writeOfNode : Obligations.WriteOfNode := by
  intro i d s
  refine ⟨fun _ h => (decodeBus_node d h).2, fun ha => ?_, fun ha => congrArg _ (lockedWrite_active ha)⟩
  have hread : (s.nodeWrite i d).nodeRead i = some d := s.nodeRead_nodeWrite_same i d
  exact ⟨s.nodeWrite i d, congrArg _ (lockedWrite_inactive ha), rfl, hread, State.written_of_nodeRead hread,
    fun _ hj => s.nodeRead_nodeWrite_other d hj⟩

/-- Settles O25: the four addresses decode to the writes, each of which holds. -/
theorem readOnlyRegistersIgnoreWrites : Obligations.ReadOnlyRegistersIgnoreWrites := fun _ _ =>
  ⟨rfl, rfl, rfl, rfl, rfl, rfl, rfl, rfl⟩

/-- Settles O26: the write is the command of its opcode, and each but START does the same in every state. -/
theorem cmdWriteDispatch : Obligations.CmdWriteDispatch := fun d s =>
  ⟨rfl,
    fun ho => (exec_wrCmd_nop ho 0#28 s).trans (exec_nop _ s),
    fun ho rsv => exec_wrCmd_start ho rsv s,
    fun ho => (exec_wrCmd_abort ho 0#28 s).trans (exec_abort _ s),
    fun ho => (exec_wrCmd_clrf ho 0#28 s).trans (exec_clrf _ s),
    fun h => (exec_wrCmd_reserved rfl h 0#28 s).trans (exec_cmdReserved _ (opOf d) s)⟩

/-- Settles O27: each command by itself, and by the CMD write of its opcode. -/
theorem nopClrfReserved : Obligations.NopClrfReserved := fun rsv op s =>
  ⟨fun _ => ⟨fun ho => exec_wrCmd_nop ho rsv s, fun ho => exec_wrCmd_clrf ho rsv s,
      fun h ho => exec_wrCmd_reserved ho h rsv s⟩,
    exec_nop rsv s, exec_clrf rsv s, fun _ => exec_cmdReserved rsv op s⟩

/-- Settles O28: by what START finds at ROOT, whose kind its top two bits say. -/
theorem startBeginsSession : Obligations.StartBeginsSession := by
  intro rsv s ha
  have hkind : ∀ w, kindOf w = .internal ↔ w.extractLsb' 30 2 = 0b01#2 := fun w => (kindOf_eq w).2.1
  exact ⟨fun _ ho => exec_wrCmd_start ho rsv s,
    fun w hn hb => exec_start_internal rsv ha hn ((hkind w).2 hb),
    fun w hn hb => exec_start_badRoot rsv ha hn fun hk => hb ((hkind w).1 hk),
    exec_start_unwritten rsv ha⟩

/-- Settles O29: START sets CMDIGN, and so does the CMD write that performs it. -/
theorem startIgnoredWhileActive : Obligations.StartIgnoredWhileActive := fun rsv s ha =>
  ⟨fun _ ho => exec_wrCmd_start ho rsv s, exec_start_active rsv ha⟩

/-- Settles O30: ABORT leaves the session for IDLE, in which no symbol is offered. -/
theorem abortDiscardsSession : Obligations.AbortDiscardsSession := by
  intro rsv s
  refine ⟨fun _ ho => exec_wrCmd_abort ho rsv s, exec_abort rsv s, fun t h => ?_⟩
  cases (exec_abort rsv s).symm.trans h
  rfl

end Sys2Proof.Proofs
end

section
/-! PROOFS of the statements about 41_decode_steps.md: which instruction a decoder move runs, what each STEP and
SINK instruction does where the decoder runs it, and that no decoder step is outside a session (R102 to R113). -/

namespace Sys2Proof.Machine

/-! The STEP instructions, each at an entry of its kind (41_decode_steps.md R104 to R111). -/

section

variable {s : State} {w : Word} (hw : s.walking = true) (hn : s.nodeRead s.cur = some w)

include hw hn

theorem exec_stepBit0_internal (hk : kindOf w = .internal) (eof : Bool) :
    exec (.stepBit0 eof) s = .next (descendTo false (leftOf w) s) := by
  rw [exec, execStepBit0, onNode_at hw hn hk]; rfl

theorem exec_stepBit1_internal (hk : kindOf w = .internal) (eof : Bool) :
    exec (.stepBit1 eof) s = .next (descendTo true (rightOf w) s) := by
  rw [exec, execStepBit1, onNode_at hw hn hk]; rfl

theorem exec_stepExhaust_internal (hk : kindOf w = .internal) (data : Bool) :
    exec (.stepExhaust data) s = .next (raiseError .exhausted (useBeat s)) := by
  rw [exec, execStepExhaust, onNode_at hw hn hk]

theorem exec_stepStall_internal (hk : kindOf w = .internal) (data : Bool) :
    exec (.stepStall data) s = .next (useBeat s) := by
  rw [exec, execStepStall, onNode_at hw hn hk]

theorem exec_stepLeafEos_leaf (hk : kindOf w = .leaf) (hy : symOf w = s.eos) (pins : BeatPins) :
    exec (.stepLeafEos pins) s = .next (endOfStream s) := by
  rw [exec, execStepLeafEos, onLeaf_at hw hn hk (symRel_isEos.2 hy)]

theorem exec_stepLeafData_leaf (hk : kindOf w = .leaf) (hy : (symOf w).toNat < s.eos.toNat) (pins : BeatPins) :
    exec (.stepLeafData pins) s = .next (offerSymbol (symOf w) s) := by
  rw [exec, execStepLeafData, onLeaf_at hw hn hk (symRel_isData.2 hy)]

theorem exec_stepLeafBadsym_leaf (hk : kindOf w = .leaf) (hy : s.eos.toNat < (symOf w).toNat) (pins : BeatPins) :
    exec (.stepLeafBadsym pins) s = .next (raiseError .badSym s) := by
  rw [exec, execStepLeafBadsym, onLeaf_at hw hn hk (symRel_isBad.2 hy)]

theorem exec_stepBadnode_at {k : NodeKind} (hk : kindOf w = k) (pins : BeatPins) :
    exec (.stepBadnode k pins) s = .next (raiseError .badNode s) := by
  rw [exec, execStepBadnode, onNode_at hw hn hk]

end

/-! The SINK instructions, in EMITTED (41_decode_steps.md R112, R113). -/

theorem exec_stepEmit_emitted {s : State} (he : s.state = .emitted) : exec .stepEmit s = .next (acceptSymbol s) := by
  rw [exec, execStepEmit, onEmitted_at he]

theorem exec_stepEmitHold_emitted {s : State} (he : s.state = .emitted) :
    exec .stepEmitHold s = .next (useReady s) := by
  rw [exec, execStepEmitHold, onEmitted_at he]

/-! Where no session is active (41_decode_steps.md R103). -/

theorem DecoderEffect.eq_of_inactive {s t : State} (h : DecoderEffect s t) (ha : s.active = false) : t = s := by
  have hstill : decoderTurn s = .next s := decoderTurn_still (.inr ha)
  cases hstill.symm.trans (decoderTurn_of_effect h)
  rfl

/-- A host access changes STATE only by START or ABORT. -/
theorem HostEffect.state_changed {s t : State} {i : Instr} (h : HostEffect s i t) (hne : t.state ≠ s.state) :
    (∃ d, i = .wrCmd d ∧ opOf d = 0x1#4) ∨ ∃ d, i = .wrCmd d ∧ opOf d = 0x2#4 := by
  cases h with
  | startSession d w ho ha hn hk | startBadRoot d w ho ha hn hk => exact .inl ⟨d, rfl, ho⟩
  | abort d ho => exact .inr ⟨d, rfl, ho⟩
  | _ => exact absurd rfl hne

end Sys2Proof.Machine

namespace Sys2Proof.Proofs

open Sys2Proof.Machine Sys2Proof.Safety

/-- Settles O13: the step is the decoder's turn, which by STATE and NODE[CUR] runs the instruction decoded. -/
theorem decoderMoveRunsDecoded : Obligations.DecoderMoveRunsDecoded := by
  intro s rest hr hm
  rw [step_decoder hm]
  exact ⟨fun hw => ⟨fun _ hn => decoderTurn_walking (s := { s with turns := rest }) hr hw hn,
      fun hn => decoderTurn_unwritten (s := { s with turns := rest }) hr hw hn⟩,
    fun he => decoderTurn_emitted (s := { s with turns := rest }) hr he⟩

/-- Settles O15: the decoder's turn is still where no session is active, and of the host's accesses only the two
commands change STATE. -/
theorem noDecoderStepOutsideSession : Obligations.NoDecoderStepOutsideSession := by
  constructor
  · intro s rest hs hm
    rw [step_decoder hm]
    exact decoderTurn_still (s := { s with turns := rest }) (.inr (State.active_false_iff.2 hs))
  · intro s t hs hm hstep hne
    obtain ⟨rest, ⟨rs, rfl⟩ | ⟨i, hp, he⟩ | he⟩ := step_cases_of_noResetMove hm hstep
    · exact absurd rfl hne
    · exact (he.state_changed hne).imp (commandMoves_of_pending hp) (commandMoves_of_pending hp)
    · cases he.eq_of_inactive (State.active_false_iff.2 hs)
      exact absurd rfl hne

/-- Settles O31: the entry is INTERNAL by its kind bits, and each bit descends to its own child. -/
theorem bitSteps : Obligations.BitSteps := by
  intro e w s hw hn hbits
  have hk : kindOf w = .internal := (kindOf_eq w).2.1.2 hbits
  exact ⟨fun _ => by rw [hk]; exact ⟨rfl, rfl⟩, exec_stepBit0_internal hw hn hk e, exec_stepBit1_internal hw hn hk e⟩

/-- Settles O32: after a stall the entry at CUR is still INTERNAL, so `bit_ready` is 1. -/
theorem stallAndExhaustSteps : Obligations.StallAndExhaustSteps := by
  intro b w s hw hn hbits
  have hk : kindOf w = .internal := (kindOf_eq w).2.1.2 hbits
  have hready : ({ s with beats := s.beats.tail } : State).bitReady = true := (State.bitReady_at hw hn).2 hk
  exact ⟨fun _ => by rw [hk]; exact ⟨rfl, rfl⟩, ⟨s.beats.tail, exec_stepStall_internal hw hn hk b, hready⟩,
    s.beats.tail, exec_stepExhaust_internal hw hn hk b⟩

/-- Settles O33: how the symbol stands to EOS selects the step, whatever beat is offered. -/
theorem leafSteps : Obligations.LeafSteps := by
  intro p w s hw hn hbits
  have hk : kindOf w = .leaf := (kindOf_eq w).2.2.1.2 hbits
  rw [hk]
  refine ⟨fun h => ?_, fun h => ?_, fun h => ?_⟩
  · have heos : symOf w = s.eos := BitVec.eq_of_toNat_eq h
    exact ⟨congrArg (decodeStep .leaf p) (symRel_isEos.2 heos), exec_stepLeafEos_leaf hw hn hk heos p⟩
  · exact ⟨congrArg (decodeStep .leaf p) (symRel_isData.2 h), exec_stepLeafData_leaf hw hn hk h p⟩
  · exact ⟨congrArg (decodeStep .leaf p) (symRel_isBad.2 h), exec_stepLeafBadsym_leaf hw hn hk h p⟩

/-- Settles O34: both kinds that are no node raise BADNODE. -/
theorem badNodeStep : Obligations.BadNodeStep := by
  intro p w s hw hn
  obtain ⟨hempty, -, -, hreserved⟩ := kindOf_eq w
  exact ⟨fun h => ⟨fun _ => by rw [hempty.2 h]; rfl, exec_stepBadnode_at hw hn (hempty.2 h) p⟩,
    fun h => ⟨fun _ => by rw [hreserved.2 h]; rfl, exec_stepBadnode_at hw hn (hreserved.2 h) p⟩⟩

/-- Settles O35: the sink's sample is gone either way, and with `sym_ready = 1` OUTSYM is handed over. -/
theorem emitSteps : Obligations.EmitSteps := fun s he =>
  ⟨rfl, rfl, ⟨s.ready.tail, exec_stepEmit_emitted he⟩, s.ready.tail, exec_stepEmitHold_emitted he⟩

end Sys2Proof.Proofs
end

section
/-! PROOFS of the statements about 41_decode_steps.md on the streams: bits are taken in order, symbols stay
accepted, and each symbol costs a bit (R115, R116, R119). -/

namespace Sys2Proof.Machine

open Sys2Proof.Safety

/-! The samples of the bit source (30_encoding.md R63). -/

theorem bitsOf_of_bit {s : State} {b : Bool} (hb : beatOf s.offered = .bit b) :
    bitsOf s.beats = b :: bitsOf s.beats.tail := by
  obtain ⟨hv, hd⟩ := beatOf_bit hb
  cases hbs : s.beats with
  | nil => simp [State.offered, hbs] at hv
  | cons p ps =>
    simp only [State.offered, hbs, List.headD_cons] at hv hd
    simp [bitsOf, hv, hd]

theorem bitsOf_of_no_bit {s : State} (hb : ∀ b, beatOf s.offered ≠ .bit b) : bitsOf s.beats.tail = bitsOf s.beats := by
  have hv := valid_false_of_beatOf hb
  cases hbs : s.beats with
  | nil => rfl
  | cons p ps =>
    simp only [State.offered, hbs, List.headD_cons] at hv
    simp [bitsOf, hv]

/-! What a move leaves of the streams. -/

/-- What a move of any other agent than the decoder leaves: the bits, the accepted symbols, and STATE where it is
DESCENDING or EMITTED after the move. -/
structure KeepsStreams (s t : State) : Prop where
  taken : t.taken = s.taken
  beats : t.beats = s.beats
  out   : t.out = s.out
  state : t.state = .descending ∨ t.state = .emitted → t.state = s.state

theorem KeepsStreams.setRst (s : State) (level : Bool) : KeepsStreams s (setRst level s) := by
  unfold Machine.setRst
  split
  · exact ⟨rfl, rfl, rfl, by simp⟩
  · exact ⟨rfl, rfl, rfl, fun _ => rfl⟩

theorem HostEffect.keepsStreams {s t : State} {i : Instr} (h : HostEffect s i t) : KeepsStreams s t := by
  cases h with
  | startSession | startBadRoot | abort => exact ⟨rfl, rfl, rfl, by simp⟩
  | _ => exact ⟨rfl, rfl, rfl, fun _ => rfl⟩

/-- A step is a decoder move, or it leaves the streams. -/
theorem step_keepsStreams_or_decoder {s t : State} (h : step s = .next t) :
    ∃ rest, KeepsStreams { s with turns := rest } t ∨ DecoderEffect { s with turns := rest } t := by
  cases step_effect h with
  | pin level rest hm => exact ⟨rest, .inl (.setRst _ level)⟩
  | noAccess p rest hm hs => exact ⟨rest, .inl ⟨rfl, rfl, rfl, fun _ => rfl⟩⟩
  | readInReset p rest hm hr => exact ⟨rest, .inl ⟨rfl, rfl, rfl, fun _ => rfl⟩⟩
  | host p rest _ hm hs hr he => exact ⟨rest, .inl he.keepsStreams⟩
  | decoder rest _ hm he => exact ⟨rest, .inr he⟩

/-- A decoder move takes the bit the source shows first, or none (41_decode_steps.md R115). -/
theorem DecoderEffect.takes_in_order {s t : State} (h : DecoderEffect s t) :
    t.taken ++ bitsOf t.beats = s.taken ++ bitsOf s.beats ∧ (t.taken = s.taken ∨ ∃ b, t.taken = s.taken ++ [b]) := by
  cases h with
  | bit w b hr hw hn hk hb => exact ⟨by simp [bitsOf_of_bit hb], .inr ⟨b, rfl⟩⟩
  | exhaust w hr hw hn hk hb | stall w hr hw hn hk hb =>
    exact ⟨congrArg (s.taken ++ ·) (bitsOf_of_no_bit (by simp [hb])), .inl rfl⟩
  | _ => exact ⟨rfl, .inl rfl⟩

/-- A decoder move hands over OUTSYM from EMITTED, or nothing (41_decode_steps.md R119). -/
theorem DecoderEffect.out_cases {s t : State} (h : DecoderEffect s t) :
    t.out = s.out ∨ (s.state = .emitted ∧ t.out = s.out ++ [s.outsym]) := by
  cases h with
  | emit hr he hy => exact .inr ⟨he, rfl⟩
  | _ => exact .inl rfl

end Sys2Proof.Machine

namespace Sys2Proof.Safety

open Sys2Proof.Machine

/-! Every symbol costs a bit (41_decode_steps.md R116). -/

/-- A leaf is reached only by a bit: START and EMIT leave CUR at an INTERNAL entry (10_state.md R35 (c), (d)). -/
theorem BlockInv.descending_of_not_internal {s : State} {w : Word} (h : BlockInv s) (hw : s.walking = true)
    (hn : s.nodeRead s.cur = some w) (hk : kindOf w ≠ .internal) : s.state = .descending := by
  refine (State.walking_iff.1 hw).resolve_left fun hroot => ?_
  obtain ⟨v, hv, hkv⟩ := h.rootInternal (State.active_of_walking hw)
  rw [h.atRoot hroot, hv] at hn
  cases hn
  exact hk hkv

theorem symbolsPaid_of_owing {s : State} (h : s.state = .descending ∨ s.state = .emitted) :
    SymbolsPaid s ↔ s.out.length + 1 ≤ s.taken.length := by
  rw [SymbolsPaid, if_pos h]

theorem SymbolsPaid.out_le {s : State} (h : SymbolsPaid s) : s.out.length ≤ s.taken.length :=
  Nat.le_of_add_right_le h

/-- Outside DESCENDING and EMITTED no bit is owed. -/
theorem symbolsPaid_of_settled {s : State} (h : ¬ (s.state = .descending ∨ s.state = .emitted))
    (hle : s.out.length ≤ s.taken.length) : SymbolsPaid s := by
  rw [SymbolsPaid, if_neg h]
  exact hle

theorem SymbolsPaid.keepsStreams {s t : State} (h : SymbolsPaid s) (hk : KeepsStreams s t) : SymbolsPaid t := by
  by_cases ht : t.state = .descending ∨ t.state = .emitted
  · have hs : s.state = .descending ∨ s.state = .emitted := hk.state ht ▸ ht
    rw [symbolsPaid_of_owing ht, hk.out, hk.taken]
    exact (symbolsPaid_of_owing hs).1 h
  · refine symbolsPaid_of_settled ht ?_
    rw [hk.out, hk.taken]
    exact h.out_le

theorem SymbolsPaid.decoderEffect {s t : State} (hinv : BlockInv s) (h : SymbolsPaid s) (he : DecoderEffect s t) :
    SymbolsPaid t := by
  cases he with
  | still | stall | emitHold => exact h
  | bit w b hr hw hn hk hb =>
    rw [symbolsPaid_of_owing (by simp)]
    simpa using h.out_le
  | leafData w hr hw hn hk hy =>
    have hdesc : s.state = .descending := hinv.descending_of_not_internal hw hn (by simp [hk])
    exact (symbolsPaid_of_owing (by simp)).2 ((symbolsPaid_of_owing (.inl hdesc)).1 h)
  | emit hr he hy =>
    refine symbolsPaid_of_settled (by simp) ?_
    simpa using (symbolsPaid_of_owing (.inr he)).1 h
  | exhaust | leafEos | leafBadsym | badNode => exact symbolsPaid_of_settled (by simp) h.out_le

end Sys2Proof.Safety

namespace Sys2Proof.Proofs

open Sys2Proof.Machine Sys2Proof.Safety

/-- Settles O46: only a decoder move touches the bits, and it takes the first one or none. -/
theorem bitsTakenOnceInOrder : Obligations.BitsTakenOnceInOrder := by
  intro s t hstep
  obtain ⟨rest, hk | he⟩ := step_keepsStreams_or_decoder hstep
  · rw [hk.taken, hk.beats]
    exact ⟨rfl, .inl rfl⟩
  · exact he.takes_in_order

/-- Settles O47: only a decoder move touches the accepted symbols, and EMIT alone adds one. -/
theorem symbolsNeverRetracted : Obligations.SymbolsNeverRetracted := by
  intro s t hstep
  obtain ⟨rest, hk | he⟩ := step_keepsStreams_or_decoder hstep
  · exact .inl hk.out
  · exact he.out_cases

/-- Settles O50: a bit step pays for the symbol it walks to, and only from DESCENDING is one offered. -/
theorem everySymbolCostsABit : Obligations.EverySymbolCostsABit := by
  intro s t hinv hpaid hstep
  obtain ⟨rest, hk | he⟩ := step_keepsStreams_or_decoder hstep
  · exact SymbolsPaid.keepsStreams (s := { s with turns := rest }) hpaid hk
  · exact SymbolsPaid.decoderEffect (hinv.withAgents rest _ _ _ _) hpaid he

end Sys2Proof.Proofs
end

section
/-! PROOFS of the statements about 41_decode_steps.md on runs of the decoder alone (log 2): a finite stream ends the
session (R116), the decoding law (R118), and two images of one tree (R121). -/

namespace Sys2Proof.Machine

open Sys2Proof.Safety

/-! What the source and the sink show. -/

@[simp] theorem beatOf_bitBeat (b : Bool) : beatOf (bitBeat b) = .bit b := rfl

@[simp] theorem beatOf_eofBeat : beatOf eofBeat = .eof := rfl

theorem State.offered_of_cons {s : State} {p : BeatPins} {ps : List BeatPins} (h : s.beats = p :: ps) :
    s.offered = p := by
  simp [State.offered, h]

theorem State.symReady_of_cons {s : State} {b : Bool} {bs : List Bool} (h : s.ready = b :: bs) : s.symReady = b := by
  simp [State.symReady, h]

end Sys2Proof.Machine

namespace Sys2Proof.Safety

open Sys2Proof.Machine

/-! A finite stream ends the session (41_decode_steps.md R116). -/

/-- Within `k` steps the session is in DONE or ERROR, or at the model fault. -/
def EndsWithin (k : Nat) (s : State) : Prop :=
  ∃ n ≤ k, (∃ t : State, Host.Core.run core n s = Host.Outcome.next t ∧ Ended t)
    ∨ Host.Core.run core n s = Host.Outcome.fault Fault.uninitNode

theorem EndsWithin.mono {j k : Nat} {s : State} (h : EndsWithin j s) (hjk : j ≤ k) : EndsWithin k s :=
  h.imp fun _ hn => ⟨hn.1.trans hjk, hn.2⟩

theorem endsWithin_of_ended {s : State} (h : Ended s) : EndsWithin 0 s := ⟨0, Nat.le_refl 0, .inl ⟨s, rfl, h⟩⟩

theorem endsWithin_of_fault {s : State} (h : step s = .fault .uninitNode) : EndsWithin 1 s :=
  ⟨1, Nat.le_refl 1, .inr (run_succ_of_fault h)⟩

theorem EndsWithin.before {k : Nat} {s t : State} (h : EndsWithin k t) (hs : step s = .next t) :
    EndsWithin (k + 1) s := by
  obtain ⟨n, hn, hend⟩ := h
  refine ⟨n + 1, Nat.succ_le_succ hn, ?_⟩
  rw [run_succ_of_next hs]
  exact hend

/-- An active session with `n` more bits and then Eof, and a sink that accepts every symbol `n` more bits can give. -/
structure Fed (n : Nat) (s : State) : Prop where
  inv    : BlockInv s
  active : s.active = true
  turns  : s.turns = []
  beats  : ∃ bits : List Bool, bits.length = n ∧ s.beats = bits.map bitBeat ++ [eofBeat]
  ready  : ∃ m, s.ready = List.replicate m true ∧ (if s.state = .atRoot then n else n + 1) ≤ m

/-- The most steps a session with `n` more bits can take: three for each bit, and what its state adds. -/
def stepsLeft (n : Nat) (s : State) : Nat :=
  match s.state with
  | .atRoot => 3 * n + 1
  | .emitted => 3 * n + 2
  | .descending => 3 * n + 3
  | .idle | .done | .error => 0

theorem stepsLeft_bounds {s : State} (n : Nat) (ha : s.active = true) :
    3 * n < stepsLeft n s ∧ stepsLeft n s ≤ 3 * n + 3 := by
  rcases State.active_iff.1 ha with h | h | h <;> simp [stepsLeft, h]

theorem Fed.rst {n : Nat} {s : State} (h : Fed n s) : s.rst = false := by
  refine Bool.eq_false_iff.2 fun hr => ?_
  have hidle := (h.inv.inReset hr).state
  simpa [State.active, hidle] using h.active

/-- What the source shows: a bit, with one less to come, or Eof at the end. -/
theorem Fed.beat_cases {n : Nat} {s : State} (h : Fed n s) :
    (∃ (b : Bool) (bits : List Bool), beatOf s.offered = .bit b ∧ bits.length + 1 = n
      ∧ s.beats.tail = bits.map bitBeat ++ [eofBeat])
    ∨ beatOf s.offered = .eof := by
  obtain ⟨bits, hlen, hbeats⟩ := h.beats
  cases bits with
  | nil => exact .inr (by rw [State.offered_of_cons hbeats, beatOf_eofBeat])
  | cons b bits => exact .inl ⟨b, bits, by rw [State.offered_of_cons hbeats, beatOf_bitBeat], hlen, by simp [hbeats]⟩

/-- In EMITTED the sink accepts, and goes on accepting. -/
theorem Fed.sink_ready {n : Nat} {s : State} (h : Fed n s) (he : s.state = .emitted) :
    s.symReady = true ∧ ∃ m, s.ready.tail = List.replicate m true ∧ n ≤ m := by
  obtain ⟨m, hready, hm⟩ := h.ready
  rw [if_neg (by simp [he])] at hm
  obtain ⟨m, rfl⟩ : ∃ k, m = k + 1 := ⟨m - 1, by omega⟩
  rw [List.replicate_succ] at hready
  exact ⟨State.symReady_of_cons hready, m, by simp [hready], by omega⟩

/-- Each step of such a session ends it or leaves fewer steps. -/
theorem Fed.decoderEffect {n : Nat} {s t : State} (h : Fed n s) (he : DecoderEffect s t) :
    Ended t ∨ ∃ m, Fed m t ∧ stepsLeft m t < stepsLeft n s := by
  have hinv : BlockInv t := h.inv.decoderEffect he
  cases he with
  | still hs => simp [h.rst, h.active] at hs
  | exhaust | leafEos | leafBadsym | badNode => exact .inl rfl
  | bit w b hr hw hn hk hb =>
    obtain ⟨b', bits, -, rfl, hbeats⟩ | heof := h.beat_cases
    · have hsteps := (stepsLeft_bounds (bits.length + 1) h.active).1
      obtain ⟨m, hready, hm⟩ := h.ready
      have hle : bits.length + 1 ≤ m := le_trans (by split <;> omega) hm
      exact .inr ⟨bits.length, ⟨hinv, rfl, h.turns, ⟨bits, rfl, hbeats⟩, m, hready, by simpa using hle⟩,
        by simp [stepsLeft] at hsteps ⊢; omega⟩
    · simp [heof] at hb
  | stall w hr hw hn hk hb => exact absurd h.beat_cases (by simp [hb])
  | leafData w hr hw hn hk hy =>
    have hdesc : s.state = .descending := h.inv.descending_of_not_internal hw hn (by simp [hk])
    obtain ⟨m, hready, hm⟩ := h.ready
    exact .inr ⟨n, ⟨hinv, rfl, h.turns, h.beats, m, hready, by simpa [hdesc] using hm⟩, by simp [stepsLeft, hdesc]⟩
  | emit hr he hy =>
    obtain ⟨-, m, hready, hm⟩ := h.sink_ready he
    exact .inr ⟨n, ⟨hinv, rfl, h.turns, h.beats, m, hready, by simpa using hm⟩, by simp [stepsLeft, he]⟩
  | emitHold hr he hy => simp [(h.sink_ready he).1] at hy

theorem Fed.endsWithin {n : Nat} {s : State} (h : Fed n s) : EndsWithin (stepsLeft n s) s := by
  induction hk : stepsLeft n s using Nat.strong_induction_on generalizing n s with
  | _ k ih =>
    have hpos : 1 ≤ k := by have := (stepsLeft_bounds n h.active).1; omega
    rcases decoderTurn_answers s with ⟨t, ht⟩ | ⟨hr, hw, hn⟩
    · have hstep : step s = .next t := (step_of_no_turns h.turns).trans ht
      rcases h.decoderEffect (decoderTurn_effect ht) with hend | ⟨m, hfed, hlt⟩
      · exact ((endsWithin_of_ended hend).before hstep).mono hpos
      · exact ((ih _ (hk ▸ hlt) hfed rfl).before hstep).mono (hk ▸ hlt)
    · exact (endsWithin_of_fault ((step_of_no_turns h.turns).trans (decoderTurn_unwritten hr hw hn))).mono hpos

end Sys2Proof.Safety

namespace Sys2Proof.Proofs

open Sys2Proof.Machine Sys2Proof.Safety

/-- Settles O51: each step of the session leaves fewer steps, of which there were at most `3 n + 3`. -/
theorem finiteStreamEndsSession : Obligations.FiniteStreamEndsSession := by
  intro s bits hinv hactive hturns hbeats hready
  have hfed : Fed bits.length s :=
    ⟨hinv, hactive, hturns, ⟨bits, rfl, hbeats⟩, bits.length + 1, hready, by split <;> omega⟩
  exact hfed.endsWithin.mono (stepsLeft_bounds bits.length hactive).2

end Sys2Proof.Proofs

namespace Sys2Proof.Safety

open Sys2Proof.Machine

/-! The decoding law (41_decode_steps.md R118). -/

theorem IsCode.eq_leaf {c : CodeTree} {sym : SymId} (h : IsCode c [] sym) : c = .leaf sym := by
  cases h; rfl

/-- The first bit of a code string selects the child the rest is the code string in. -/
theorem IsCode.cons_inv {c : CodeTree} {b : Bool} {path : List Bool} {sym : SymId} (h : IsCode c (b :: path) sym) :
    ∃ l r, c = .node l r ∧ IsCode (cond b r l) path sym := by
  cases h with
  | left hl => exact ⟨_, _, rfl, hl⟩
  | right hr => exact ⟨_, _, rfl, hr⟩

/-- A decoder move at a node of a held tree goes to the child the bit offered selects. -/
theorem decoderTurn_node {s : State} {l r : CodeTree} {b : Bool} {bs : List BeatPins} (hr : s.rst = false)
    (hw : s.walking = true) (ht : Holds s s.cur (.node l r)) (hb : s.beats = bitBeat b :: bs) :
    ∃ i, Holds s i (cond b r l) ∧ decoderTurn s = .next (descendTo b i s) := by
  obtain ⟨w, hn, hk, hleft, hright⟩ := ht
  refine ⟨childOf b w, ?_, ?_⟩
  · cases b
    · exact hleft
    · exact hright
  · exact decoderTurn_of_effect (.bit w b hr hw hn hk (by rw [State.offered_of_cons hb, beatOf_bitBeat]))

/-- Two counts one after the other are the count of both. -/
theorem count_add (v : Word) (m n : Nat) :
    v + BitVec.ofNat 32 m + BitVec.ofNat 32 n = v + BitVec.ofNat 32 (m + n) := by
  rw [BitVec.ofNat_add, BitVec.add_assoc]

/-- `s` after the bits of `path` have been taken, in STATE `st` at index `i`, with `rest` still with the source. -/
def walked (st : SessState) (i : Index) (path : List Bool) (rest : List BeatPins) (s : State) : State :=
  { s with
    state := st, cur := i, bitcnt := s.bitcnt + BitVec.ofNat 32 path.length, beats := rest, taken := s.taken ++ path }

theorem walked_nil {s : State} {rest : List BeatPins} (hb : s.beats = rest) : walked s.state s.cur [] rest s = s := by
  rw [walked, ← hb, List.length_nil, BitVec.add_zero, List.append_nil]

/-- A bit and then the bits of `path` are the bits of `b :: path`. -/
theorem walked_descendTo (st : SessState) (i j : Index) (b : Bool) (path : List Bool) (rest : List BeatPins)
    (s : State) : walked st i path rest (descendTo b j s) = walked st i (b :: path) rest s := by
  simp [walked, descendTo, count_add, Nat.add_comm]

/-- A code string offered is walked to its leaf, a step for each bit. -/
theorem run_code {path : List Bool} {c : CodeTree} {sym : SymId} {s : State} {rest : List BeatPins}
    (hr : s.rst = false) (hm : s.turns = []) (hw : s.walking = true) (ht : Holds s s.cur c) (hc : IsCode c path sym)
    (hb : s.beats = path.map bitBeat ++ rest) :
    ∃ i st, Holds s i (.leaf sym) ∧ (st = .atRoot ∨ st = .descending)
      ∧ Host.Core.run core path.length s = Host.Outcome.next (walked st i path rest s) := by
  induction path generalizing s c with
  | nil =>
    refine ⟨s.cur, s.state, hc.eq_leaf ▸ ht, State.walking_iff.1 hw, ?_⟩
    rw [walked_nil (rest := rest) hb]
    rfl
  | cons b path ih =>
    obtain ⟨l, r, rfl, hchild⟩ := hc.cons_inv
    obtain ⟨j, hj, hstep⟩ := decoderTurn_node hr hw ht hb
    have hheld : Holds (descendTo b j s) j (cond b r l) := holds_of_nodes_eq (s := s) (t := descendTo b j s) rfl hj
    obtain ⟨i, st, hi, hst, hrun⟩ := ih (s := descendTo b j s) hr hm rfl hheld hchild (by simp [hb])
    refine ⟨i, st, holds_of_nodes_eq (s := descendTo b j s) rfl hi, hst, ?_⟩
    rw [List.length_cons, run_succ_of_next ((step_of_no_turns hm).trans hstep), hrun, walked_descendTo]

/-- `s` after the symbols of `message` have been accepted, at the root again, with OUTSYM `y`, and `rest` and `more`
still with the source and the sink. -/
def decoded (y : SymId) (message : List (List Bool × SymId)) (rest : List BeatPins) (more : List Bool) (s : State) :
    State :=
  { s with
    outsym := y, bitcnt := s.bitcnt + BitVec.ofNat 32 (message.flatMap Prod.fst).length,
    symcnt := s.symcnt + BitVec.ofNat 32 message.length, beats := rest, ready := more,
    taken := s.taken ++ message.flatMap Prod.fst, out := s.out ++ message.map Prod.snd }

theorem decoded_nil (s : State) : decoded s.outsym [] s.beats s.ready s = s := by
  simp only [decoded, List.flatMap_nil, List.map_nil, List.length_nil, List.append_nil, BitVec.add_zero]

/-- A symbol and then those of `message` are the symbols of `m :: message`. -/
theorem decoded_decoded (x y : SymId) (m : List Bool × SymId) (message : List (List Bool × SymId))
    (bs rest : List BeatPins) (rs more : List Bool) (s : State) :
    decoded y message rest more (decoded x [m] bs rs s) = decoded y (m :: message) rest more s := by
  simp [decoded, count_add, Nat.add_comm]

/-- A session about to examine the root of the tree `c`, with the decoder to move alone. -/
structure RootSession (c : CodeTree) (s : State) : Prop where
  rst   : s.rst = false
  turns : s.turns = []
  state : s.state = .atRoot
  cur   : s.cur = s.root
  tree  : Holds s s.root c

section

variable {c : CodeTree} {s : State} {rest : List BeatPins} (h : RootSession c s)

include h

/-- A code string offered at the root is walked to its leaf, which the next step resolves. -/
theorem RootSession.run_leaf {path : List Bool} {sym : SymId} (hc : IsCode c path sym)
    (hb : s.beats = path.map bitBeat ++ rest) :
    ∃ i st, Holds s i (.leaf sym)
      ∧ Host.Core.run core (path.length + 1) s = Host.Outcome.next (resolveLeaf sym (walked st i path rest s)) := by
  obtain ⟨i, st, hi, hst, hrun⟩ := run_code h.rst h.turns (State.walking_iff.2 (.inl h.state)) (h.cur ▸ h.tree) hc hb
  refine ⟨i, st, hi, ?_⟩
  obtain ⟨w, hn, hk, rfl⟩ := hi
  have hleaf : step (walked st i path rest s) = .next (resolveLeaf (symOf w) (walked st i path rest s)) :=
    (step_of_no_turns (s := walked st i path rest s) h.turns).trans
      (decoderTurn_leaf h.rst (State.walking_iff.2 hst) hn hk)
  exact (run_add_of_next hrun).trans (run_succ_of_next hleaf)

/-- A data symbol: its code string, a step at its leaf, and one for the sink. -/
theorem RootSession.run_symbol {path : List Bool} {sym : SymId} {more : List Bool} (hc : IsCode c path sym)
    (hy : sym.toNat < s.eos.toNat) (hb : s.beats = path.map bitBeat ++ rest) (hready : s.ready = true :: more) :
    Host.Core.run core (path.length + 2) s = Host.Outcome.next (decoded sym [(path, sym)] rest more s) := by
  obtain ⟨i, st, -, hrun⟩ := h.run_leaf hc hb
  rw [resolveLeaf_isData (s := walked st i path rest s) hy] at hrun
  have haccept : step (offerSymbol sym (walked st i path rest s))
      = .next (acceptSymbol (offerSymbol sym (walked st i path rest s))) :=
    (step_of_no_turns (s := offerSymbol sym (walked st i path rest s)) h.turns).trans
      (decoderTurn_of_effect (.emit h.rst rfl (State.symReady_of_cons hready)))
  refine (run_add_of_next (b := 1) hrun).trans ((run_succ_of_next haccept).trans (congrArg Host.Outcome.next ?_))
  simp only [acceptSymbol, offerSymbol, walked, decoded, hready, h.state, h.cur, List.flatMap_singleton]
  rfl

/-- The code string of EOS: its bits, and a step at its leaf, where CUR stays. -/
theorem RootSession.run_eos {path : List Bool} (hc : IsCode c path s.eos) (hb : s.beats = path.map bitBeat ++ rest) :
    ∃ i, Holds s i (.leaf s.eos)
      ∧ Host.Core.run core (path.length + 1) s = Host.Outcome.next (walked .done i path rest s) := by
  obtain ⟨i, st, hi, hrun⟩ := h.run_leaf hc hb
  refine ⟨i, hi, hrun.trans (congrArg Host.Outcome.next ?_)⟩
  exact resolveLeaf_isEos (s := walked st i path rest s) rfl

end

theorem RootSession.after_decoded {c : CodeTree} {s : State} (h : RootSession c s) (y : SymId)
    (message : List (List Bool × SymId)) (rest : List BeatPins) (more : List Bool) :
    RootSession c (decoded y message rest more s) :=
  ⟨h.rst, h.turns, h.state, h.cur, holds_of_nodes_eq (s := s) (t := decoded y message rest more s) rfl h.tree⟩

/-- Any number of data symbols, each with its code string. -/
theorem RootSession.run_message {c : CodeTree} {message : List (List Bool × SymId)} {s : State}
    {rest : List BeatPins} {more : List Bool} (h : RootSession c s)
    (hc : ∀ m ∈ message, IsCode c m.1 m.2 ∧ m.2.toNat < s.eos.toNat)
    (hb : s.beats = (message.flatMap Prod.fst).map bitBeat ++ rest)
    (hready : s.ready = List.replicate message.length true ++ more) :
    ∃ y, Host.Core.run core ((message.flatMap Prod.fst).length + 2 * message.length) s
      = Host.Outcome.next (decoded y message rest more s) := by
  induction message generalizing s with
  | nil =>
    obtain rfl : s.beats = rest := hb
    obtain rfl : s.ready = more := hready
    exact ⟨s.outsym, congrArg Host.Outcome.next (decoded_nil s).symm⟩
  | cons m message ih =>
    obtain ⟨⟨hcode, hlt⟩, hcodes⟩ := List.forall_mem_cons.1 hc
    have hfirst := h.run_symbol (rest := (message.flatMap Prod.fst).map bitBeat ++ rest) hcode hlt (by simp [hb]) hready
    obtain ⟨y, hrest⟩ := ih (h.after_decoded m.2 [m] _ _) hcodes rfl rfl
    have hlen : ((m :: message).flatMap Prod.fst).length + 2 * (m :: message).length
        = m.1.length + 2 + ((message.flatMap Prod.fst).length + 2 * message.length) := by
      simp only [List.flatMap_cons, List.length_append, List.length_cons]
      omega
    rw [decoded_decoded] at hrest
    exact ⟨y, hlen ▸ (run_add_of_next hfirst).trans hrest⟩

end Sys2Proof.Safety

namespace Sys2Proof.Proofs

open Sys2Proof.Machine Sys2Proof.Safety

/-- Settles O52: the message's symbols one after the other, each from the root, and then the code string of EOS. -/
theorem decodingLaw : Obligations.DecodingLaw := by
  intro s l r message eosCode rest more hr hm hst hcur hbit hsym ht hcodes heos hb hready
  have h : RootSession (.node l r) s := ⟨hr, hm, hst, hcur, ht⟩
  obtain ⟨y, hmessage⟩ := h.run_message (rest := eosCode.map bitBeat ++ rest) hcodes (by simp [hb]) hready
  obtain ⟨i, hi, hend⟩ := (h.after_decoded y message _ more).run_eos heos rfl
  refine ⟨_, (run_add_of_next hmessage).trans hend, rfl, rfl, rfl, ?_, ?_, rfl, rfl, hi, rfl, rfl, rfl⟩
  · simp [walked, decoded, hsym]
  · simp [walked, decoded, hbit, BitVec.ofNat_add]

end Sys2Proof.Proofs
end

section
/-! PROOF of 41_decode_steps.md R121: two node images of one tree decode alike (log 2). -/

namespace Sys2Proof.Machine

/-- A decoder move lists no move and takes none. -/
theorem DecoderEffect.keeps_turns {s t : State} (h : DecoderEffect s t) : t.turns = s.turns := by
  cases h <;> rfl

/-- A run that ends in a next state has made its first step. -/
theorem run_succ_inv {n : Nat} {s t : State} (h : Host.Core.run core (n + 1) s = Host.Outcome.next t) :
    ∃ u, step s = .next u ∧ Host.Core.run core n u = Host.Outcome.next t := by
  rcases step_answers s with ⟨u, hu⟩ | ⟨hr, hu⟩
  · exact ⟨u, hu, (run_succ_of_next hu).symm.trans h⟩
  · cases (run_succ_of_fault (step_of_readsUnwritten hr hu)).symm.trans h

end Sys2Proof.Machine

namespace Sys2Proof.Safety

open Sys2Proof.Machine

/-! What the entry at a held tree's index says of the tree (30_encoding.md R54 to R57). -/

section

variable {s : State} {i : Index} {c : CodeTree} {w : Word} (hc : Holds s i c) (hn : s.nodeRead i = some w)

include hc hn

theorem Holds.eq_node (hk : kindOf w = .internal) :
    ∃ l r, c = .node l r ∧ ∀ b, Holds s (childOf b w) (cond b r l) := by
  cases c with
  | node l r =>
    obtain ⟨v, hv, -, hl, hr⟩ := hc
    cases hn.symm.trans hv
    exact ⟨l, r, rfl, fun b => by cases b; exacts [hl, hr]⟩
  | missing | leaf =>
    obtain ⟨v, hv, hkv⟩ := hc
    cases hn.symm.trans hv
    simp [hk, missingKind] at hkv

theorem Holds.eq_leaf (hk : kindOf w = .leaf) : c = .leaf (symOf w) := by
  cases c with
  | leaf sym =>
    obtain ⟨v, hv, -, rfl⟩ := hc
    cases hn.symm.trans hv
    rfl
  | missing | node =>
    obtain ⟨v, hv, hkv⟩ := hc
    cases hn.symm.trans hv
    simp [hk, missingKind] at hkv

theorem Holds.eq_missing (hk : missingKind (kindOf w) = true) : c = .missing := by
  cases c with
  | missing => rfl
  | leaf | node =>
    obtain ⟨v, hv, hkv, -⟩ := hc
    cases hn.symm.trans hv
    simp [hkv, missingKind] at hk

end

/-- The two states hold one tree, each at its own index. -/
def HoldAlike (s t : State) (i j : Index) : Prop := ∃ tree, Holds s i tree ∧ Holds t j tree

theorem HoldAlike.of_nodes_eq {s t s' t' : State} {i j : Index} (h : HoldAlike s t i j) (hs : s'.nodes = s.nodes)
    (ht : t'.nodes = t.nodes) : HoldAlike s' t' i j :=
  h.imp fun _ hc => ⟨holds_of_nodes_eq hs hc.1, holds_of_nodes_eq ht hc.2⟩

section

variable {s t : State} {i j : Index} {w : Word} (h : HoldAlike s t i j) (hn : s.nodeRead i = some w)

include h hn

/-- Where one has an INTERNAL entry so has the other, and they hold alike at the children too. -/
theorem HoldAlike.internal (hk : kindOf w = .internal) :
    ∃ v, t.nodeRead j = some v ∧ kindOf v = .internal ∧ ∀ b, HoldAlike s t (childOf b w) (childOf b v) := by
  obtain ⟨c, hs, ht⟩ := h
  obtain ⟨l, r, rfl, hchild⟩ := hs.eq_node hn hk
  obtain ⟨v, hv, hkv, hl, hr⟩ := ht
  exact ⟨v, hv, hkv, fun b => ⟨cond b r l, hchild b, by cases b; exacts [hl, hr]⟩⟩

/-- Where one has a LEAF so has the other, of the same symbol. -/
theorem HoldAlike.leaf (hk : kindOf w = .leaf) :
    ∃ v, t.nodeRead j = some v ∧ kindOf v = .leaf ∧ symOf v = symOf w := by
  obtain ⟨c, hs, ht⟩ := h
  obtain rfl := hs.eq_leaf hn hk
  exact ht

/-- Where one has no node neither has the other. -/
theorem HoldAlike.missing (hk : missingKind (kindOf w) = true) :
    ∃ v, t.nodeRead j = some v ∧ missingKind (kindOf v) = true := by
  obtain ⟨c, hs, ht⟩ := h
  obtain rfl := hs.eq_missing hn hk
  exact ht

end

/-- `s` with its tree placed as in `p`, and with the host reads and draws of `p`. -/
def placedAs (p s : State) : State :=
  { s with root := p.root, cur := p.cur, nodes := p.nodes, reads := p.reads, draws := p.draws, stream := p.stream }

theorem SameTree.eq_placedAs {s t : State} (h : SameTree s t) : t = placedAs t s :=
  State.ext h.state h.err h.wrbusy h.cmdign h.badcmd rfl h.eos rfl h.bitcnt h.symcnt h.outsym rfl h.rst h.turns h.beats
    h.ready h.taken h.out rfl rfl rfl

theorem sameTree_placedAs {p s : State} (hroot : HoldAlike s p s.root p.root)
    (hcur : s.walking = true → HoldAlike s p s.cur p.cur) : SameTree s (placedAs p s) where
  state := rfl
  err := rfl
  wrbusy := rfl
  cmdign := rfl
  badcmd := rfl
  eos := rfl
  bitcnt := rfl
  symcnt := rfl
  outsym := rfl
  rst := rfl
  turns := rfl
  beats := rfl
  ready := rfl
  taken := rfl
  out := rfl
  root := hroot.of_nodes_eq rfl rfl
  cur hw := (hcur hw).of_nodes_eq rfl rfl

/-- A decoder move has the same effect on the other image. -/
theorem SameTree.decoderEffect {s s' t : State} (h : SameTree s s') (he : DecoderEffect s t) :
    ∃ t', DecoderEffect s' t' ∧ SameTree t t' := by
  obtain ⟨p, rfl⟩ : ∃ p, s' = placedAs p s := ⟨s', h.eq_placedAs⟩
  have hroot : HoldAlike s p s.root p.root := HoldAlike.of_nodes_eq h.root rfl rfl
  have hcur : s.walking = true → HoldAlike s p s.cur p.cur := fun hw => HoldAlike.of_nodes_eq (h.cur hw) rfl rfl
  cases he with
  | still hs => exact ⟨_, .still hs, h⟩
  | bit w b hr hw hn hk hb =>
    obtain ⟨v, hv, hkv, hchild⟩ := (hcur hw).internal hn hk
    exact ⟨placedAs { p with cur := childOf b v } (descendTo b (childOf b w) s), .bit v b hr hw hv hkv hb,
      sameTree_placedAs (hroot.of_nodes_eq rfl rfl) fun _ => (hchild b).of_nodes_eq rfl rfl⟩
  | exhaust w hr hw hn hk hb =>
    obtain ⟨v, hv, hkv, -⟩ := (hcur hw).internal hn hk
    exact ⟨placedAs p (raiseError .exhausted (useBeat s)), .exhaust v hr hw hv hkv hb,
      sameTree_placedAs (hroot.of_nodes_eq rfl rfl) nofun⟩
  | stall w hr hw hn hk hb =>
    obtain ⟨v, hv, hkv, -⟩ := (hcur hw).internal hn hk
    exact ⟨placedAs p (useBeat s), .stall v hr hw hv hkv hb,
      sameTree_placedAs (hroot.of_nodes_eq rfl rfl) fun hw => (hcur hw).of_nodes_eq rfl rfl⟩
  | leafEos w hr hw hn hk hy =>
    obtain ⟨v, hv, hkv, hsym⟩ := (hcur hw).leaf hn hk
    exact ⟨placedAs p (endOfStream s), .leafEos v hr hw hv hkv (hsym.trans hy),
      sameTree_placedAs (hroot.of_nodes_eq rfl rfl) nofun⟩
  | leafData w hr hw hn hk hy =>
    obtain ⟨v, hv, hkv, hsym⟩ := (hcur hw).leaf hn hk
    rw [← hsym] at hy ⊢
    exact ⟨placedAs p (offerSymbol (symOf v) s), .leafData v hr hw hv hkv hy,
      sameTree_placedAs (hroot.of_nodes_eq rfl rfl) nofun⟩
  | leafBadsym w hr hw hn hk hy =>
    obtain ⟨v, hv, hkv, hsym⟩ := (hcur hw).leaf hn hk
    exact ⟨placedAs p (raiseError .badSym s), .leafBadsym v hr hw hv hkv (hsym ▸ hy),
      sameTree_placedAs (hroot.of_nodes_eq rfl rfl) nofun⟩
  | badNode w hr hw hn hk =>
    obtain ⟨v, hv, hkv⟩ := (hcur hw).missing hn hk
    exact ⟨placedAs p (raiseError .badNode s), .badNode v hr hw hv hkv,
      sameTree_placedAs (hroot.of_nodes_eq rfl rfl) nofun⟩
  | emit hr he hy =>
    exact ⟨placedAs { p with cur := p.root } (acceptSymbol s), .emit hr he hy,
      sameTree_placedAs (hroot.of_nodes_eq rfl rfl) fun _ => hroot.of_nodes_eq rfl rfl⟩
  | emitHold hr he hy =>
    exact ⟨placedAs p (useReady s), .emitHold hr he hy,
      sameTree_placedAs (hroot.of_nodes_eq rfl rfl) fun hw => (hcur hw).of_nodes_eq rfl rfl⟩

end Sys2Proof.Safety

namespace Sys2Proof.Proofs

open Sys2Proof.Machine Sys2Proof.Safety

/-- Settles O53: by the number of steps, each with the same effect on both images. -/
theorem layoutDoesNotMatter : Obligations.LayoutDoesNotMatter := by
  intro n
  induction n with
  | zero =>
    intro s s' t h hm hrun
    cases hrun
    exact ⟨s', rfl, h⟩
  | succ n ih =>
    intro s s' t h hm hrun
    obtain ⟨u, hstep, hrun⟩ := run_succ_inv hrun
    have he : DecoderEffect s u := decoderTurn_effect ((step_of_no_turns hm).symm.trans hstep)
    obtain ⟨u', he', hu⟩ := h.decoderEffect he
    have hstep' : step s' = .next u' := (step_of_no_turns (h.turns.trans hm)).trans (decoderTurn_of_effect he')
    obtain ⟨t', hrun', ht⟩ := ih u u' t hu (he.keeps_turns.trans hm) hrun
    exact ⟨t', (run_succ_of_next hstep').trans hrun', ht⟩

end Sys2Proof.Proofs
end

section
/-! PROOFS of the statements about 42_host_reference.md on the node image: the reference layout holds the tree, and the
host accesses that load it leave it held. -/

namespace Sys2Proof.Machine

/-! What the image and the layout are, and the kinds of the words placed (42_host_reference.md R133). -/

theorem nodeImage_eq_some {t : CodeTree} {m : Memory} :
    nodeImage t = some m ↔ (placeTree t 0).2 ≤ Config.nodeDepth ∧ (placeTree t 0).1 = m := by
  simp [nodeImage]

theorem layOut_eq_some {t : CodeTree} {n : SymId} {l : Layout} :
    layOut t n = some l ↔ ∃ m, nodeImage t = some m ∧ l = { nodes := m, root := 0#10, eos := n } := by
  cases h : nodeImage t <;> simp [layOut, h, eq_comm]

/-- The image of a tree that fits lists its entries in rising order, below its length. -/
theorem nodeImage_rises {t : CodeTree} {m : Memory} (h : nodeImage t = some m) :
    Memory.risesFrom 0 m = true ∧ ∀ e ∈ m, e.1 < m.length := by
  obtain ⟨hfits, rfl⟩ := nodeImage_eq_some.1 h
  obtain ⟨hrises, hbelow⟩ := placeTree_rises hfits
  exact ⟨hrises, fun e he => lt_of_lt_of_eq (hbelow e he) (placeTree_length t 0).symm⟩

theorem kindOf_emptyWord (rsv : BitVec 30) : kindOf (emptyWord rsv) = .empty :=
  (kindOf_eq _).1.2 (emptyWord_fields rsv).1

theorem kindOf_leafWord (rsv : BitVec 21) (sym : SymId) : kindOf (leafWord rsv sym) = .leaf :=
  (kindOf_eq _).2.2.1.2 (leafWord_fields rsv sym).1

theorem symOf_leafWord (rsv : BitVec 21) (sym : SymId) : symOf (leafWord rsv sym) = sym :=
  (leafWord_fields rsv sym).2.2

theorem kindOf_internalWord (rsv : BitVec 10) (right left : Index) : kindOf (internalWord rsv right left) = .internal :=
  (kindOf_eq _).2.1.2 (internalWord_fields rsv right left).1

theorem rightOf_internalWord (rsv : BitVec 10) (right left : Index) : rightOf (internalWord rsv right left) = right :=
  (internalWord_fields rsv right left).2.2.1

theorem leftOf_internalWord (rsv : BitVec 10) (right left : Index) : leftOf (internalWord rsv right left) = left :=
  (internalWord_fields rsv right left).2.2.2

/-- An index below the depth of node memory is read at that index. -/
theorem nodeRead_ofNat (s : State) {i : Nat} (h : i < Config.nodeDepth) :
    s.nodeRead (BitVec.ofNat 10 i) = Memory.read s.nodes i := by
  rw [State.nodeRead, BitVec.toNat_ofNat, Nat.mod_eq_of_lt h]

end Sys2Proof.Machine

namespace Sys2Proof.Safety

open Sys2Proof.Machine

/-- Node memory that reads as the image placed from `n`, whatever else it lists, holds the tree at `n`. -/
theorem holds_of_reads_placeTree {t : CodeTree} {n : Nat} {s : State} (hfits : (placeTree t n).2 ≤ Config.nodeDepth)
    (hread : ∀ e ∈ (placeTree t n).1, Memory.read s.nodes e.1 = some e.2) : Holds s (BitVec.ofNat 10 n) t := by
  have hn := nodeRead_ofNat s (lt_of_lt_of_le (lt_placeTree_end t n) hfits)
  induction t generalizing n with
  | missing => exact ⟨_, hn.trans (hread _ (List.mem_singleton_self _)), by rw [kindOf_emptyWord]; rfl⟩
  | leaf sym =>
    exact ⟨_, hn.trans (hread _ (List.mem_singleton_self _)), kindOf_leafWord 0#21 sym, symOf_leafWord 0#21 sym⟩
  | node l r ihl ihr =>
    simp only [placeTree, List.forall_mem_cons, List.forall_mem_append] at hfits hread
    obtain ⟨hnode, hleft, hright⟩ := hread
    have hr := lt_placeTree_end r (placeTree l (n + 1)).2
    have hl := lt_placeTree_end l (n + 1)
    refine ⟨_, hn.trans hnode, kindOf_internalWord _ _ _, ?_, ?_⟩
    · rw [leftOf_internalWord]
      exact ihl (by omega) hleft (nodeRead_ofNat s (by omega))
    · rw [rightOf_internalWord]
      exact ihr hfits hright (nodeRead_ofNat s (by omega))

/-- Node memory that reads as the image of a tree holds it at index 0. -/
theorem holds_of_reads_nodeImage {t : CodeTree} {m : Memory} {s : State} (h : nodeImage t = some m)
    (hread : ∀ e ∈ m, Memory.read s.nodes e.1 = some e.2) : Holds s 0#10 t := by
  obtain ⟨hfits, rfl⟩ := nodeImage_eq_some.1 h
  exact holds_of_reads_placeTree hfits hread

end Sys2Proof.Safety

namespace Sys2Proof.Machine

/-- A ROOT write and then an EOS write, made while no session is active, set ROOT and EOS. -/
theorem run_rootEosWrites {s : State} {i : Index} {n : SymId}
    (hm : s.turns = [.host (asmWr .root (zext32 i)), .host (asmWr .eos (zext32 n))]) (hr : s.rst = false)
    (ha : s.active = false) :
    Host.Core.run core 2 s = Host.Outcome.next ({ s with root := i, eos := n, turns := [] } : State) := by
  have hroot := step_rootWrite hm hr ha
  rw [rootOperand_zext32] at hroot
  have heos := step_eosWrite (s := { s with root := i, turns := [.host (asmWr .eos (zext32 n))] }) rfl hr ha
  rw [eosOperand_zext32] at heos
  exact (run_succ_of_next hroot).trans (run_succ_of_next heos)

/-- The accesses that load a layout, made while no session is active, store its entries, ROOT and EOS. -/
theorem run_loadLayout {l : Layout} {s : State} (hrises : Memory.risesFrom 0 l.nodes = true) (hr : s.rst = false)
    (ha : s.active = false) (hm : s.turns = hostProgram (loadLayout l)) :
    Host.Core.run core (l.nodes.length + 2) s = Host.Outcome.next
      ({ s with nodes := Memory.writeAll l.nodes s.nodes, root := l.root, eos := l.eos, turns := [] } : State) := by
  have hturns : s.turns = l.nodes.map (fun e => .host (asmWr (.node (BitVec.ofNat 10 e.1)) e.2))
      ++ [.host (asmWr .root (zext32 l.root)), .host (asmWr .eos (zext32 l.eos))] := by
    rw [hm, hostProgram, loadLayout, List.map_append, List.map_map]
    rfl
  exact (run_add_of_next (run_nodeWrites hrises hturns hr ha)).trans (run_rootEosWrites rfl hr ha)

end Sys2Proof.Machine

namespace Sys2Proof.Proofs

open Sys2Proof.Machine Sys2Proof.Safety

/-- Settles O56: the image rises strictly, so each entry of the tree is what its index reads as. -/
theorem nodeImageHoldsTree : Obligations.NodeImageHoldsTree := by
  intro t m s himage hnodes
  obtain ⟨hrises, -⟩ := nodeImage_rises himage
  refine ⟨hrises, holds_of_reads_nodeImage himage fun e he => ?_⟩
  rw [hnodes]
  exact (Memory.read_of_mem hrises e he).1

/-- Settles O57: the image written over node memory reads as the image where it is listed, and as before elsewhere. -/
theorem loadedLayoutHoldsTree : Obligations.LoadedLayoutHoldsTree := by
  intro t n l s hlayOut hr ha hm
  obtain ⟨m, himage, rfl⟩ := layOut_eq_some.1 hlayOut
  obtain ⟨hrises, hbelow⟩ := nodeImage_rises himage
  refine ⟨_, run_loadLayout hrises hr ha hm, rfl, ?_, ?_⟩
  · refine holds_of_reads_nodeImage himage fun e he => ?_
    rw [Memory.read_writeAll hrises, (Memory.read_of_mem hrises e he).1, Option.some_or]
  · intro i hi
    rw [State.nodeRead, Memory.read_writeAll hrises, Memory.read_above hbelow hi, Option.none_or]
    rfl

end Sys2Proof.Proofs
end

section
/-! PROOF of what the tree builder of 42_host_reference.md (R122 to R127) refuses and builds. -/

namespace Sys2Proof.Machine

/-! One merge (42_host_reference.md R124, R125). -/

/-- The node popped and the rest are the collection, in some order, and only the empty collection has none. -/
theorem popMin_perm {xs : List Weighted} (h : xs ≠ []) : ∃ y ys, popMin xs = some (y, ys) ∧ xs.Perm (y :: ys) := by
  induction xs with
  | nil => exact absurd rfl h
  | cons x xs ih =>
    by_cases hxs : xs = []
    · subst hxs
      exact ⟨x, [], rfl, .refl _⟩
    · obtain ⟨y, ys, hpop, hperm⟩ := ih hxs
      by_cases hle : x.1 ≤ y.1
      · exact ⟨x, xs, by simp [popMin, hpop, hle], .refl _⟩
      · exact ⟨y, x :: ys, by simp [popMin, hpop, hle], (hperm.cons x).trans (.swap y x ys)⟩

/-- A merge of two nodes or more replaces some two of them by the node above them. -/
theorem mergeOnce_perm {xs : List Weighted} (h : 2 ≤ xs.length) :
    ∃ a b rest, xs.Perm (a :: b :: rest) ∧ mergeOnce xs = rest ++ [(a.1 + b.1, .node a.2 b.2)] := by
  obtain ⟨a, ys, hpopA, hpermA⟩ := popMin_perm (xs := xs) (by rintro rfl; simp at h)
  have hlen := hpermA.length_eq
  obtain ⟨b, rest, hpopB, hpermB⟩ := popMin_perm (xs := ys) (by rintro rfl; simp at hlen; omega)
  exact ⟨a, b, rest, hpermA.trans (hpermB.cons a), by simp [mergeOnce, hpopA, hpopB]⟩

/-! What every merge keeps (42_host_reference.md R127). -/

/-- The collection is of strict trees with `n` leaves in all. -/
structure StrictForest (n : Nat) (xs : List Weighted) : Prop where
  strict : ∀ x ∈ xs, strictTree x.2 = true
  leaves : (xs.map fun x => leafCount x.2).sum = n

theorem StrictForest.perm {n : Nat} {xs ys : List Weighted} (h : StrictForest n xs) (hp : xs.Perm ys) :
    StrictForest n ys where
  strict x hx := h.strict x (hp.mem_iff.2 hx)
  leaves := (hp.map fun x => leafCount x.2).sum_eq.symm.trans h.leaves

theorem StrictForest.append {m n : Nat} {xs ys : List Weighted} (hx : StrictForest m xs) (hy : StrictForest n ys) :
    StrictForest (m + n) (xs ++ ys) where
  strict := List.forall_mem_append.2 ⟨hx.strict, hy.strict⟩
  leaves := by rw [List.map_append, List.sum_append, hx.leaves, hy.leaves]

/-- A merge of two nodes or more keeps the forest strict and its leaves, and leaves one node less. -/
theorem StrictForest.after_mergeOnce {n : Nat} {xs : List Weighted} (h : StrictForest n xs) (hlen : 2 ≤ xs.length) :
    StrictForest n (mergeOnce xs) ∧ (mergeOnce xs).length + 1 = xs.length := by
  obtain ⟨a, b, rest, hperm, hmerge⟩ := mergeOnce_perm hlen
  obtain ⟨hstrict, hleaves⟩ := h.perm hperm
  simp only [List.forall_mem_cons] at hstrict
  obtain ⟨ha, hb, hrest⟩ := hstrict
  rw [hmerge]
  refine ⟨⟨List.forall_mem_append.2 ⟨hrest, ?_⟩, ?_⟩, ?_⟩
  · simp [strictTree, ha, hb]
  · simp [leafCount] at hleaves ⊢
    omega
  · simp [hperm.length_eq]

/-- Merging until one node remains gives one strict tree with all the leaves. -/
theorem StrictForest.mergeTimes_eq_singleton {n k : Nat} {xs : List Weighted} (h : StrictForest n xs)
    (hlen : xs.length = k + 1) :
    ∃ w t, mergeTimes k xs = [(w, t)] ∧ strictTree t = true ∧ leafCount t = n := by
  induction k generalizing xs with
  | zero =>
    obtain ⟨⟨w, t⟩, rfl⟩ := List.length_eq_one_iff.1 hlen
    exact ⟨w, t, rfl, h.strict _ (List.mem_singleton_self _), by simpa using h.leaves⟩
  | succ k ih =>
    obtain ⟨hforest, hless⟩ := h.after_mergeOnce (by omega)
    exact ih hforest (by omega)

/-! The collection the builder starts with (42_host_reference.md R123). -/

/-- One seed for each non-zero count. -/
theorem symbolSeeds_length (i : Nat) (freq : List Nat) :
    (symbolSeeds i freq).length = (freq.filter fun c => c ≠ 0).length := by
  induction freq generalizing i with
  | nil => rfl
  | cons c cs ih => by_cases hc : c = 0 <;> simpa [symbolSeeds, hc] using ih (i + 1)

theorem symbolSeeds_eq_nil {i : Nat} {freq : List Nat} : symbolSeeds i freq = [] ↔ ∀ c ∈ freq, c = 0 := by
  rw [← List.length_eq_zero_iff, symbolSeeds_length, List.length_eq_zero_iff, List.filter_eq_nil_iff]
  simp

theorem strictForest_leaf (w : Nat) (sym : SymId) : StrictForest 1 [(w, .leaf sym)] :=
  ⟨fun x hx => by rw [List.mem_singleton.1 hx]; rfl, rfl⟩

theorem strictForest_symbolSeeds (i : Nat) (freq : List Nat) :
    StrictForest (symbolSeeds i freq).length (symbolSeeds i freq) := by
  induction freq generalizing i with
  | nil => exact ⟨nofun, rfl⟩
  | cons c cs ih =>
    by_cases hc : c = 0
    · simpa [symbolSeeds, hc] using ih (i + 1)
    · simpa [symbolSeeds, hc, Nat.add_comm] using (strictForest_leaf c (BitVec.ofNat 9 i)).append (ih (i + 1))

/-- The seeds are leaves: as many as the non-zero counts, and the end-of-stream leaf. -/
theorem strictForest_builderSeeds (freq : List Nat) :
    StrictForest ((freq.filter fun c => c ≠ 0).length + 1) (builderSeeds freq) :=
  symbolSeeds_length 0 freq ▸ (strictForest_symbolSeeds 0 freq).append (strictForest_leaf 1 _)

end Sys2Proof.Machine

namespace Sys2Proof.Proofs

open Sys2Proof.Machine

/-- Settles O58: each merge takes one node from the seeds and keeps their leaves, so one strict tree is left. -/
theorem treeBuilder : Obligations.TreeBuilder := by
  intro freq
  refine ⟨fun hlarge => ?_, fun hsize hzero => ?_, fun hsize ⟨c, hc, hne⟩ => ?_⟩
  · rw [buildTree, if_pos hlarge]
  · rw [buildTree, if_neg (Nat.not_lt.2 hsize), if_pos (symbolSeeds_eq_nil.2 hzero)]
  · have hseeds : symbolSeeds 0 freq ≠ [] := fun h => hne (symbolSeeds_eq_nil.1 h c hc)
    have hlen : (builderSeeds freq).length = (builderSeeds freq).length - 1 + 1 := by simp [builderSeeds]
    obtain ⟨w, t, hmerge, hstrict, hleaves⟩ := (strictForest_builderSeeds freq).mergeTimes_eq_singleton hlen
    refine ⟨t, ?_, hstrict, hleaves⟩
    rw [buildTree, if_neg (Nat.not_lt.2 hsize), if_neg hseeds, hmerge]

end Sys2Proof.Proofs
end

section
/-! PROOFS of the statements about 42_host_reference.md on the code table: it lists the code strings of the tree, and its
lines deserialize to the tree. -/

namespace Sys2Proof.Machine

open Sys2Proof.Safety

/-! The table lists the code strings (42_host_reference.md R128). -/

/-- A pair of a child's table, its code string begun with the bit that leads to the child. -/
theorem mem_map_cons_iff {b : Bool} {es : List (SymId × List Bool)} {e : SymId × List Bool} :
    e ∈ es.map (fun d => (d.1, b :: d.2)) ↔ ∃ p, (e.1, p) ∈ es ∧ e.2 = b :: p := by
  rw [List.mem_map]
  constructor
  · rintro ⟨d, hd, rfl⟩
    exact ⟨d.2, hd, rfl⟩
  · rintro ⟨p, hp, hpath⟩
    exact ⟨(e.1, p), hp, Prod.ext rfl hpath.symm⟩

theorem mem_codeTable_node {l r : CodeTree} {e : SymId × List Bool} :
    e ∈ codeTable (.node l r) ↔
      (∃ p, (e.1, p) ∈ codeTable l ∧ e.2 = false :: p) ∨ ∃ p, (e.1, p) ∈ codeTable r ∧ e.2 = true :: p := by
  rw [codeTable, List.mem_append, mem_map_cons_iff, mem_map_cons_iff]

theorem isCode_of_mem_codeTable {t : CodeTree} {path : List Bool} {sym : SymId} (h : (sym, path) ∈ codeTable t) :
    IsCode t path sym := by
  induction t generalizing path with
  | missing => exact absurd h List.not_mem_nil
  | leaf y =>
    cases List.mem_singleton.1 h
    exact .leaf sym
  | node l r ihl ihr =>
    rcases mem_codeTable_node.1 h with ⟨p, hp, rfl⟩ | ⟨p, hp, rfl⟩
    · exact .left (ihl hp)
    · exact .right (ihr hp)

theorem mem_codeTable_of_isCode {t : CodeTree} {path : List Bool} {sym : SymId} (h : IsCode t path sym) :
    (sym, path) ∈ codeTable t := by
  induction h with
  | leaf sym => exact List.mem_singleton_self _
  | left _ ih => exact mem_codeTable_node.2 (.inl ⟨_, ih, rfl⟩)
  | right _ ih => exact mem_codeTable_node.2 (.inr ⟨_, ih, rfl⟩)

/-! Lines written and read (42_host_reference.md R128, R130). -/

theorem digitValue_of_isDigit {c : Char} (h : c.isDigit = true) : digitValue c = some (c.toNat - '0'.toNat) :=
  if_pos (Char.isDigit_iff_toNat.1 h)

/-- A run of digits reads as the number the library reads it as. -/
theorem decimalFrom_of_isDigit {l : Line} (h : ∀ c ∈ l, c.isDigit = true) (acc : Nat) :
    decimalFrom acc l = some (Nat.ofDigitChars 10 l acc) := by
  induction l generalizing acc with
  | nil => rw [decimalFrom, Nat.ofDigitChars_nil]
  | cons c cs ih =>
    obtain ⟨hc, hcs⟩ := List.forall_mem_cons.1 h
    rw [decimalFrom, digitValue_of_isDigit hc, Nat.ofDigitChars_cons, Nat.mul_comm 10 acc]
    exact ih hcs _

/-- A symbol id written in decimal is read back. -/
theorem readSymbol_toDigits (sym : SymId) : readSymbol (Nat.toDigits 10 sym.toNat) = some sym := by
  have hdec : decimalFrom 0 (Nat.toDigits 10 sym.toNat) = some sym.toNat := by
    rw [decimalFrom_of_isDigit fun c hc => Nat.isDigit_of_mem_toDigits (by decide) (by decide) hc,
      Nat.ofDigitChars_ten_toDigits]
  have hlt : sym.toNat < 512 := sym.isLt
  cases hl : Nat.toDigits 10 sym.toNat with
  | nil => exact absurd hl Nat.toDigits_ne_nil
  | cons c cs =>
    rw [hl] at hdec
    simp [readSymbol, hdec, hlt]

/-- A code string written is read back. -/
theorem readCode_codeLine (code : List Bool) : readCode (codeLine code) = some code := by
  induction code with
  | nil => rfl
  | cons b code ih =>
    have hcons : readCode (codeLine (b :: code)) = readCode ((if b then '1' else '0') :: codeLine code) := rfl
    rw [hcons, readCode, ih]
    cases b <;> rfl

/-! Inserting the pairs of a table one after another (42_host_reference.md R129). -/

/-- The walks of the pairs `es` from the root of `t`, in order. -/
def insertCodes (t : CodeTree) (es : List (SymId × List Bool)) : Option CodeTree :=
  es.foldlM (fun u e => insertCode u e.2 e.1) t

theorem insertCodes_append {t : CodeTree} {ds es : List (SymId × List Bool)} :
    insertCodes t (ds ++ es) = (insertCodes t ds).bind fun u => insertCodes u es :=
  List.foldlM_append

theorem insertCodes_cons (t : CodeTree) (e : SymId × List Bool) (es : List (SymId × List Bool)) :
    insertCodes t (e :: es) = (insertCode t e.2 e.1).bind fun u => insertCodes u es :=
  List.foldlM_cons

theorem insertCodes_cons_eq_some {t u : CodeTree} {e : SymId × List Bool} {es : List (SymId × List Bool)} :
    insertCodes t (e :: es) = some u ↔ ∃ v, insertCode t e.2 e.1 = some v ∧ insertCodes v es = some u := by
  rw [insertCodes_cons, Option.bind_eq_some_iff]

/-- Where a walk that begins with the bit `b` is the rest of the walk at the child in `above`, so are the walks of pairs
that all begin with it. -/
theorem insertCodes_below {b : Bool} {above : CodeTree → CodeTree}
    (hwalk : ∀ c p sym, insertCode (above c) (b :: p) sym = (insertCode c p sym).map above) {c c' : CodeTree}
    {es : List (SymId × List Bool)} (h : insertCodes c es = some c') :
    insertCodes (above c) (es.map fun e => (e.1, b :: e.2)) = some (above c') := by
  induction es generalizing c with
  | nil => cases h; rfl
  | cons e es ih =>
    obtain ⟨u, hu, hrest⟩ := insertCodes_cons_eq_some.1 h
    exact insertCodes_cons_eq_some.2 ⟨above u, by rw [hwalk, hu, Option.map_some], ih hrest⟩

/-- The tables of both children, walked from a placeholder with no children, give the node above them. -/
theorem insertCodes_codeTable_node {l r : CodeTree} (hl : insertCodes .missing (codeTable l) = some l)
    (hr : insertCodes .missing (codeTable r) = some r) :
    insertCodes (.node .missing .missing) (codeTable (.node l r)) = some (.node l r) := by
  rw [codeTable, insertCodes_append, insertCodes_below (above := (.node · .missing)) (fun _ _ _ => rfl) hl]
  exact insertCodes_below (above := .node l) (fun _ _ _ => rfl) hr

/-- A walk of one bit or more makes a missing node a placeholder. -/
theorem insertCode_missing_cons (b : Bool) (p : List Bool) (sym : SymId) :
    insertCode .missing (b :: p) sym = insertCode (.node .missing .missing) (b :: p) sym := by
  cases b <;> rfl

theorem strictTree_node {l r : CodeTree} :
    strictTree (.node l r) = true ↔ strictTree l = true ∧ strictTree r = true :=
  Bool.and_eq_true_iff

theorem codeTable_ne_nil {t : CodeTree} (h : strictTree t = true) : codeTable t ≠ [] := by
  induction t with
  | missing => exact absurd h Bool.false_ne_true
  | leaf sym => exact List.cons_ne_nil _ _
  | node l r ihl ihr =>
    simp [codeTable, ihl (strictTree_node.1 h).1]

theorem ne_nil_of_mem_codeTable_node {l r : CodeTree} {e : SymId × List Bool} (h : e ∈ codeTable (.node l r)) :
    e.2 ≠ [] := by
  rcases mem_codeTable_node.1 h with ⟨p, -, hp⟩ | ⟨p, -, hp⟩ <;> simp [hp]

/-- Pairs with no empty code string, one at least, are walked from a missing node as from a placeholder. -/
theorem insertCodes_missing {es : List (SymId × List Bool)} (hne : es ≠ []) (hcode : ∀ e ∈ es, e.2 ≠ []) :
    insertCodes .missing es = insertCodes (.node .missing .missing) es := by
  obtain ⟨⟨sym, path⟩, es, rfl⟩ := List.exists_cons_of_ne_nil hne
  obtain ⟨b, p, hpath⟩ := List.exists_cons_of_ne_nil (hcode _ List.mem_cons_self)
  obtain rfl : path = b :: p := hpath
  rw [insertCodes_cons, insertCodes_cons, insertCode_missing_cons]

/-- The table of a strict tree, walked from nothing, gives the tree. -/
theorem insertCodes_codeTable {t : CodeTree} (h : strictTree t = true) : insertCodes .missing (codeTable t) = some t := by
  induction t with
  | missing => exact absurd h Bool.false_ne_true
  | leaf sym => rfl
  | node l r ihl ihr =>
    obtain ⟨hl, hr⟩ := strictTree_node.1 h
    rw [insertCodes_missing (codeTable_ne_nil h) fun _ => ne_nil_of_mem_codeTable_node]
    exact insertCodes_codeTable_node (ihl hl) (ihr hr)

/-- The lines of pairs with no empty code string deserialize to what the walks of the pairs give. -/
theorem deserializeInto_of_insertCodes {t u : CodeTree} {es : List (SymId × List Bool)} (hcode : ∀ e ∈ es, e.2 ≠ [])
    (h : insertCodes t es = some u) :
    deserializeInto t (es.flatMap fun e => [Nat.toDigits 10 e.1.toNat, codeLine e.2]) = .ok u := by
  induction es generalizing t with
  | nil => cases h; rfl
  | cons e es ih =>
    obtain ⟨hpath, hcodes⟩ := List.forall_mem_cons.1 hcode
    obtain ⟨t', hinsert, hrest⟩ := insertCodes_cons_eq_some.1 h
    obtain ⟨b, p, hbp⟩ := List.exists_cons_of_ne_nil hpath
    rw [hbp] at hinsert
    simp only [List.flatMap_cons, List.cons_append, List.nil_append, deserializeInto, readSymbol_toDigits,
      readCode_codeLine, hbp, hinsert]
    exact ih hcodes hrest

end Sys2Proof.Machine

namespace Sys2Proof.Proofs

open Sys2Proof.Machine

/-- Settles O59: the root is a placeholder with no children, which the walks of the table's pairs fill. -/
theorem tableRoundTrip : Obligations.TableRoundTrip := by
  intro l r h
  obtain ⟨hl, hr⟩ := strictTree_node.1 h
  exact deserializeInto_of_insertCodes (fun _ => ne_nil_of_mem_codeTable_node)
    (insertCodes_codeTable_node (insertCodes_codeTable hl) (insertCodes_codeTable hr))

/-- Settles O60: by the tree in one direction, and by the path in the other. -/
theorem codeTableListsCodes : Obligations.CodeTableListsCodes :=
  fun _ _ _ => ⟨isCode_of_mem_codeTable, mem_codeTable_of_isCode⟩

end Sys2Proof.Proofs
end

section
/-! PROOFS of the statements about 60_exceptions.md: the moves that enter ERROR, and that each has the effect of
`raiseError` alone (R138 to R140). -/

namespace Sys2Proof.Machine

open Sys2Proof.Safety

/-- No level on the reset pin enters ERROR (70_reset_and_hazards.md R155). -/
theorem setRst_enters_no_error {s : State} {level : Bool} (h : (setRst level s).state = .error) : s.state = .error := by
  unfold setRst at h
  split at h
  · cases h
  · exact h

/-- A host access enters ERROR only by a START that raises BADROOT (60_exceptions.md R138). -/
theorem HostEffect.enters_error {s t : State} {i : Instr} (h : HostEffect s i t) (ht : t.state = .error)
    (hs : s.state ≠ .error) :
    (∃ d, i = .wrCmd d ∧ opOf d = 0x1#4) ∧ t = raiseError .badRoot (beginSession s) := by
  cases h with
  | startBadRoot d w ho ha hn hk => exact ⟨⟨d, rfl, ho⟩, rfl⟩
  | startSession | abort => cases ht
  | _ => exact absurd ht hs

/-- A decoder move enters ERROR only from a walk, with the code of a decode error; of the bit source it may have seen
one sample (60_exceptions.md R138, R139). -/
theorem DecoderEffect.enters_error {s t : State} (h : DecoderEffect s t) (ht : t.state = .error)
    (hs : s.state ≠ .error) :
    s.walking = true ∧ ∃ code bs, code ≠ .none ∧ code ≠ .badRoot ∧ t = raiseError code { s with beats := bs } := by
  cases h with
  | exhaust w hr hw hn hk hb => exact ⟨hw, .exhausted, s.beats.tail, nofun, nofun, rfl⟩
  | leafBadsym w hr hw hn hk hy => exact ⟨hw, .badSym, s.beats, nofun, nofun, rfl⟩
  | badNode w hr hw hn hk => exact ⟨hw, .badNode, s.beats, nofun, nofun, rfl⟩
  | bit | leafEos | leafData | emit => cases ht
  | still | stall | emitHold => exact absurd ht hs

/-- Every way into ERROR: START with BADROOT, or a decode error of a walk (60_exceptions.md R138). -/
theorem step_enters_error {s t : State} (h : step s = .next t) (ht : t.state = .error) (hs : s.state ≠ .error) :
    ∃ rest,
      (CommandMoves s 0x1#4 ∧ t = raiseError .badRoot (beginSession { s with turns := rest }))
      ∨ (s.walking = true ∧ ∃ code bs, code ≠ .none ∧ code ≠ .badRoot
        ∧ t = raiseError code { s with turns := rest, beats := bs }) := by
  have hm : NoResetMove s := by
    intro level rest hp
    cases (step_rst hp).symm.trans h
    exact hs (setRst_enters_no_error (s := { s with turns := rest }) ht)
  obtain ⟨rest, ⟨rs, rfl⟩ | ⟨i, hp, he⟩ | he⟩ := step_cases_of_noResetMove hm h
  · exact absurd ht hs
  · exact ⟨rest, .inl ((he.enters_error ht hs).imp_left (commandMoves_of_pending hp))⟩
  · exact ⟨rest, .inr (he.enters_error ht hs)⟩

end Sys2Proof.Machine

namespace Sys2Proof.Proofs

open Sys2Proof.Machine

/-- Settles O41: either way into ERROR writes STATE and ERR, and START its own three registers, besides moves and
samples. -/
theorem errorsArePrecise : Obligations.ErrorsArePrecise := by
  intro s t h ht hs
  obtain ⟨rest, ⟨hc, rfl⟩ | ⟨hw, code, bs, hnone, hroot, rfl⟩⟩ := step_enters_error h ht hs
  · exact ⟨nofun, rfl, rfl, rfl, rfl, rfl, rfl, rfl, rfl, rfl, .inl ⟨rfl, rfl, rfl, rfl, hc⟩⟩
  · exact ⟨hnone, rfl, rfl, rfl, rfl, rfl, rfl, rfl, rfl, rfl, .inr ⟨hroot, rfl, rfl, rfl, hw⟩⟩

end Sys2Proof.Proofs
end

section
/-! PROOFS of the statements about 70_reset_and_hazards.md: the reset pin, and the reference cycle as two moves. -/

namespace Sys2Proof.Machine

/-! The reset pin (70_reset_and_hazards.md R155). -/

/-- Asserting the pin, and releasing it, resets the block. -/
theorem setRst_of_reset {s : State} {level : Bool} (h : level = true ∨ s.rst = true) :
    setRst level s = { resetBlock s with rst := level } := by
  rcases h with h | h <;> simp [setRst, h]

/-- No decoder move changes the pin's level. -/
theorem DecoderEffect.keeps_rst {s t : State} (h : DecoderEffect s t) : t.rst = s.rst := by
  cases h <;> rfl

/-! Two moves and nothing after them (00_scope.md R9; log 1). -/

/-- `f` is what a step does on the move `m`, whatever moves come after it, which it neither reads nor changes. -/
structure PerformsMove (m : Turn) (f : State → Result) : Prop where
  step_eq : ∀ (s : State) (rest : List Turn), s.turns = m :: rest → step s = f { s with turns := rest }
  withTurns : ∀ (ts : List Turn) (s : State), f { s with turns := ts } = Result.withTurns ts (f s)

theorem performsMove_host (p : HostPins) : PerformsMove (.host p) (hostTurn p) where
  step_eq _ _ hm := step_host hm
  withTurns := hostTurn_withTurns p

theorem performsMove_decoder : PerformsMove .decoder decoderTurn where
  step_eq _ _ hm := step_decoder (.inl hm)
  withTurns := decoderTurn_withTurns

/-- A step on the move `m` leaves the moves after it. -/
theorem PerformsMove.step_cons {m : Turn} {f : State → Result} (h : PerformsMove m f) (s : State) (rest : List Turn) :
    step { s with turns := m :: rest } = Result.withTurns rest (f s) :=
  (h.step_eq _ rest rfl).trans (h.withTurns rest s)

/-- Where no move is pending, none is after it. -/
theorem PerformsMove.keeps_no_turns {m : Turn} {f : State → Result} (h : PerformsMove m f) {s t : State}
    (hs : s.turns = []) (hnext : f s = .next t) : t.turns = [] := by
  have hsame : ({ s with turns := [] } : State) = s := by rw [← hs]
  have hw := h.withTurns [] s
  rw [hsame, hnext] at hw
  injection hw with ht
  rw [ht]

theorem coreRun_one {M : Host.Core} (s : M.State) : M.run 1 s = M.step s := by
  rw [Host.Core.run]
  cases M.step s <;> rfl

theorem coreRun_succ_of_refused {M : Host.Core} {n : Nat} {s : M.State} {r : M.Refusal} (h : M.step s = .refused r) :
    M.run (n + 1) s = .refused r := by
  rw [Host.Core.run, h]

/-- A run of two steps. -/
theorem run_two (s : State) : Host.Core.run core 2 s = andThen (step s) step := by
  cases hs : step s with
  | next t => exact (run_succ_of_next hs).trans (coreRun_one (M := core) t)
  | fault f => exact run_succ_of_fault hs
  | refused r => exact coreRun_succ_of_refused (M := core) hs

/-- Two pending moves, where no other is, are performed one after the other. -/
theorem run_two_moves {a b : Turn} {f g : State → Result} (ha : PerformsMove a f) (hb : PerformsMove b g) {s : State}
    (hs : s.turns = []) :
    Host.Core.run core 2 ({ s with turns := [a, b] } : State) = andThen (f s) g := by
  rw [run_two, ha.step_cons]
  cases hf : f s with
  | fault _ | refused _ => rfl
  | next t =>
    have ht : ({ t with turns := [] } : State) = t := by rw [← ha.keeps_no_turns hs hf]
    exact (hb.step_eq _ [] rfl).trans (congrArg g ht)

/-! The cycle (70_reset_and_hazards.md R167, R168). -/

theorem cycle_of_actsAtStart {p : HostPins} (h : actsAtStart p = true) (s : State) :
    cycle p s = andThen (hostTurn p s) decoderTurn := if_pos h

theorem cycle_of_not_actsAtStart {p : HostPins} (h : actsAtStart p = false) (s : State) :
    cycle p s = andThen (decoderTurn s) (hostTurn p) := by
  rw [cycle, h]; rfl

theorem actsAtStart_read {p : HostPins} (h : p.hwe = false) : actsAtStart p = true := by
  rw [actsAtStart, h]; rfl

theorem actsAtStart_nodeWrite (i : Index) (d : Word) : actsAtStart (asmWr (.node i) d) = true := by
  simp [actsAtStart, asmWr, asmAddr, lockedTarget]

theorem actsAtStart_cmdWrite (d : Word) : actsAtStart (asmWr .cmd d) = false := rfl

end Sys2Proof.Machine

namespace Sys2Proof.Proofs

open Sys2Proof.Machine

/-- Settles O2: the pin's level is `setRst`, and while it is 1 neither the decoder nor the host runs an instruction. -/
theorem resetPin : Obligations.ResetPin := by
  refine ⟨fun s level rest hm h => ?_, fun s rest hr hm => ?_, fun s p rest hr hm hsel => ?_⟩
  · exact (step_rst hm).trans (congrArg _ (setRst_of_reset (s := { s with turns := rest }) h))
  · rw [step_decoder hm]
    exact decoderTurn_still (.inl hr)
  · have hstep := (step_host hm).trans (hostTurn_inReset hsel hr)
    exact ⟨fun hwe => by rw [hstep, hwe]; rfl, fun hwe => by rw [hstep, hwe]; rfl⟩

/-- Settles O54: the cycle performs its two moves one after the other, the host's first where it acts on the state at
the start of the cycle. -/
theorem cycleIsAnInterleaving : Obligations.CycleIsAnInterleaving := by
  refine ⟨fun p s hs => ?_, fun s t hr ht => ?_, fun s i d hr ha => ?_, fun s hr => ?_⟩
  · rw [run_two_moves (performsMove_host p) performsMove_decoder hs,
      run_two_moves performsMove_decoder (performsMove_host p) hs]
    cases h : actsAtStart p with
    | true => exact .inl (cycle_of_actsAtStart h s)
    | false => exact .inr (cycle_of_not_actsAtStart h s)
  · have hrt : t.rst = false := (decoderTurn_effect ht).keeps_rst.trans hr
    calc cycle (asmWr .cmd 0x2#32) s
        = hostTurn (asmWr .cmd 0x2#32) t := by rw [cycle_of_not_actsAtStart (actsAtStart_cmdWrite _), ht]; rfl
      _ = exec (.wrCmd 0x2#32) t := hostTurn_access rfl hrt
      _ = .next (leaveSession t) := exec_wrCmd_abort (by decide) 0#28 t
  · have hturn : hostTurn (asmWr (.node i) d) s = .next { s with wrbusy := true } :=
      calc hostTurn (asmWr (.node i) d) s
          = exec (decodeBus true (nodeAddr i) d) s := hostTurn_access rfl hr
        _ = exec (.wrNode i d) s := by rw [(decodeBus_nodeAddr i d).2]
        _ = .next { s with wrbusy := true } := congrArg _ (lockedWrite_active ha)
    rw [cycle_of_actsAtStart (actsAtStart_nodeWrite i d), hturn]; rfl
  · have hturn : hostTurn (asmRd .bitcnt) s = .next (returnRead s.bitcnt s) := hostTurn_access rfl hr
    rw [cycle_of_actsAtStart (actsAtStart_read rfl), hturn]; rfl

end Sys2Proof.Proofs
end

section
/-! PROOFS of the statements that name a choice of the model: which samples a decoder move uses up (log 3), and where an
instruction of the decoder's formats changes nothing (log 9). -/

namespace Sys2Proof.Machine

/-! The samples a decoder move uses up (log 3). -/

/-- With `rst = 0` a decoder move uses up one sample of the source where `bit_ready` is 1, and none elsewhere. -/
theorem DecoderEffect.beats_eq {s t : State} (h : DecoderEffect s t) (hrst : s.rst = false) :
    t.beats = if s.bitReady then s.beats.tail else s.beats := by
  have noneAt : ∀ {w : Word}, s.walking = true → s.nodeRead s.cur = some w → kindOf w ≠ .internal →
      ¬ s.bitReady = true := fun hw hn hk hb => hk ((State.bitReady_at hw hn).1 hb)
  have noneOff : ¬ s.walking = true → ¬ s.bitReady = true := fun hw hb => hw (State.walking_of_bitReady hb)
  cases h with
  | bit w b hr hw hn hk hb | exhaust w hr hw hn hk hb | stall w hr hw hn hk hb =>
    exact (if_pos ((State.bitReady_at hw hn).2 hk)).symm
  | leafEos w hr hw hn hk hy | leafData w hr hw hn hk hy | leafBadsym w hr hw hn hk hy =>
    exact (if_neg (noneAt hw hn (by simp [hk]))).symm
  | badNode w hr hw hn hk => exact (if_neg (noneAt hw hn fun hi => by simp [hi, missingKind] at hk)).symm
  | emit hr he hy | emitHold hr he hy => exact (if_neg (noneOff (State.not_walking_of_emitted he))).symm
  | still h =>
    refine (if_neg (noneOff fun hw => ?_)).symm
    simp [hrst, State.active_of_walking hw] at h

/-- With `rst = 0` a decoder move uses up one sample of the sink where `sym_valid` is 1, and none elsewhere. -/
theorem DecoderEffect.ready_eq {s t : State} (h : DecoderEffect s t) (hrst : s.rst = false) :
    t.ready = if s.symValid then s.ready.tail else s.ready := by
  have noneOffered : s.state ≠ .emitted → ¬ s.symValid = true := fun hs hv => hs (State.symValid_iff.1 hv)
  cases h with
  | emit hr he hy | emitHold hr he hy => exact (if_pos (State.symValid_iff.2 he)).symm
  | bit _ _ _ hw | exhaust _ _ hw | stall _ _ hw | leafEos _ _ hw | leafData _ _ hw | leafBadsym _ _ hw
  | badNode _ _ hw => exact (if_neg (noneOffered (State.not_emitted_of_walking hw))).symm
  | still h =>
    refine (if_neg (noneOffered fun he => ?_)).symm
    simp [hrst, State.active_iff.2 (.inr (.inr he))] at h

/-! Where an instruction of the decoder's formats changes nothing (log 9). -/

theorem onWalk_elsewhere {f : State → State} {s : State} (hw : s.walking = false) : onWalk f s = .next s := by
  rw [onWalk, hw]; rfl

/-- A NODE instruction acts only where an entry is examined. -/
theorem exec_node_guarded {i : Instr} (hf : (encode i).fmt = .node) : ∃ f, ∀ s, exec i s = onWalk f s := by
  cases i with
  | empty | internal | leaf | reserved => exact ⟨_, fun _ => rfl⟩
  | _ => cases hf

/-- A BEAT instruction acts only at an INTERNAL entry. -/
theorem exec_beat_guarded {i : Instr} (hf : (encode i).fmt = .beat) :
    ∃ f, ∀ s, exec i s = onNode .internal f s := by
  cases i with
  | bit0 | bit1 | eof | stall => exact ⟨_, fun _ => rfl⟩
  | _ => cases hf

/-- A STEP instruction acts only at an entry of its kind. -/
theorem exec_step_guarded {i : Instr} (hf : (encode i).fmt = .step) : ∃ k f, ∀ s, exec i s = onNode k f s := by
  cases i with
  | stepBit0 | stepBit1 | stepExhaust | stepStall | stepLeafEos | stepLeafData | stepLeafBadsym | stepBadnode =>
    exact ⟨_, _, fun _ => rfl⟩
  | _ => cases hf

/-- A SINK instruction acts only in EMITTED. -/
theorem exec_sink_guarded {i : Instr} (hf : (encode i).fmt = .sink) : ∃ f, ∀ s, exec i s = onEmitted f s := by
  cases i with
  | stepEmit | stepEmitHold => exact ⟨_, fun _ => rfl⟩
  | _ => cases hf

end Sys2Proof.Machine

namespace Sys2Proof.Proofs

open Sys2Proof.Machine

/-- Settles O36: the move is the decoder's turn, which sees a sample of the source where a bit is needed and one of the
sink where a symbol is offered. The entry's being written is not used: at an unwritten one the move ends the run. -/
theorem sampleUse : Obligations.SampleUse := by
  intro s t rest hrst hm hstep
  rw [step_decoder hm] at hstep
  have he := decoderTurn_effect hstep
  have hbeats : t.beats = if s.bitReady then s.beats.tail else s.beats := he.beats_eq hrst
  have hready : t.ready = if s.symValid then s.ready.tail else s.ready := he.ready_eq hrst
  exact ⟨fun hb _ => hbeats.trans (if_pos hb), fun hb => hbeats.trans (if_neg (Bool.eq_false_iff.1 hb)),
    fun hv => hready.trans (if_pos hv), fun hv => hready.trans (if_neg (Bool.eq_false_iff.1 hv))⟩

/-- Settles O39: each instruction acts through its format's guard, which holds in another state, and for a
beat at an entry of another kind. -/
theorem wrongStateOrBeatOffInternalHolds : Obligations.WrongStateOrBeatOffInternalHolds := by
  intro i s
  refine ⟨?_, fun hf he => ?_, fun w hn hk hf => ?_⟩
  · rintro (hf | hf | hf) hw
    · obtain ⟨f, h⟩ := exec_node_guarded hf
      exact (h s).trans (onWalk_elsewhere hw)
    · obtain ⟨f, h⟩ := exec_beat_guarded hf
      exact (h s).trans (onNode_elsewhere hw)
    · obtain ⟨k, f, h⟩ := exec_step_guarded hf
      exact (h s).trans (onNode_elsewhere hw)
  · obtain ⟨f, h⟩ := exec_sink_guarded hf
    exact (h s).trans (onEmitted_elsewhere he)
  · obtain ⟨f, h⟩ := exec_beat_guarded hf
    exact (h s).trans (onNode_other hn hk)

end Sys2Proof.Proofs
end
